-- ==== Sys2Proof/Word.lean ====
section
/-! DEFINITION. The words and values of the block: descriptor words, binary32 values, colour triples and quadruples (00_scope.md R9, 40_numerics.md R68). -/

namespace Sys2Proof

/-- One byte of a laid-out descriptor or parameter block (20_memory.md R44). -/
abbrev Byte := BitVec 8

/-- A 32-bit descriptor word (30_encoding.md R57). -/
abbrev Word := BitVec 32

/-- `F`: a binary32 value, as its 32 bits (40_numerics.md R68). -/
abbrev F := BitVec 32

/-- `F3`: a colour triple (00_scope.md R9). -/
structure F3 where
  r : F
  g : F
  b : F
deriving DecidableEq, Repr, Inhabited

/-- `F4`: the value of a texel, four channels (00_scope.md R9, 20_memory.md R31). -/
structure F4 where
  r : F
  g : F
  b : F
  a : F
deriving DecidableEq, Repr, Inhabited

/-- The colour channels of a texel value; no mode reads the fourth (20_memory.md R43). -/
def F4.rgb (v : F4) : F3 := ⟨v.r, v.g, v.b⟩

end Sys2Proof
end

