-- ==== Sys2Proof/Config.lean ====
section
/-! DEFINITION. What an implementation fixes (the parameters of 00_scope.md R7) and the free values the spec leaves open. The free values are opaque: nothing in Lean can evaluate one or prove what it is. -/

namespace Sys2Proof

/-- `MIP_COUNT` (00_scope.md R7, decision D21). -/
def mipCount : Nat := 7
/-- `NUM_IN`, the capacity of `IN_BIND` (00_scope.md R7, 20_memory.md R48). -/
abbrev numIn : Nat := 4
/-- `NUM_BLOOM`, the capacity of `BL_BIND` (00_scope.md R7, 20_memory.md R48). -/
abbrev numBloom : Nat := 4
/-- `NUM_OUT = 3*MIP_COUNT+1`, the capacity of `OUT_BIND` (00_scope.md R7, 20_memory.md R48). -/
abbrev numOut : Nat := 22
/-- `TILE_X` (00_scope.md R7). -/
def tileX : Nat := 8
/-- `TILE_Y` (00_scope.md R7). -/
def tileY : Nat := 4

/-- `GUARD_MODE`: the bounds guard (41_decoder.md R86, R87). -/
inductive GuardMode where
  | correct
  | reference
deriving DecidableEq, Repr

/-- `TONEMAP_SEL`: the tonemap APPLY uses (46_tonemap.md R117). -/
inductive TonemapSel where
  | gt
  | aces
deriving DecidableEq, Repr

/-- `BYTE_ORDER`: how a host lays a 32-bit word out in bytes (20_memory.md R44). -/
inductive ByteOrder where
  | little
  | big
deriving DecidableEq, Repr

/-- `NUM`: the numerics record of 40_numerics.md R69 and its evaluation order (R70), each other one number `k` of an uninterpreted family (assumption 8). -/
inductive NumSel where
  /-- The reference record, each expression evaluated in the order its rule writes it. -/
  | reference
  /-- Other operations, in the order written. -/
  | other (k : Nat)
  /-- Other operations, and each rule's expression reassociated, fused or with its literals folded otherwise (R70, 20_memory.md R41, assumption 28). -/
  | reordered (k : Nat)
deriving DecidableEq, Repr

/-- The expressions of the rules that hold more than one operation of `NUM`, so that another order of evaluation can give another value (40_numerics.md R70). -/
inductive RuleExpr where
  /-- A coordinate of the sample position (41_decoder.md R85). -/
  | centre
  /-- A coordinate of a box tap, the texel size within it (43_box_downsample.md R96). -/
  | boxCoordinate
  /-- A coordinate of a tent tap, the spacing within it (44_tent_upsample.md R101). -/
  | tentCoordinate
  /-- The box sum (43_box_downsample.md R97). -/
  | boxSum
  /-- The tent sum (44_tent_upsample.md R102). -/
  | tentSum
  /-- A channel of the threshold curve, its scale factor within it (42_threshold.md R90). -/
  | threshold
  /-- The combine law (45_combine.md R105). -/
  | combine
  /-- `S1` of the GT tonemap (46_tonemap.md R110). -/
  | gtS1
  /-- `C2` of the GT tonemap (46_tonemap.md R110). -/
  | gtC2
  /-- The GT tonemap (46_tonemap.md R113). -/
  | gt
  /-- The ACES tonemap (46_tonemap.md R115). -/
  | aces
  /-- The gamma step, whose literal 1/2.2 can be folded otherwise (46_tonemap.md R116, 40_numerics.md R77). -/
  | gamma
deriving DecidableEq, Repr

/-- `SUBTEXEL`: no quantisation of sampler weights, or some other function, number `k` (20_memory.md R38, R41). -/
inductive SubtexelSel where
  | exact
  | other (k : Nat)
deriving DecidableEq, Repr

/-- `STORE_CONV`: identity (a binary32 image), or some other conversion, number `k` (20_memory.md R42). -/
inductive StoreConvSel where
  | identity
  | other (k : Nat)
deriving DecidableEq, Repr

/-- The operations of the numerics record (40_numerics.md R69). -/
inductive NumOp where
  | add
  | sub
  | mul
  | div
  | pow
  | exp
deriving DecidableEq, Repr

/-- The parameters the spec leaves OPEN (00_scope.md R7), as plain data. -/
structure Params where
  guardMode  : GuardMode
  tonemapSel : TonemapSel
  tentRadius : F
  gtL0       : F
  alphaOut   : F
  storeConv  : StoreConvSel
  subtexel   : SubtexelSel
  num        : NumSel
deriving DecidableEq, Repr

/-- The reference value of every open parameter (00_scope.md R7, bits in 40_numerics.md R77). -/
def Params.reference : Params where
  guardMode  := .correct
  tonemapSel := .gt
  tentRadius := 0x3F800000#32
  gtL0       := 0x3ECCCCCD#32
  alphaOut   := 0x3F800000#32
  storeConv  := .identity
  subtexel   := .exact
  num        := .reference

/-- Where a free value is drawn: the dispatch's number, the invocation, and the place in its computation. Two places never share a site, so a draw at one place says nothing of a draw at another (40_numerics.md R79, assumption 9). -/
structure DrawSite where
  epoch : Nat
  x     : Nat
  y     : Nat
  path  : List Nat
deriving DecidableEq, Repr

/-- The value of a draw (40_numerics.md R79). -/
opaque Config.draw : DrawSite → F
/-- A drawn written bit (60_exceptions.md R134). -/
opaque Config.drawBit : DrawSite → Bool
/-- A drawn choice among several (60_exceptions.md R140, R143); the user takes it modulo their number. -/
opaque Config.choice : DrawSite → Nat
/-- The operations of a numerics record other than the reference one (40_numerics.md R69). -/
opaque Config.numOp : Nat → NumOp → F → F → F
/-- A rule's expression evaluated in another order, on its operands: `none` where one of the operations so made draws (40_numerics.md R70, R79). -/
opaque Config.evalOrder : Nat → RuleExpr → List F → Option F
/-- The weighted sum of `Sample` in another internal order, from the two fractions in units of 2^-149 and the four texels (20_memory.md R41). -/
opaque Config.sampleOrder : Nat → Nat → Nat → List F → Option F
/-- Which neighbour `exp` of an operand rounds to, should its enclosure not decide (40_numerics.md R76, assumption 13). -/
opaque Config.expChoice : F → Nat
/-- `round_F` of such a record, of the rational `n / d` times 2^-149 (20_memory.md R38). -/
opaque Config.numRound : Nat → Nat → Nat → F
/-- A `SUBTEXEL` other than the identity, on a fraction in units of 2^-149 (20_memory.md R38). -/
opaque Config.subtexel : Nat → Nat → Nat
/-- A `STORE_CONV` other than the identity (20_memory.md R42). -/
opaque Config.storeConv : Nat → F → F
/-- What an unwritten register would hold: no rule returns it (10_state.md R29, R157). -/
opaque Config.unwrittenReg : Nat → F
/-- What an unwritten texel (image, level, x, y) would hold: no rule returns it (10_state.md R29). -/
opaque Config.unwrittenTexel : Nat → Nat → Nat → Nat → F4

end Sys2Proof
end

