-- ==== Sys2Proof/Syntax.lean ====
section
/-! DEFINITION. The descriptors (one constructor per row of spec/opcode_table.json) and the host's actions (30_encoding.md R57, R59, R66; 10_state.md R24). -/

namespace Sys2Proof

/-- The five operations of 30_encoding.md R59. Every one carries the four operand fields of R57 as naturals (R62, R63); `bloom` is ignored by the first three (R61) and kept, because the descriptor has it. -/
inductive Instr where
  | prefilter (lod input output bloom : Nat)
  | downsample (lod input output bloom : Nat)
  | upsampleFirst (lod input output bloom : Nat)
  | upsample (lod input output bloom : Nat)
  | apply (lod input output bloom : Nat)
deriving DecidableEq, Repr

/-- The control registers other than `DESC`, in number order 0 to 5 (10_state.md R17). -/
inductive ParamReg where
  | tc0
  | tc1
  | tc2
  | tc3
  | intensity
  | combineC
deriving DecidableEq, Repr

/-- One action of the host: the ports `CFG_WRITE` and `DISPATCH` of 10_state.md R24, written `SET`, `BIND` and a descriptor with its grid in 30_encoding.md R66. An input or bloom slot is given an image, an output slot one level of an image (R23). -/
inductive HostAction where
  | setReg (r : ParamReg) (v : F)
  | bindIn (slot : Fin numIn) (image : Nat)
  | bindBl (slot : Fin numBloom) (image : Nat)
  | bindOut (slot : Fin numOut) (image level : Nat)
  | dispatch (desc : Word) (gx gy : Nat)
deriving DecidableEq, Repr

end Sys2Proof
end

