-- ==== Sys2Proof/WellFormed.lean ====
section
/-! DEFINITION. When a descriptor's operands fit their fields (30_encoding.md R58, 41_decoder.md R82). -/

namespace Sys2Proof

/-- An operand of a seven-bit field: 0 to 127 (30_encoding.md R58). -/
def fits7 (n : Nat) : Bool := decide (n < 128)

/-- Every operand fits its field: the precondition of `encode` (41_decoder.md R82). -/
def Instr.wellFormed : Instr → Bool
  | .prefilter l i o b => fits7 l && fits7 i && fits7 o && fits7 b
  | .downsample l i o b => fits7 l && fits7 i && fits7 o && fits7 b
  | .upsampleFirst l i o b => fits7 l && fits7 i && fits7 o && fits7 b
  | .upsample l i o b => fits7 l && fits7 i && fits7 o && fits7 b
  | .apply l i o b => fits7 l && fits7 i && fits7 o && fits7 b

end Sys2Proof
end

