-- ==== Sys2Proof/Decode.lean ====
section
/-! DEFINITION. The invocation decoder and, after it, the encoder (41_decoder.md R81–R83, 30_encoding.md R57–R60, R66). -/

namespace Sys2Proof

/-- The five fields of a descriptor, as naturals (30_encoding.md R57, 41_decoder.md R81). -/
structure Fields where
  mode   : Nat
  lod    : Nat
  input  : Nat
  output : Nat
  bloom  : Nat
deriving DecidableEq, Repr

/-- Why the decoder gives no instruction. -/
inductive DecodeError where
  /-- `mode` is 5 to 15 (30_encoding.md R60). -/
  | reservedMode (mode : Nat)
  /-- Fewer than the four bytes of a descriptor were given (30_encoding.md R64). -/
  | truncated (length : Nat)
deriving DecidableEq, Repr

/-- `w[lo+width-1 : lo]` as a natural (00_scope.md R8). -/
def bitField (w : Word) (lo width : Nat) : Nat := w.toNat / 2 ^ lo % 2 ^ width

/-- `decode` of 41_decoder.md R81: total, five naturals, no check. -/
def decodeFields (w : Word) : Fields where
  mode   := bitField w 28 4
  lod    := bitField w 21 7
  input  := bitField w 14 7
  output := bitField w 7 7
  bloom  := bitField w 0 7

/-- The operation a mode value selects (30_encoding.md R59); 5 to 15 are reserved (R60). -/
def Instr.ofFields (t : Fields) : Except DecodeError Instr :=
  match t.mode with
  | 0 => .ok (.prefilter t.lod t.input t.output t.bloom)
  | 1 => .ok (.downsample t.lod t.input t.output t.bloom)
  | 2 => .ok (.upsampleFirst t.lod t.input t.output t.bloom)
  | 3 => .ok (.upsample t.lod t.input t.output t.bloom)
  | 4 => .ok (.apply t.lod t.input t.output t.bloom)
  | m => .error (.reservedMode m)

/-- The instruction of a descriptor word. -/
def decode (w : Word) : Except DecodeError Instr := Instr.ofFields (decodeFields w)

/-- Four bytes as one word, the first at the lowest address (20_memory.md R44). -/
def wordOfBytes : ByteOrder → Byte → Byte → Byte → Byte → Word
  | .little, b0, b1, b2, b3 => b3 ++ b2 ++ b1 ++ b0
  | .big, b0, b1, b2, b3 => b0 ++ b1 ++ b2 ++ b3

/-- The instruction at the head of a byte string, and the rest (20_memory.md R44, 30_encoding.md R64). -/
def decodeBytes (o : ByteOrder) : List Byte → Except DecodeError (Instr × List Byte)
  | b0 :: b1 :: b2 :: b3 :: rest =>
    match decode (wordOfBytes o b0 b1 b2 b3) with
    | .ok i => .ok (i, rest)
    | .error e => .error e
  | bs => .error (.truncated bs.length)

/-- `encode` of 41_decoder.md R82, the word of five fields. R82 leaves it undefined for a field at or above its width's bound: there the overlapping bits are ORed and the word is cut to 32 bits, the model's choice (assumption 26). -/
def encodeFields (t : Fields) : Word :=
  BitVec.ofNat 32 (t.mode <<< 28 ||| t.lod <<< 21 ||| t.input <<< 14 ||| t.output <<< 7 ||| t.bloom)

/-- The fields of an instruction, its mode value by 30_encoding.md R59. -/
def Instr.fields : Instr → Fields
  | .prefilter l i o b => ⟨0, l, i, o, b⟩
  | .downsample l i o b => ⟨1, l, i, o, b⟩
  | .upsampleFirst l i o b => ⟨2, l, i, o, b⟩
  | .upsample l i o b => ⟨3, l, i, o, b⟩
  | .apply l i o b => ⟨4, l, i, o, b⟩

/-- The descriptor word of an instruction (30_encoding.md R66). -/
def encode (i : Instr) : Word := encodeFields i.fields

/-- A word laid out in bytes, the first at the lowest address (20_memory.md R44). -/
def bytesOfWord : ByteOrder → Word → List Byte
  | .little, w => [w.extractLsb' 0 8, w.extractLsb' 8 8, w.extractLsb' 16 8, w.extractLsb' 24 8]
  | .big, w => [w.extractLsb' 24 8, w.extractLsb' 16 8, w.extractLsb' 8 8, w.extractLsb' 0 8]

/-- The instruction the decoder reads from an instruction of `nbits` bits `w`, numbered as spec/opcode_table.json numbers them. -/
def decodeTableWord (nbits w : Nat) : Option Instr :=
  match decodeBytes .little (bytesOfWord .little (BitVec.ofNat 32 (w % 2 ^ nbits))) with
  | .ok (i, _) => some i
  | .error _ => none

end Sys2Proof
end

