-- ==== Sys2Proof/Machine/Numerics.lean ====
section
/-! DEFINITION. The numerics of 40_numerics.md: binary32, rounding to nearest even, the operations of the record NUM, draws (R68–R70, R75, R76, R78–R80). Values are handled exactly as integers in units of 2^-149, the least positive binary32 value, and rounded once per operation. -/

namespace Sys2Proof.Machine

/-! ### The format (R68) -/

/-- The sign bit. -/
def fNeg (x : F) : Bool := decide (2 ^ 31 ≤ x.toNat)

/-- The exponent field. -/
def fExp (x : F) : Nat := x.toNat / 2 ^ 23 % 256

/-- The fraction field. -/
def fFrac (x : F) : Nat := x.toNat % 2 ^ 23

/-- Neither an infinity nor a NaN. -/
def fFinite (x : F) : Bool := decide (fExp x < 255)

/-- The magnitude of a finite value, in units of 2^-149. -/
def fMag (x : F) : Nat :=
  if fExp x = 0 then fFrac x else (2 ^ 23 + fFrac x) * 2 ^ (fExp x - 1)

/-- A finite value, in units of 2^-149. -/
def fVal (x : F) : Int := if fNeg x then -(fMag x : Int) else (fMag x : Int)

/-- The magnitude that the 31 bits below a sign bit stand for, in units of 2^-149. -/
def bitsMag (b : Nat) : Nat := if b / 2 ^ 23 = 0 then b % 2 ^ 23 else (2 ^ 23 + b % 2 ^ 23) * 2 ^ (b / 2 ^ 23 - 1)

/-- The value with its sign bit inverted. -/
def fFlip (x : F) : F := BitVec.ofNat 32 (if fNeg x then x.toNat - 2 ^ 31 else x.toNat + 2 ^ 31)

/-- A sign bit over the 31 bits below it. -/
def fPack (neg : Bool) (bits : Nat) : F := BitVec.ofNat 32 ((if neg then 2 ^ 31 else 0) + bits)

/-! ### Rounding (R69, R80) -/

/-- `n / d` to the nearest natural, ties to even. -/
def roundHalfEven (n d : Nat) : Nat :=
  if d < 2 * (n % d) ∨ (2 * (n % d) = d ∧ n / d % 2 = 1) then n / d + 1 else n / d

/-- How many low bits of the magnitude `n / d` (units of 2^-149) lie below a 24-bit significand. -/
def roundShift (n d : Nat) : Nat := Nat.log2 (n / d) - 23

/-- The low 31 bits of the binary32 value nearest to `n / d` times 2^-149, ties to even, subnormals kept; `none` where it overflows. -/
def roundMag (n d : Nat) : Option Nat :=
  let e := roundShift n d
  let bits := e * 2 ^ 23 + roundHalfEven n (d * 2 ^ e)
  if bits < 0x7F800000 then some bits else none

/-! ### Draws (R79) -/

/-- Where a computation stands: the parameters, and the site its draws are taken at. -/
structure Ctx where
  cfg  : Params
  site : DrawSite

/-- The `i`-th place within a computation. -/
def Ctx.nth (c : Ctx) (i : Nat) : Ctx := { c with site := { c.site with path := i :: c.site.path } }

/-- A draw: any value, under no law (R79). -/
def Ctx.draw (c : Ctx) : F := Config.draw c.site

/-! ### Exact results, rounded once (R69) -/

/-- `a + b` rounded; an exact zero is +0 unless both operands have the sign bit set (R80). -/
def addExact (a b : F) : Option F :=
  let s := fVal a + fVal b
  if s = 0 then some (fPack (fNeg a && fNeg b) 0)
  else (roundMag s.natAbs 1).map (fPack (decide (s < 0)))

/-- `a - b` rounded. -/
def subExact (a b : F) : Option F := addExact a (fFlip b)

/-- `a × b` rounded. -/
def mulExact (a b : F) : Option F :=
  (roundMag (fMag a * fMag b) (2 ^ 149)).map (fPack (fNeg a != fNeg b))

/-- `a / b` rounded; `none` where `b` is a zero (assumption 11). -/
def divExact (a b : F) : Option F :=
  if fMag b = 0 then none
  else (roundMag (fMag a * 2 ^ 149) (fMag b)).map (fPack (fNeg a != fNeg b))

/-! ### Enclosures for `exp` and `pow` (R75, R76)

Fixed point with `fixBits` fraction bits. Each series is evaluated from its last term inwards, rounded down for a lower bound and up for an upper bound, so the true value lies between the two. -/

/-- Fraction bits of the fixed-point numbers. -/
def fixBits : Nat := 256

/-- One, in fixed point. -/
def fixOne : Nat := 2 ^ fixBits

/-- A lower bound of `1/(2j+1) + t²/(2j+3) + …` for `t = a/b`, of `terms` terms. -/
def atanhLo (a b : Nat) : Nat → Nat → Nat
  | 0, _ => 0
  | terms + 1, j => fixOne / (2 * j + 1) + a * a * atanhLo a b terms (j + 1) / (b * b)

/-- An upper bound of the same sum for `0 ≤ t ≤ 1/3`. -/
def atanhHi (a b : Nat) : Nat → Nat → Nat
  | 0, _ => 2 * fixOne
  | terms + 1, j => fixOne / (2 * j + 1) + 1 + (a * a * atanhHi a b terms (j + 1) / (b * b) + 1)

/-- Terms of the logarithm series. -/
def logTerms : Nat := 84

/-- A lower bound of `ln ((b + a) / (b - a)) = 2·atanh (a/b)`. -/
def lnRatioLo (a b : Nat) : Nat := 2 * a * atanhLo a b logTerms 0 / b

/-- An upper bound of the same. -/
def lnRatioHi (a b : Nat) : Nat := 2 * a * atanhHi a b logTerms 0 / b + 1

/-- A lower bound of `ln 2 = 2·atanh (1/3)`. -/
def ln2Lo : Nat := lnRatioLo 1 3

/-- An upper bound of `ln 2`. -/
def ln2Hi : Nat := lnRatioHi 1 3

/-- A lower bound of `1 + r/i + r²/(i(i+1)) + …`, of `terms` terms. -/
def taylorLo (r : Nat) : Nat → Nat → Nat
  | 0, _ => fixOne
  | terms + 1, i => fixOne + r * taylorLo r terms (i + 1) / (i * fixOne)

/-- An upper bound of the same sum for `0 ≤ r ≤ 1`. -/
def taylorHi (r : Nat) : Nat → Nat → Nat
  | 0, _ => 3 * fixOne
  | terms + 1, i => fixOne + r * taylorHi r terms (i + 1) / (i * fixOne) + 1

/-- Terms of the exponential series. -/
def expTerms : Nat := 60

/-- The binary32 bits nearest to `m` (fixed point) times `2^k`; `k ≥ -160` where it is used. -/
def roundScaled (m : Nat) (k : Int) : Option Nat :=
  roundMag (m * 2 ^ (k + 160).toNat) (2 ^ (fixBits + 11))

/-- The rounding of a lower bound of `e^z`, for `z` in fixed point: `z = k·ln 2 + r` with `r` bounded below. -/
def expLoBits (z : Int) : Option Nat :=
  let l : Int := if 0 ≤ z then ln2Hi else ln2Lo
  roundScaled (taylorLo (z % l).toNat expTerms 1) (z / l)

/-- The rounding of an upper bound of `e^z`. -/
def expHiBits (z : Int) : Option Nat :=
  let l : Int := if 0 ≤ z then ln2Hi else ln2Lo
  roundScaled (taylorHi ((z % l).toNat + (z / l).natAbs * (ln2Hi - ln2Lo)) expTerms 1) (z / l)

/-- `e^z` for every `z` from `zlo` to `zhi`, where the two bounds round to one binary32 value: `none` where it overflows or the bounds do not decide. `e^89` overflows and `e^-105` is below half the least positive value. -/
def expBetween (zlo zhi : Int) : Option F :=
  if 89 * (fixOne : Int) ≤ zlo then none
  else if zhi ≤ -105 * (fixOne : Int) then some (fPack false 0)
  else if zlo < -105 * (fixOne : Int) ∨ 90 * (fixOne : Int) < zhi then none
  else
    match expLoBits zlo, expHiBits zhi with
    | some lo, some hi => if lo = hi then some (fPack false lo) else none
    | _, _ => none

/-- The bounds show that `e^z` overflows for every `z` from `zlo` on. -/
def expOverflows (zlo : Int) : Bool :=
  decide (89 * (fixOne : Int) ≤ zlo) || (decide (-105 * (fixOne : Int) ≤ zlo) && (expLoBits zlo).isNone)

/-- A finite `x` in fixed point, exactly. -/
def expArg (x : F) : Int := fVal x * (2 ^ (fixBits - 149) : Nat)

/-- `e^x` where the bounds do not decide: one of the values from the lower bound's to the upper bound's, which one is not known (assumption 13). -/
def expNear (x : F) : Option F :=
  if 89 * (fixOne : Int) ≤ expArg x then none
  else
    match expLoBits (expArg x), expHiBits (expArg x) with
    | some lo, some hi => some (fPack false (lo + Config.expChoice x % (hi - lo + 1)))
    | _, _ => none

/-- `e^x` rounded to nearest, for a finite `x`: `none` where it overflows (R76). -/
def expExact (x : F) : Option F :=
  match expBetween (expArg x) (expArg x) with
  | some v => some v
  | none => expNear x

/-- A lower bound of `ln x` for a positive finite `x`: `x = m·2^e` with `1 ≤ m < 2`, `ln m` from the ratio `(m - 1)/(m + 1)`. -/
def lnLo (x : F) : Int :=
  let g := Nat.log2 (fMag x)
  let e : Int := (g : Int) - 149
  e * (if 0 ≤ e then ln2Lo else ln2Hi) + lnRatioLo (fMag x - 2 ^ g) (fMag x + 2 ^ g)

/-- An upper bound of `ln x`. -/
def lnHi (x : F) : Int :=
  let g := Nat.log2 (fMag x)
  let e : Int := (g : Int) - 149
  e * (if 0 ≤ e then ln2Hi else ln2Lo) + lnRatioHi (fMag x - 2 ^ g) (fMag x + 2 ^ g)

/-- One: `0x3F800000`. -/
def fOne : F := 0x3F800000#32

/-- A lower bound of `y·ln x`, in fixed point. -/
def powArgLo (x y : F) : Int :=
  fVal y * (if 0 ≤ fVal y then lnLo x else lnHi x) / (2 ^ 149 : Nat)

/-- An upper bound of `y·ln x`. -/
def powArgHi (x y : F) : Int :=
  fVal y * (if 0 ≤ fVal y then lnHi x else lnLo x) / (2 ^ 149 : Nat) + 1

/-- Two naturals ordered as `x^y` and the middle of the values with bits `b - 1` and `b`: with `|y| = p/q` in lowest terms, the `q`-th powers of both over a common denominator. -/
def powSides (x y : F) (b : Nat) : Nat × Nat :=
  let g := Nat.gcd (fVal y).natAbs (2 ^ 149)
  let p := (fVal y).natAbs / g
  let q := 2 ^ 149 / g
  let mid := bitsMag (b - 1) + bitsMag b
  if 0 ≤ fVal y then (fMag x ^ p * 2 ^ (150 * q), mid ^ q * 2 ^ (149 * p))
  else (2 ^ (150 * q) * 2 ^ (149 * p), mid ^ q * fMag x ^ p)

/-- `x^y` rounds to at least the value with bits `b`: it lies past the middle, or at it and `b` is even. -/
def powReaches (x y : F) (b : Nat) : Bool :=
  decide ((powSides x y b).2 < (powSides x y b).1 ∨ ((powSides x y b).2 = (powSides x y b).1 ∧ b % 2 = 0))

/-- The greatest number that a descending test admits, from its highest bit down. -/
def searchBits (test : Nat → Bool) : Nat → Nat → Nat
  | 0, b => b
  | i + 1, b => searchBits test i (if test (b + 2 ^ i) then b + 2 ^ i else b)

/-- `x^y` rounded to nearest, ties to even, by comparing powers of integers; `none` where it overflows. -/
def powSearch (x y : F) : Option F :=
  if searchBits (powReaches x y) 31 0 < 0x7F800000 then some (fPack false (searchBits (powReaches x y) 31 0)) else none

/-- `x^y` rounded to nearest, ties to even, for finite `x > 0` and `y` (R75): as `e^(y·ln x)` where its bounds decide, else (at the middle of two values, such as `(1 + 2^-12)^2`) by exact comparison; `none` where it overflows. -/
def powExact (x y : F) : Option F :=
  if x = fOne then some fOne
  else
    match expBetween (powArgLo x y) (powArgHi x y) with
    | some v => some v
    | none => if expOverflows (powArgLo x y) then none else powSearch x y

/-! ### The operations of NUM (R69, R79) -/

/-- The value of an operation on finite operands whose exact result does not overflow: the rounded one, or that of another numerics record. -/
def numResult (c : Ctx) (op : NumOp) (a b : F) (exact : Option F) : F :=
  match exact with
  | none => c.draw
  | some v =>
    match c.cfg.num with
    | .reference => v
    | .other k => Config.numOp k op a b
    | .reordered k => Config.numOp k op a b

/-- An operation: a draw where an operand is an infinity or a NaN, or the result overflows (R79). -/
def numApply (c : Ctx) (op : NumOp) (a b : F) (exact : Option F) : F :=
  if fFinite a && fFinite b then numResult c op a b exact else c.draw

/-- `NUM.add` (R69). -/
def numAdd (c : Ctx) (a b : F) : F := numApply c .add a b (addExact a b)

/-- `NUM.sub` (R69). -/
def numSub (c : Ctx) (a b : F) : F := numApply c .sub a b (subExact a b)

/-- `NUM.mul` (R69). -/
def numMul (c : Ctx) (a b : F) : F := numApply c .mul a b (mulExact a b)

/-- `NUM.div` (R69). -/
def numDiv (c : Ctx) (a b : F) : F := numApply c .div a b (divExact a b)

/-- `NUM.exp` (R76). -/
def numExp (c : Ctx) (x : F) : F := numApply c .exp x x (expExact x)

/-- `NUM.pow` (R75): `x^y` for `x > 0`, 0 for `x = 0 < y`, a draw elsewhere. -/
def numPow (c : Ctx) (x y : F) : F :=
  if fFinite x && fFinite y then
    if fMag x = 0 then (if 0 < fVal y then fPack false 0 else c.draw)
    else if fNeg x then c.draw
    else numResult c .pow x y (powExact x y)
  else c.draw

/-- `-a`, the sign inverted (46_tonemap.md R110). -/
def numNeg (c : Ctx) (a : F) : F := if fFinite a then fFlip a else c.draw

/-- `F(n)`, the exact conversion of a natural up to 2^24 (R78); beyond that the spec states no value (assumption 12). -/
def natToF (c : Ctx) (n : Nat) : F :=
  if n ≤ 2 ^ 24 then
    match roundMag (n * 2 ^ 149) 1 with
    | some bits => fPack false bits
    | none => c.draw
  else c.draw

/-- `round_F` of the non-negative real `n / d` times 2^-149 (20_memory.md R38, R41). -/
def roundF (c : Ctx) (n d : Nat) : F :=
  match roundMag n d with
  | none => c.draw
  | some bits =>
    match c.cfg.num with
    | .reference => fPack false bits
    | .other k => Config.numRound k n d
    | .reordered k => Config.numRound k n d

/-- `SUBTEXEL` of a fraction in units of 2^-149, kept in [0, 1] (20_memory.md R38, assumption 14). -/
def subtexel (p : Params) (frac : Nat) : Nat :=
  match p.subtexel with
  | .exact => frac
  | .other k => min (Config.subtexel k frac) (2 ^ 149)

/-- The value of a computation that another order of evaluation gives on operands `args`: a draw where one of them is an infinity or a NaN, or where the computation draws (R70, R79). -/
def reorderedValue (c : Ctx) (args : List F) (value : Option F) : F :=
  if args.all fFinite then value.getD c.draw else c.draw

/-- A rule's expression on its operands: `written`, its value in the order the rule writes, unless the numerics record has another order (R70). -/
def evaluated (c : Ctx) (e : RuleExpr) (args : List F) (written : F) : F :=
  match c.cfg.num with
  | .reference => written
  | .other _ => written
  | .reordered k => reorderedValue c args (Config.evalOrder k e args)

/-- `STORE_CONV` (20_memory.md R42). -/
def storeConv (p : Params) (v : F) : F :=
  match p.storeConv with
  | .identity => v
  | .other k => Config.storeConv k v

end Sys2Proof.Machine
end

