-- ==== Sys2Proof/Machine/Flags.lean ====
section
/-! DEFINITION. The block has no flags (10_state.md R16). This file holds what stands in their place: comparisons whose results are not kept, the functions of 40_numerics.md R71–R73 built on them, and the bounds guard (41_decoder.md R86, R87). -/

namespace Sys2Proof.Machine

/-- A finite value's place in the IEEE order, -0 and +0 alike (40_numerics.md R71). -/
def fKey (x : F) : Nat := if fNeg x then 2 ^ 31 - (x.toNat - 2 ^ 31) else 2 ^ 31 + x.toNat

/-- `a < b` in the IEEE order. -/
def fLt (a b : F) : Bool := decide (fKey a < fKey b)

/-- `fmax` (40_numerics.md R71); a draw on a non-finite operand (R79, assumption 10). -/
def fmax (c : Ctx) (a b : F) : F :=
  if fFinite a && fFinite b then (if fLt a b then b else a) else c.draw

/-- `fmin` (40_numerics.md R71); a draw on a non-finite operand (R79, assumption 10). -/
def fmin (c : Ctx) (a b : F) : F :=
  if fFinite a && fFinite b then (if fLt b a then b else a) else c.draw

/-- `clamp` (40_numerics.md R72): a draw where `lo > hi` or an operand is not finite (R79). -/
def fClamp (c : Ctx) (x lo hi : F) : F :=
  if fFinite x && fFinite lo && fFinite hi && !fLt hi lo then
    fmin (c.nth 0) (fmax (c.nth 1) x lo) hi
  else c.draw

/-- `step(e, x)` (40_numerics.md R73). -/
def fStep (c : Ctx) (e x : F) : F :=
  if fFinite e && fFinite x then (if fLt x e then 0#32 else fOne) else c.draw

/-- `smoothstep(e0, e1, x)` (40_numerics.md R73): a draw where `e0 ≥ e1` or an operand is not finite (R79). -/
def fSmoothstep (c : Ctx) (e0 e1 x : F) : F :=
  if fFinite e0 && fFinite e1 && fFinite x && fLt e0 e1 then
    let t := fClamp (c.nth 0) (numDiv (c.nth 1) (numSub (c.nth 2) x e0) (numSub (c.nth 3) e1 e0)) 0#32 fOne
    numMul (c.nth 4) (numMul (c.nth 5) t t)
      (numSub (c.nth 6) 0x40400000#32 (numMul (c.nth 7) 0x40000000#32 t))
  else c.draw

/-- The bounds guard: both coordinates under CORRECT (41_decoder.md R86), `x` alone under REFERENCE (R87). -/
def guardPasses (m : GuardMode) (w h x y : Nat) : Bool :=
  match m with
  | .correct => decide (x < w) && decide (y < h)
  | .reference => decide (x < w) && decide (x < w)

end Sys2Proof.Machine
end

