-- ==== Sys2Proof/Machine/Curves.lean ====
section
/-! DEFINITION. The per-colour operators: threshold curve and prefilter (42_threshold.md R90, R91), combine (45_combine.md R105), GT and ACES tonemaps and gamma (46_tonemap.md R109–R117), with the constants of 40_numerics.md R77. -/

namespace Sys2Proof.Machine

/-! ### Constants (40_numerics.md R77) -/

/-- `EPS`, 1e-4. -/
def cEps : F := 0x38D1B717#32
/-- `CLAMP_MAX`, 20.0. -/
def cClampMax : F := 0x41A00000#32
/-- ACES `a`, 2.51. -/
def acesA : F := 0x4020A3D7#32
/-- ACES `b`, 0.03. -/
def acesB : F := 0x3CF5C28F#32
/-- ACES `c`, 2.43. -/
def acesC : F := 0x401B851F#32
/-- ACES `d`, 0.59. -/
def acesD : F := 0x3F170A3D#32
/-- ACES `e`, 0.14. -/
def acesE : F := 0x3E0F5C29#32
/-- GT `P`, 1.0. -/
def gtP : F := 0x3F800000#32
/-- GT `m`, 0.22. -/
def gtM : F := 0x3E6147AE#32
/-- GT `c`, 1.33. -/
def gtC : F := 0x3FAA3D71#32
/-- GT `a`, 1.0. -/
def gtA : F := 0x3F800000#32
/-- GT `b`, 0.0. -/
def gtB : F := 0x00000000#32
/-- `GAMMA_EXP`, 1/2.2 rounded once. -/
def gammaExp : F := 0x3EE8BA2F#32

/-! ### Threshold (42_threshold.md) -/

/-- The brightness of a colour, its greatest channel (R90). -/
def brightness (c : Ctx) (k : F3) : F := fmax (c.nth 0) (fmax (c.nth 1) k.r k.g) k.b

/-- The one scale factor of the threshold curve, from a brightness (R90). -/
def thresholdScale (c : Ctx) (br threshold : F) (curve : F3) : F :=
  let rq := fClamp (c.nth 0) (numSub (c.nth 1) br curve.r) 0#32 curve.g
  let rq2 := numMul (c.nth 2) (numMul (c.nth 3) rq rq) curve.b
  let num := fmax (c.nth 4) rq2 (numSub (c.nth 5) br threshold)
  numDiv (c.nth 6) num (fmax (c.nth 7) br cEps)

/-- One channel of the threshold curve: the channel `v` times the scale factor (R90). -/
def thresholdChannel (c : Ctx) (v br scale threshold : F) (curve : F3) : F :=
  evaluated (c.nth 0) .threshold [v, br, threshold, curve.r, curve.g, curve.b] (numMul (c.nth 1) v scale)

/-- A colour times a scalar, channel by channel (40_numerics.md R74). -/
def scaleColor (c : Ctx) (k : F3) (f : F) : F3 :=
  ⟨numMul (c.nth 0) k.r f, numMul (c.nth 1) k.g f, numMul (c.nth 2) k.b f⟩

/-- `QuadraticThreshold` (R90): one scale factor for the three channels; `curve.x`, `curve.y`, `curve.z` are the channels of `curve`. -/
def quadraticThreshold (c : Ctx) (k : F3) (threshold : F) (curve : F3) : F3 :=
  let br := brightness (c.nth 2) k
  let scale := thresholdScale (c.nth 1) br threshold curve
  ⟨thresholdChannel (c.nth 3) k.r br scale threshold curve, thresholdChannel (c.nth 4) k.g br scale threshold curve,
   thresholdChannel (c.nth 5) k.b br scale threshold curve⟩

/-- `Prefilter` (R91): each channel at most 20, then the curve. -/
def prefilter (c : Ctx) (k : F3) (tc0 tc1 tc2 tc3 : F) : F3 :=
  quadraticThreshold (c.nth 0)
    ⟨fmin (c.nth 1) k.r cClampMax, fmin (c.nth 2) k.g cClampMax, fmin (c.nth 3) k.b cClampMax⟩
    tc0 ⟨tc1, tc2, tc3⟩

/-! ### Combine (45_combine.md) -/

/-- `c·(existing - new) + new`, one channel (R105). -/
def combineChannel (c : Ctx) (e n k : F) : F :=
  evaluated (c.nth 3) .combine [e, n, k] (numAdd (c.nth 0) (numMul (c.nth 1) k (numSub (c.nth 2) e n)) n)

/-- `combine(existing, new, c)` (R105). -/
def combine (c : Ctx) (e n : F3) (k : F) : F3 :=
  ⟨combineChannel (c.nth 0) e.r n.r k, combineChannel (c.nth 1) e.g n.g k, combineChannel (c.nth 2) e.b n.b k⟩

/-! ### GT tonemap (46_tonemap.md R109–R113) -/

/-- Where the derived constants are computed: one place for every invocation (R110, assumption 24). -/
def gtConst (p : Params) : Ctx := ⟨p, ⟨0, 0, 0, [2]⟩⟩

/-- `S0 = m + l0` (R110). -/
def gtS0 (p : Params) : F := numAdd ((gtConst p).nth 0) gtM p.gtL0

/-- `S1 = m + (a × l0)` (R110). -/
def gtS1 (p : Params) : F :=
  evaluated ((gtConst p).nth 8) .gtS1 [p.gtL0] (numAdd ((gtConst p).nth 1) gtM (numMul ((gtConst p).nth 2) gtA p.gtL0))

/-- `P - S1` (R110). -/
def gtPS1 (p : Params) : F := numSub ((gtConst p).nth 3) gtP (gtS1 p)

/-- `C2 = (a × P) / (P - S1)` (R110). -/
def gtC2 (p : Params) : F :=
  evaluated ((gtConst p).nth 9) .gtC2 [gtS1 p] (numDiv ((gtConst p).nth 4) (numMul ((gtConst p).nth 5) gtA gtP) (gtPS1 p))

/-- `CP = (-C2) / P` (R110). -/
def gtCP (p : Params) : F := numDiv ((gtConst p).nth 6) (numNeg ((gtConst p).nth 7) (gtC2 p)) gtP

/-- The toe weight `w0` (R111). -/
def gtW0 (c : Ctx) (x : F) : F := numSub (c.nth 0) fOne (fSmoothstep (c.nth 1) 0#32 gtM x)

/-- The shoulder weight `w2` (R111). -/
def gtW2 (c : Ctx) (x : F) : F := fStep (c.nth 2) (gtS0 c.cfg) x

/-- The linear weight `w1` (R111). -/
def gtW1 (c : Ctx) (x : F) : F :=
  numSub (c.nth 3) (numSub (c.nth 4) fOne (gtW0 c x)) (gtW2 c x)

/-- The toe piece (R112). -/
def gtToe (c : Ctx) (x : F) : F :=
  numAdd (c.nth 5) (numMul (c.nth 6) gtM (numPow (c.nth 7) (numDiv (c.nth 8) x gtM) gtC)) gtB

/-- The shoulder piece (R112). -/
def gtShoulder (c : Ctx) (x : F) : F :=
  numSub (c.nth 9) gtP
    (numMul (c.nth 10) (gtPS1 c.cfg)
      (numExp (c.nth 11) (numMul (c.nth 12) (gtCP c.cfg) (numSub (c.nth 13) x (gtS0 c.cfg)))))

/-- The linear piece (R112). -/
def gtLinear (c : Ctx) (x : F) : F :=
  numAdd (c.nth 14) gtM (numMul (c.nth 15) gtA (numSub (c.nth 16) x gtM))

/-- `GT(x)` (R113). -/
def gtTonemap (c : Ctx) (x : F) : F :=
  evaluated (c.nth 22) .gt [x, c.cfg.gtL0]
    (numAdd (c.nth 17)
      (numAdd (c.nth 18)
        (numMul (c.nth 19) (gtToe c x) (gtW0 c x))
        (numMul (c.nth 20) (gtLinear c x) (gtW1 c x)))
      (numMul (c.nth 21) (gtShoulder c x) (gtW2 c x)))

/-! ### ACES, gamma, selection (46_tonemap.md R115–R117) -/

/-- `ACES(x)` (R115). -/
def acesTonemap (c : Ctx) (x : F) : F :=
  let num := numMul (c.nth 0) x (numAdd (c.nth 1) (numMul (c.nth 2) acesA x) acesB)
  let den := numAdd (c.nth 3) (numMul (c.nth 4) x (numAdd (c.nth 5) (numMul (c.nth 6) acesC x) acesD)) acesE
  evaluated (c.nth 9) .aces [x] (fClamp (c.nth 7) (numDiv (c.nth 8) num den) 0#32 fOne)

/-- `Gamma(x)` (R116). -/
def gammaCorrect (c : Ctx) (x : F) : F := evaluated (c.nth 0) .gamma [x] (numPow (c.nth 1) x gammaExp)

/-- `TM`, the selected tonemap (R117). -/
def tonemap (c : Ctx) (x : F) : F :=
  match c.cfg.tonemapSel with
  | .gt => gtTonemap c x
  | .aces => acesTonemap c x

/-- `Gamma(TM(x))` of each channel (R117). -/
def display (c : Ctx) (k : F3) : F3 :=
  ⟨gammaCorrect (c.nth 0) (tonemap (c.nth 1) k.r),
   gammaCorrect (c.nth 2) (tonemap (c.nth 3) k.g),
   gammaCorrect (c.nth 4) (tonemap (c.nth 5) k.b)⟩

end Sys2Proof.Machine
end

