-- ==== Sys2Proof/Machine/State.lean ====
section
/-! DEFINITION. The architectural state (10_state.md, 20_memory.md R31, 60_exceptions.md R133), the reasons a step can stop, and the state at reset. -/

namespace Sys2Proof.Machine

/-- The reasons a step could stop the machine with a fault. There is none: every fault of 60_exceptions.md R133 ends the dispatch and is recorded in STATUS, which is a next state (R134, assumption 3). -/
inductive Fault where
deriving DecidableEq, Repr

/-- The reasons a step has no meaning. -/
inductive Refusal where
  /-- Raised by an arm of `exec` whose instruction has no meaning yet; none is left. Safe. -/
  | notModelled (mnemonic : String)
  /-- A host action presented while STATUS is BUSY: raised by the host port and by every dispatch (70_reset_and_hazards.md R167). Safe: the model gives such a host program no meaning. -/
  | whileBusy
  /-- A host action presented after STATUS is FAULT: raised by the host port and by every dispatch (60_exceptions.md R134, 70_reset_and_hazards.md R167). Safe, as above. -/
  | afterFault
deriving DecidableEq, Repr

/-- One level of one image (20_memory.md R31). -/
structure LevelRef where
  image : Nat
  level : Nat
deriving DecidableEq, Repr

/-- A texel's address (20_memory.md R33). -/
structure TexelAddr where
  image : Nat
  level : Nat
  x     : Nat
  y     : Nat
deriving DecidableEq, Repr

/-- The level a texel lies in. -/
def TexelAddr.ref (a : TexelAddr) : LevelRef := ⟨a.image, a.level⟩

/-- An image: its level count and the size of level 0; the other levels halve by floor (20_memory.md R31, R32). R31 bounds neither, and 47_modes.md R123 says that no image has 129 levels: that the model bounds neither is its choice (assumption 29). -/
structure Image where
  width  : Nat
  height : Nat
  levels : Nat
deriving DecidableEq, Repr

/-- The texels that are written, with their values: one entry per written texel, addresses rising (20_memory.md R31, assumption 18). -/
abbrev Memory := List (TexelAddr × F4)

/-- The binding table an index names (60_exceptions.md R136). -/
inductive BindTable where
  | input
  | bloom
  | output
deriving DecidableEq, Repr

/-- The role in which a level was absent (60_exceptions.md R137). -/
inductive LevelRole where
  | out
  | read
deriving DecidableEq, Repr

/-- A fault with the information recorded for it (60_exceptions.md R133). -/
inductive FaultRecord where
  /-- 1 `F_RESERVED_MODE` (R135). -/
  | reservedMode (mode : Nat)
  /-- 2 `F_BAD_INDEX` (R136). -/
  | badIndex (table : BindTable) (index : Nat)
  /-- 3 `F_BAD_LEVEL` (R137). -/
  | badLevel (role : LevelRole) (image level : Nat)
  /-- 4 `F_ALIAS` (R138). -/
  | aliased (image level : Nat)
  /-- 5 `F_UNINIT_PARAM` (R139). -/
  | uninitParam (register : Nat)
  /-- 6 `F_UNWRITTEN_READ` (R140). -/
  | unwrittenRead (texel : TexelAddr)
  /-- 7 `F_OOB_WRITE` (R141). -/
  | oobWrite (x y : Nat)
deriving DecidableEq, Repr

/-- The fault's code number (60_exceptions.md R133). -/
def FaultRecord.code : FaultRecord → Nat
  | .reservedMode _ => 1
  | .badIndex _ _ => 2
  | .badLevel _ _ _ => 3
  | .aliased _ _ => 4
  | .uninitParam _ => 5
  | .unwrittenRead _ => 6
  | .oobWrite _ _ => 7

/-- `STATUS` (10_state.md R25). -/
inductive Status where
  | idle
  | busy
  | done
  | fault (record : FaultRecord)
deriving DecidableEq, Repr

/-- The control registers other than `DESC`: `none` while the written bit is clear (10_state.md R17, R22, R157). -/
structure ParamRegs where
  tc0       : Option F
  tc1       : Option F
  tc2       : Option F
  tc3       : Option F
  intensity : Option F
  combineC  : Option F
deriving DecidableEq, Repr

/-- The state of the block, the host program still to be performed, the open parameters and the draw counter. -/
structure State where
  /-- The open parameters; no step changes them (00_scope.md R7, assumption 8). MODEL's own field. -/
  cfg     : Params
  /-- `TC0` to `COMBINE_C` (10_state.md R17). -/
  regs    : ParamRegs
  /-- `DESC` (10_state.md R18). -/
  desc    : Option Word
  /-- `GX` of the dispatch (10_state.md R24). -/
  gridX   : Nat
  /-- `GY` of the dispatch (10_state.md R24). -/
  gridY   : Nat
  /-- `IN_BIND` (10_state.md R23). -/
  inBind  : Vector (Option Nat) numIn
  /-- `BL_BIND` (10_state.md R23). -/
  blBind  : Vector (Option Nat) numBloom
  /-- `OUT_BIND` (10_state.md R23). -/
  outBind : Vector (Option LevelRef) numOut
  /-- `STATUS`, with the fault record (10_state.md R25, 60_exceptions.md R134). -/
  status  : Status
  /-- The dispatch index `k` (10_state.md R15). -/
  k       : Nat
  /-- The images the host allocated, by number (20_memory.md R31). -/
  images  : List Image
  /-- The written texels (20_memory.md R31). -/
  texels  : Memory
  /-- The host actions still to be performed (00_scope.md R12, assumption 1). MODEL's own field. -/
  program : List HostAction
  /-- The number of the next dispatch's draws (assumption 9). MODEL's own field. -/
  draws   : Nat
deriving DecidableEq, Repr

/-- The fault record (10_state.md R29, R30): empty unless STATUS is FAULT. -/
def State.faultRecord (s : State) : Option FaultRecord :=
  match s.status with
  | .fault f => some f
  | .idle => none
  | .busy => none
  | .done => none

/-- The initial state for the images the host allocated and the texels its launch premise lists as written (10_state.md R29, 70_reset_and_hazards.md R156–R162). -/
def State.initial (images : List Image) (texels : Memory) : State where
  cfg     := Params.reference
  regs    := ⟨none, none, none, none, none, none⟩
  desc    := none
  gridX   := 0
  gridY   := 0
  inBind  := Vector.replicate numIn none
  blBind  := Vector.replicate numBloom none
  outBind := Vector.replicate numOut none
  status  := .idle
  k       := 0
  images  := images
  texels  := texels
  program := []
  draws   := 0

/-- The machine right after reset, with no image allocated (10_state.md R29, assumption 6). -/
def State.reset : State := State.initial [] []

end Sys2Proof.Machine
end

