-- ==== Sys2Proof/Machine/Ops.lean ====
section
/-! DEFINITION. The named operations over registers, image memory and STATUS: written bits, TexSize and OutSize, Sample, ImageStore, starting and ending a dispatch, raising a fault (10_state.md R22, 20_memory.md R31–R43, 60_exceptions.md R134). -/

namespace Sys2Proof.Machine

/-! ### Control registers (10_state.md R17, R22) -/

/-- The register's number (10_state.md R17). -/
def regNumber : ParamReg → Nat
  | .tc0 => 0
  | .tc1 => 1
  | .tc2 => 2
  | .tc3 => 3
  | .intensity => 4
  | .combineC => 5

/-- What a register holds, `none` while it is unwritten (10_state.md R22). -/
def readReg (g : ParamRegs) : ParamReg → Option F
  | .tc0 => g.tc0
  | .tc1 => g.tc1
  | .tc2 => g.tc2
  | .tc3 => g.tc3
  | .intensity => g.intensity
  | .combineC => g.combineC

/-- A host write of a register: its value and its written bit (10_state.md R22). -/
def writeReg (g : ParamRegs) (r : ParamReg) (v : F) : ParamRegs :=
  match r with
  | .tc0 => { g with tc0 := some v }
  | .tc1 => { g with tc1 := some v }
  | .tc2 => { g with tc2 := some v }
  | .tc3 => { g with tc3 := some v }
  | .intensity => { g with intensity := some v }
  | .combineC => { g with combineC := some v }

/-- The register's value as a mode reads it; a dispatch that reads an unwritten one has faulted before (60_exceptions.md R139). -/
def regValue (g : ParamRegs) (r : ParamReg) : F :=
  (readReg g r).getD (Config.unwrittenReg (regNumber r))

/-! ### Image memory (20_memory.md R31) -/

/-- The order of texel addresses in the memory's list. -/
def TexelAddr.before (a b : TexelAddr) : Bool :=
  decide (a.image < b.image ∨ (a.image = b.image ∧
    (a.level < b.level ∨ (a.level = b.level ∧
      (a.x < b.x ∨ (a.x = b.x ∧ a.y < b.y))))))

/-- The memory's canonical form: addresses strictly rising. -/
def Memory.wf : Memory → Bool
  | [] => true
  | [_] => true
  | (a, _) :: (b, w) :: m => a.before b && Memory.wf ((b, w) :: m)

/-- The texel at an address, `none` where it is unwritten. -/
def memRead : Memory → TexelAddr → Option F4
  | [], _ => none
  | (b, v) :: m, a => if a = b then some v else memRead m a

/-- Sets a texel and its written bit. -/
def memWrite : Memory → TexelAddr → F4 → Memory
  | [], a, v => [(a, v)]
  | (b, w) :: m, a, v =>
    if a = b then (a, v) :: m
    else if a.before b then (a, v) :: (b, w) :: m
    else (b, w) :: memWrite m a v

/-- Clears a texel's written bit; used only where the spec leaves written bits open (60_exceptions.md R134). -/
def memErase : Memory → TexelAddr → Memory
  | [], _ => []
  | (b, w) :: m, a => if a = b then m else (b, w) :: memErase m a

/-- The texel's value as a sample reads it; a sample of an unwritten one faults (20_memory.md R40). -/
def memTexel (m : Memory) (a : TexelAddr) : F4 :=
  (memRead m a).getD (Config.unwrittenTexel a.image a.level a.x a.y)

/-! ### Level sizes (20_memory.md R32, R36, R37) -/

/-- `(w(t,l), h(t,l))`, halved by floor from level 0 (20_memory.md R32); (0, 0) where the image has no such level. -/
def levelSize (images : List Image) (r : LevelRef) : Nat × Nat :=
  match images[r.image]? with
  | none => (0, 0)
  | some im => if r.level < im.levels then (im.width / 2 ^ r.level, im.height / 2 ^ r.level) else (0, 0)

/-- `TexSize` and `OutSize`: absent where the level does not exist or has a zero dimension (20_memory.md R36, R37). -/
def texSize (images : List Image) (r : LevelRef) : Option (Nat × Nat) :=
  if (levelSize images r).1 = 0 ∨ (levelSize images r).2 = 0 then none else some (levelSize images r)

/-! ### Sample (20_memory.md R38) -/

/-- A sample an invocation makes: a level and normalised coordinates. -/
structure SampleReq where
  ref : LevelRef
  u   : F
  v   : F
deriving DecidableEq, Repr

/-- A texel index kept inside a row or column of `n` texels: clamp to edge (20_memory.md R38). -/
def clampIndex (i : Int) (n : Nat) : Nat := min i.toNat (n - 1)

/-- `exact(u*w - 0.5)` in units of 2^-149 (20_memory.md R38). -/
def samplePos (u : F) (w : Nat) : Int := fVal u * w - (2 ^ 148 : Nat)

/-- The lower texel index before clamping, `floor` of the position. -/
def sampleBase (u : F) (w : Nat) : Int := samplePos u w / (2 ^ 149 : Nat)

/-- The fraction of the position, in units of 2^-149. -/
def sampleFrac (u : F) (w : Nat) : Nat := (samplePos u w % (2 ^ 149 : Nat)).toNat

/-- The texel of the tap `dx` columns and `dy` rows from the lower one, clamped to the level (20_memory.md R38). -/
def sampleTap (images : List Image) (q : SampleReq) (dx dy : Nat) : TexelAddr where
  image := q.ref.image
  level := q.ref.level
  x := clampIndex (sampleBase q.u (levelSize images q.ref).1 + dx) (levelSize images q.ref).1
  y := clampIndex (sampleBase q.v (levelSize images q.ref).2 + dy) (levelSize images q.ref).2

/-- The four taps' texels, in the order of 20_memory.md R38. -/
def sampleTaps (images : List Image) (q : SampleReq) : List TexelAddr :=
  [sampleTap images q 0 0, sampleTap images q 1 0, sampleTap images q 0 1, sampleTap images q 1 1]

/-- The footprint: the four taps' texels whatever their weights, none at a non-finite coordinate (20_memory.md R38, assumption 23). -/
def footprint (images : List Image) (q : SampleReq) : List TexelAddr :=
  if fFinite q.u && fFinite q.v then sampleTaps images q else []

/-- The footprint texels that are unwritten (20_memory.md R40). -/
def unwrittenIn (images : List Image) (m : Memory) (q : SampleReq) : List TexelAddr :=
  (footprint images q).filter fun a => (memRead m a).isNone

/-- One value for each of the four taps, in their order. -/
structure TapQuad where
  t00 : F
  t10 : F
  t01 : F
  t11 : F
deriving DecidableEq, Repr

/-- The four weights, exact reals rounded once (20_memory.md R38, R41). -/
def sampleWeights (c : Ctx) (w h : Nat) (q : SampleReq) : TapQuad :=
  let a := subtexel c.cfg (sampleFrac q.u w)
  let b := subtexel c.cfg (sampleFrac q.v h)
  { t00 := roundF (c.nth 0) ((2 ^ 149 - a) * (2 ^ 149 - b)) (2 ^ 149)
    t10 := roundF (c.nth 1) (a * (2 ^ 149 - b)) (2 ^ 149)
    t01 := roundF (c.nth 2) ((2 ^ 149 - a) * b) (2 ^ 149)
    t11 := roundF (c.nth 3) (a * b) (2 ^ 149) }

/-- The weighted sum of one channel's four texels (20_memory.md R38). -/
def sampleBlend (c : Ctx) (w t : TapQuad) : F :=
  numAdd (c.nth 0)
    (numAdd (c.nth 1) (numMul (c.nth 2) w.t00 t.t00) (numMul (c.nth 3) w.t10 t.t10))
    (numAdd (c.nth 4) (numMul (c.nth 5) w.t01 t.t01) (numMul (c.nth 6) w.t11 t.t11))

/-- That sum in the order of 20_memory.md R38, or in another internal order of the sampler, from the fractions `a` and `b` (R41). -/
def sampleSum (c : Ctx) (a b : Nat) (w t : TapQuad) : F :=
  match c.cfg.num with
  | .reference => sampleBlend (c.nth 0) w t
  | .other _ => sampleBlend (c.nth 0) w t
  | .reordered k =>
    reorderedValue (c.nth 1) [t.t00, t.t10, t.t01, t.t11] (Config.sampleOrder k a b [t.t00, t.t10, t.t01, t.t11])

/-- One channel of the four taps' texels. -/
def tapChannel (images : List Image) (m : Memory) (q : SampleReq) (ch : F4 → F) : TapQuad :=
  ⟨ch (memTexel m (sampleTap images q 0 0)), ch (memTexel m (sampleTap images q 1 0)),
   ch (memTexel m (sampleTap images q 0 1)), ch (memTexel m (sampleTap images q 1 1))⟩

/-- One channel of `Sample` once its footprint is written; any value at a non-finite coordinate (20_memory.md R38). -/
def sampleChannel (c : Ctx) (images : List Image) (m : Memory) (q : SampleReq) (ch : F4 → F) : F :=
  if fFinite q.u && fFinite q.v then
    sampleSum (c.nth 0) (subtexel c.cfg (sampleFrac q.u (levelSize images q.ref).1))
      (subtexel c.cfg (sampleFrac q.v (levelSize images q.ref).2))
      (sampleWeights (c.nth 1) (levelSize images q.ref).1 (levelSize images q.ref).2 q)
      (tapChannel images m q ch)
  else c.draw

/-- `Sample` once its footprint is written (20_memory.md R38). -/
def sampleTexel (c : Ctx) (images : List Image) (m : Memory) (q : SampleReq) : F4 :=
  ⟨sampleChannel (c.nth 0) images m q F4.r, sampleChannel (c.nth 1) images m q F4.g,
   sampleChannel (c.nth 2) images m q F4.b, sampleChannel (c.nth 3) images m q F4.a⟩

/-! ### ImageStore (20_memory.md R42, R43) -/

/-- The texel address a store at `(x, y)` of the target goes to. -/
def storeAddr (target : LevelRef) (x y : Nat) : TexelAddr := ⟨target.image, target.level, x, y⟩

/-- The texel value stored for a colour: its channels and `ALPHA_OUT`, converted to the image format (20_memory.md R42, R43). -/
def storedTexel (p : Params) (c : F3) : F4 :=
  ⟨storeConv p c.r, storeConv p c.g, storeConv p c.b, storeConv p p.alphaOut⟩

/-! ### Dispatch status and faults (10_state.md R25, 60_exceptions.md R134) -/

/-- Why a host action is refused: STATUS admits one in IDLE and DONE only (10_state.md R25, 70_reset_and_hazards.md R167). -/
def refusesIn : Status → Option Refusal
  | .idle => none
  | .done => none
  | .busy => some .whileBusy
  | .fault _ => some .afterFault

/-- The start of a dispatch: STATUS is BUSY and the descriptor is in DESC (47_modes.md R118). -/
def startDispatch (w : Word) (s : State) : State := { s with status := .busy, desc := some w }

/-- The end of a dispatch none of whose invocations faulted: the stores are in memory, STATUS is DONE, `k` advances by one (47_modes.md R118, 10_state.md R15). -/
def finishDispatch (m : Memory) (s : State) : State :=
  { s with texels := m, status := .done, k := s.k + 1, draws := s.draws + 1 }

/-- `raise Fault(code, info)`: STATUS becomes FAULT with the record, and nothing else changes (60_exceptions.md R134). There is no handler, saved state or return (R144, R145). -/
def raiseFault (f : FaultRecord) (s : State) : State := { s with status := .fault f }

/-- One of several, by a drawn number (60_exceptions.md R140, R143). -/
def chooseOne {α : Type} (n : Nat) (a : α) (rest : List α) : α :=
  match n % (rest.length + 1) with
  | 0 => a
  | i + 1 => rest.getD i a

/-- The positions of a `gx` by `gy` grid, row by row (41_decoder.md R84). -/
def gridPoints (gx gy : Nat) : List (Nat × Nat) :=
  (List.range gy).flatMap fun y => (List.range gx).map fun x => (x, y)

/-- A texel of the target level after an invocation fault: any value with any written bit (60_exceptions.md R134). -/
def drawTexel (p : Params) (epoch : Nat) (target : LevelRef) (m : Memory) (q : Nat × Nat) : Memory :=
  let c : Ctx := ⟨p, ⟨epoch, q.1, q.2, [1]⟩⟩
  if Config.drawBit c.site then
    memWrite m (storeAddr target q.1 q.2) ⟨(c.nth 0).draw, (c.nth 1).draw, (c.nth 2).draw, (c.nth 3).draw⟩
  else memErase m (storeAddr target q.1 q.2)

/-- Memory after an invocation fault: every texel of the target level is a draw (60_exceptions.md R134). -/
def drawLevel (s : State) (target : LevelRef) : Memory :=
  (gridPoints (levelSize s.images target).1 (levelSize s.images target).2).foldl
    (drawTexel s.cfg s.draws target) s.texels

/-- `raise Fault` by an invocation: the target level becomes a draw, then as any fault (60_exceptions.md R134). -/
def raiseInvocationFault (f : FaultRecord) (target : LevelRef) (s : State) : State :=
  raiseFault f { s with texels := drawLevel s target, draws := s.draws + 1 }

end Sys2Proof.Machine
end

