-- ==== Sys2Proof/Machine/Filters.lean ====
section
/-! DEFINITION. The two filters, which read images through `Sample` only: the 13-tap box (43_box_downsample.md R96, R97) and the 9-tap tent (44_tent_upsample.md R101, R102). -/

namespace Sys2Proof.Machine

/-- `(F(w), F(h))` of a level. -/
def levelExtent (c : Ctx) (images : List Image) (r : LevelRef) : F × F :=
  (natToF (c.nth 1) (levelSize images r).1, natToF (c.nth 3) (levelSize images r).2)

/-- `(1/w, 1/h)` of a level: the texel size that scales a filter's offsets (43_box_downsample.md R96, 44_tent_upsample.md R101). -/
def texelStep (c : Ctx) (images : List Image) (r : LevelRef) : F × F :=
  (numDiv (c.nth 0) fOne (levelExtent c images r).1, numDiv (c.nth 2) fOne (levelExtent c images r).2)

/-- One coordinate of a tap: `u + step × o`, for a step that its rule computes from `operands`. -/
def tapCoordinate (c : Ctx) (e : RuleExpr) (operands : List F) (u step o : F) : F :=
  evaluated (c.nth 0) e (u :: o :: operands) (numAdd (c.nth 1) u (numMul (c.nth 2) step o))

/-- The sample at `uv` moved by `step` times the offset `(ox, oy)`; the step of each axis comes from its `operands`. -/
def offsetSample (c : Ctx) (e : RuleExpr) (operands : List F × List F) (r : LevelRef) (uv step : F × F) (ox oy : F) :
    SampleReq where
  ref := r
  u := tapCoordinate (c.nth 0) e operands.1 uv.1 step.1 ox
  v := tapCoordinate (c.nth 1) e operands.2 uv.2 step.2 oy

/-! ### Box (43_box_downsample.md) -/

/-- The taps of the box filter, named as in 43_box_downsample.md R96. -/
inductive BoxTap where
  | A | B | C | D | E | F | G | H | I | J | K | L | M
deriving DecidableEq, Repr

/-- All thirteen taps. -/
def boxTaps : List BoxTap := [.A, .B, .C, .D, .E, .F, .G, .H, .I, .J, .K, .L, .M]

/-- -1.0, -0.5, 0.0, +0.5, +1.0. -/
def offM1 : F := 0xBF800000#32
/-- -0.5. -/
def offMH : F := 0xBF000000#32
/-- 0.0. -/
def off0 : F := 0x00000000#32
/-- +0.5. -/
def offPH : F := 0x3F000000#32
/-- +1.0. -/
def offP1 : F := 0x3F800000#32

/-- A tap's offset in texels of the sampled level (43_box_downsample.md R96). -/
def boxOffset : BoxTap → F × F
  | .A => (off0, off0)
  | .B => (offMH, offMH)
  | .C => (offPH, offMH)
  | .D => (offMH, offPH)
  | .E => (offPH, offPH)
  | .F => (offM1, offM1)
  | .G => (off0, offM1)
  | .H => (offP1, offM1)
  | .I => (offM1, off0)
  | .J => (offP1, off0)
  | .K => (offM1, offP1)
  | .L => (off0, offP1)
  | .M => (offP1, offP1)

/-- A number for each tap, to keep their draws apart. -/
def boxPlace : BoxTap → Nat
  | .A => 0
  | .B => 1
  | .C => 2
  | .D => 3
  | .E => 4
  | .F => 5
  | .G => 6
  | .H => 7
  | .I => 8
  | .J => 9
  | .K => 10
  | .L => 11
  | .M => 12

/-- The sample of a box tap; the centre is sampled at `uv` itself (43_box_downsample.md R96). -/
def boxSample (c : Ctx) (images : List Image) (r : LevelRef) (uv : F × F) (t : BoxTap) : SampleReq :=
  if t = .A then ⟨r, uv.1, uv.2⟩
  else
    let extent := levelExtent (c.nth 1) images r
    offsetSample ((c.nth 0).nth (boxPlace t)) .boxCoordinate ([extent.1], [extent.2]) r uv
      (texelStep (c.nth 1) images r) (boxOffset t).1 (boxOffset t).2

/-- The weighted sum of the thirteen taps, one channel, in the order of 43_box_downsample.md R97. -/
def boxSum (c : Ctx) (t : BoxTap → F) : F :=
  let ri := numMul (c.nth 0) (numAdd (c.nth 1) (numAdd (c.nth 2) (numAdd (c.nth 3) (t .B) (t .C)) (t .D)) (t .E)) 0x3F000000#32
  let rtl := numMul (c.nth 4) (numAdd (c.nth 5) (numAdd (c.nth 6) (numAdd (c.nth 7) (t .F) (t .G)) (t .I)) (t .A)) 0x3E000000#32
  let rtr := numMul (c.nth 8) (numAdd (c.nth 9) (numAdd (c.nth 10) (numAdd (c.nth 11) (t .G) (t .H)) (t .J)) (t .A)) 0x3E000000#32
  let rbl := numMul (c.nth 12) (numAdd (c.nth 13) (numAdd (c.nth 14) (numAdd (c.nth 15) (t .I) (t .K)) (t .L)) (t .A)) 0x3E000000#32
  let rbr := numMul (c.nth 16) (numAdd (c.nth 17) (numAdd (c.nth 18) (numAdd (c.nth 19) (t .J) (t .L)) (t .M)) (t .A)) 0x3E000000#32
  evaluated (c.nth 25) .boxSum (boxTaps.map t)
    (numMul (c.nth 20)
      (numAdd (c.nth 21) (numAdd (c.nth 22) (numAdd (c.nth 23) (numAdd (c.nth 24) ri rtl) rtr) rbl) rbr)
      0x3E800000#32)

/-- Every sample `BoxDownsample13` makes. -/
def boxSamples (c : Ctx) (images : List Image) (r : LevelRef) (uv : F × F) : List SampleReq :=
  boxTaps.map (boxSample c images r uv)

/-- The value of a box tap. -/
def boxValue (c : Ctx) (images : List Image) (m : Memory) (r : LevelRef) (uv : F × F) (t : BoxTap) : F4 :=
  sampleTexel ((c.nth 2).nth (boxPlace t)) images m (boxSample c images r uv t)

/-- `BoxDownsample13` once its samples are written (43_box_downsample.md R97). -/
def boxDownsample13 (c : Ctx) (images : List Image) (m : Memory) (r : LevelRef) (uv : F × F) : F3 :=
  ⟨boxSum (c.nth 3) fun t => (boxValue c images m r uv t).r,
   boxSum (c.nth 4) fun t => (boxValue c images m r uv t).g,
   boxSum (c.nth 5) fun t => (boxValue c images m r uv t).b⟩

/-! ### Tent (44_tent_upsample.md) -/

/-- An offset of a tent tap along one axis: -1, 0 or 1. -/
inductive TentOff where
  | neg
  | zero
  | pos
deriving DecidableEq, Repr

/-- The offset as an `F`. -/
def tentOffset : TentOff → F
  | .neg => offM1
  | .zero => off0
  | .pos => offP1

/-- A number for each offset, to keep the taps' draws apart. -/
def tentPlace : TentOff → Nat
  | .neg => 0
  | .zero => 1
  | .pos => 2

/-- The nine taps `(dx, dy)`, row by row from the top. -/
def tentTaps : List (TentOff × TentOff) :=
  [(.neg, .neg), (.zero, .neg), (.pos, .neg),
   (.neg, .zero), (.zero, .zero), (.pos, .zero),
   (.neg, .pos), (.zero, .pos), (.pos, .pos)]

/-- The tap spacing: the texel size times `TENT_RADIUS` (44_tent_upsample.md R101). -/
def tentStep (c : Ctx) (images : List Image) (r : LevelRef) : F × F :=
  let ts := texelStep (c.nth 0) images r
  (numMul (c.nth 1) ts.1 c.cfg.tentRadius, numMul (c.nth 2) ts.2 c.cfg.tentRadius)

/-- The sample of a tent tap; the centre is sampled at `uv` itself (44_tent_upsample.md R101). -/
def tentSample (c : Ctx) (images : List Image) (r : LevelRef) (uv : F × F) (dx dy : TentOff) : SampleReq :=
  if dx = .zero ∧ dy = .zero then ⟨r, uv.1, uv.2⟩
  else
    let extent := levelExtent ((c.nth 1).nth 0) images r
    offsetSample (((c.nth 0).nth (tentPlace dx)).nth (tentPlace dy)) .tentCoordinate
      ([extent.1, c.cfg.tentRadius], [extent.2, c.cfg.tentRadius]) r uv
      (tentStep (c.nth 1) images r) (tentOffset dx) (tentOffset dy)

/-- The weighted sum of the nine taps, one channel, in the order of 44_tent_upsample.md R102. -/
def tentSum (c : Ctx) (t : TentOff → TentOff → F) : F :=
  let s := t .neg .neg
  let s := numAdd (c.nth 0) s (numMul (c.nth 1) (t .zero .neg) 0x40000000#32)
  let s := numAdd (c.nth 2) s (t .pos .neg)
  let s := numAdd (c.nth 3) s (numMul (c.nth 4) (t .neg .zero) 0x40000000#32)
  let s := numAdd (c.nth 5) s (numMul (c.nth 6) (t .zero .zero) 0x40800000#32)
  let s := numAdd (c.nth 7) s (numMul (c.nth 8) (t .pos .zero) 0x40000000#32)
  let s := numAdd (c.nth 9) s (t .neg .pos)
  let s := numAdd (c.nth 10) s (numMul (c.nth 11) (t .zero .pos) 0x40000000#32)
  let s := numAdd (c.nth 12) s (t .pos .pos)
  evaluated (c.nth 14) .tentSum (tentTaps.map fun d => t d.1 d.2) (numMul (c.nth 13) s 0x3D800000#32)

/-- Every sample `TentUpsample9` makes. -/
def tentSamples (c : Ctx) (images : List Image) (r : LevelRef) (uv : F × F) : List SampleReq :=
  tentTaps.map fun d => tentSample c images r uv d.1 d.2

/-- The value of a tent tap. -/
def tentValue (c : Ctx) (images : List Image) (m : Memory) (r : LevelRef) (uv : F × F) (dx dy : TentOff) : F4 :=
  sampleTexel (((c.nth 2).nth (tentPlace dx)).nth (tentPlace dy)) images m (tentSample c images r uv dx dy)

/-- `TentUpsample9` once its samples are written (44_tent_upsample.md R102). -/
def tentUpsample9 (c : Ctx) (images : List Image) (m : Memory) (r : LevelRef) (uv : F × F) : F3 :=
  ⟨tentSum (c.nth 3) fun dx dy => (tentValue c images m r uv dx dy).r,
   tentSum (c.nth 4) fun dx dy => (tentValue c images m r uv dx dy).g,
   tentSum (c.nth 5) fun dx dy => (tentValue c images m r uv dx dy).b⟩

end Sys2Proof.Machine
end

