-- ==== Sys2Proof/Machine/Operands.lean ====
section
/-! DEFINITION. The operand forms of a descriptor: the three slot indices resolved through their tables, and the checks of a dispatch on levels, aliasing and registers (20_memory.md R34, 60_exceptions.md R136–R139, R142). -/

namespace Sys2Proof.Machine

/-- `IN_BIND[index]`, or `F_BAD_INDEX` (60_exceptions.md R136). -/
def inputSlot (s : State) (index : Nat) : Except FaultRecord Nat :=
  match s.inBind[index]? with
  | some (some t) => .ok t
  | _ => .error (.badIndex .input index)

/-- `BL_BIND[index]`, or `F_BAD_INDEX` (60_exceptions.md R136). -/
def bloomSlot (s : State) (index : Nat) : Except FaultRecord Nat :=
  match s.blBind[index]? with
  | some (some t) => .ok t
  | _ => .error (.badIndex .bloom index)

/-- `OUT_BIND[index]`, or `F_BAD_INDEX` (60_exceptions.md R136). -/
def outputSlot (s : State) (index : Nat) : Except FaultRecord LevelRef :=
  match s.outBind[index]? with
  | some (some t) => .ok t
  | _ => .error (.badIndex .output index)

/-- `F_BAD_LEVEL` where a level is absent (60_exceptions.md R137). -/
def checkLevel (images : List Image) (role : LevelRole) (r : LevelRef) : Option FaultRecord :=
  if (texSize images r).isSome then none else some (.badLevel role r.image r.level)

/-- `F_ALIAS` where the target is in the read set (60_exceptions.md R138). -/
def checkAlias (reads : List LevelRef) (target : LevelRef) : Option FaultRecord :=
  if target ∈ reads then some (.aliased target.image target.level) else none

/-- `F_UNINIT_PARAM` where a register is unwritten (60_exceptions.md R139). -/
def checkReg (g : ParamRegs) (r : ParamReg) : Option FaultRecord :=
  match readReg g r with
  | some _ => none
  | none => some (.uninitParam (regNumber r))

/-- The checks after the slots are resolved, in their order: the target level, the read set, aliasing, the registers; the first that fails (60_exceptions.md R142). -/
def preflight (s : State) (reads : List LevelRef) (regs : List ParamReg) (target : LevelRef) :
    Option FaultRecord :=
  match checkLevel s.images .out target with
  | some f => some f
  | none =>
    match reads.findSome? (checkLevel s.images .read) with
    | some f => some f
    | none =>
      match checkAlias reads target with
      | some f => some f
      | none => regs.findSome? (checkReg s.regs)

end Sys2Proof.Machine
end

