-- ==== Sys2Proof/Machine/Invocation.lean ====
section
/-! DEFINITION. The pixel harness (41_decoder.md R84–R89): the identity of an invocation, its sample position, its guard, its samples, its single store or its fault. -/

namespace Sys2Proof.Machine

/-- One invocation: the state its dispatch started from, the target level and its size, and its position (10_state.md R26). -/
structure Invocation where
  start  : State
  target : LevelRef
  width  : Nat
  height : Nat
  x      : Nat
  y      : Nat

/-- The invocation at a position of the grid; the level size is `OutSize` (41_decoder.md R89). -/
def invocationAt (s : State) (target : LevelRef) (q : Nat × Nat) : Invocation where
  start := s
  target := target
  width := (levelSize s.images target).1
  height := (levelSize s.images target).2
  x := q.1
  y := q.2

/-- The workgroup of an invocation; no rule reads it (10_state.md R26). -/
def Invocation.workgroup (e : Invocation) : Nat × Nat := (e.x / tileX, e.y / tileY)

/-- Its position within the workgroup; no rule reads it (10_state.md R26). -/
def Invocation.localPos (e : Invocation) : Nat × Nat := (e.x % tileX, e.y % tileY)

/-- Where the draws of an invocation are taken. -/
def Invocation.ctx (e : Invocation) : Ctx := ⟨e.start.cfg, ⟨e.start.draws, e.x, e.y, [0]⟩⟩

/-- The place of its sample position's computation. -/
def Invocation.posCtx (e : Invocation) : Ctx := e.ctx.nth 0

/-- The place of its mode body's computation. -/
def Invocation.bodyCtx (e : Invocation) : Ctx := e.ctx.nth 1

/-- One coordinate of the sample position: `(n + 0.5) / size` (41_decoder.md R85). -/
def centre (c : Ctx) (n size : Nat) : F :=
  evaluated (c.nth 4) .centre [natToF (c.nth 2) n, natToF (c.nth 3) size]
    (numDiv (c.nth 0) (numAdd (c.nth 1) (natToF (c.nth 2) n) 0x3F000000#32) (natToF (c.nth 3) size))

/-- The sample position: the output pixel's centre, normalised by the output size (41_decoder.md R85). -/
def Invocation.uv (e : Invocation) : F × F :=
  (centre (e.posCtx.nth 0) e.x e.width, centre (e.posCtx.nth 1) e.y e.height)

/-- What a mode does, once its slots are resolved: its read set, registers and target (47_modes.md R119), and for each invocation the samples it makes and the colour of its body (R120–R124). -/
structure Pass where
  reads   : List LevelRef
  regs    : List ParamReg
  target  : LevelRef
  samples : Invocation → List SampleReq
  color   : Invocation → F3

/-- What an invocation ends in (10_state.md R14). -/
inductive InvResult where
  | skipped
  | stores (v : F4)
  | faults (f : FaultRecord)
deriving DecidableEq, Repr

/-- The unwritten texels the invocation's samples reach (60_exceptions.md R140). -/
def Pass.unwritten (p : Pass) (e : Invocation) : List TexelAddr :=
  (p.samples e).flatMap (unwrittenIn e.start.images e.start.texels)

/-- `ImageStore`: inside the target level the texel is stored, outside it `F_OOB_WRITE` (20_memory.md R42). -/
def imageStore (e : Invocation) (k : F3) : InvResult :=
  if e.x < e.width ∧ e.y < e.height then .stores (storedTexel e.start.cfg k)
  else .faults (.oobWrite e.x e.y)

/-- The invocation in full (41_decoder.md R89): guard, samples, body, store. -/
def invoke (p : Pass) (e : Invocation) : InvResult :=
  if guardPasses e.start.cfg.guardMode e.width e.height e.x e.y then
    match p.unwritten e with
    | [] => imageStore e (p.color e)
    | a :: rest => .faults (.unwrittenRead (chooseOne (Config.choice e.ctx.site) a rest))
  else .skipped

/-- The fault of an invocation, if it raised one. -/
def InvResult.fault? : InvResult → Option FaultRecord
  | .faults f => some f
  | .stores _ => none
  | .skipped => none

/-- The effect of an invocation on memory (10_state.md R14). -/
def storeResult (target : LevelRef) (m : Memory) (q : (Nat × Nat) × InvResult) : Memory :=
  match q.2 with
  | .stores v => memWrite m (storeAddr target q.1.1 q.1.2) v
  | .skipped => m
  | .faults _ => m

/-- The results of every invocation of the grid, all from the state at the dispatch's start (20_memory.md R50). -/
def gridResults (p : Pass) (s : State) : List ((Nat × Nat) × InvResult) :=
  (gridPoints s.gridX s.gridY).map fun q => (q, invoke p (invocationAt s p.target q))

/-- The invocations of a dispatch as one step (20_memory.md R51): their stores, or one of their faults (60_exceptions.md R143). -/
def runGrid (p : Pass) (s : State) : State :=
  match (gridResults p s).filterMap fun q => q.2.fault? with
  | [] => finishDispatch ((gridResults p s).foldl (storeResult p.target) s.texels) s
  | f :: rest =>
    raiseInvocationFault (chooseOne (Config.choice ⟨s.draws, s.gridX, s.gridY, [3]⟩) f rest) p.target s

end Sys2Proof.Machine
end

