-- ==== Sys2Proof/Machine/Modes.lean ====
section
/-! DEFINITION. The dispatch sequence and the five modes (47_modes.md R118–R124). -/

namespace Sys2Proof.Machine

/-! ### The dispatch (47_modes.md R118) -/

/-- A dispatch whose slots are resolved and whose level, alias and register checks remain (47_modes.md R118). -/
def runPass (p : Pass) (s : State) : State :=
  match preflight s p.reads p.regs p.target with
  | some f => raiseFault f s
  | none => runGrid p s

/-- `Dispatch` for a mode that is not reserved: refused unless STATUS admits it; else DESC is loaded, the slots are resolved by `plan`, and the pass runs (47_modes.md R118). -/
def runDispatch (w : Word) (plan : State → Except FaultRecord Pass) (s : State) :
    Host.Outcome State Fault Refusal :=
  match refusesIn s.status with
  | some r => .refused r
  | none =>
    match plan (startDispatch w s) with
    | .error f => .next (raiseFault f (startDispatch w s))
    | .ok p => .next (runPass p (startDispatch w s))

/-- `Dispatch` of a reserved mode: `F_RESERVED_MODE` before any other check (47_modes.md R125). -/
def dispatchReserved (w : Word) (s : State) : Host.Outcome State Fault Refusal :=
  match refusesIn s.status with
  | some r => .refused r
  | none => .next (raiseFault (.reservedMode (decodeFields w).mode) (startDispatch w s))

/-! ### PREFILTER (47_modes.md R120) -/

/-- The body of PREFILTER. -/
def bodyPrefilter (src : LevelRef) (e : Invocation) : F3 :=
  prefilter (e.bodyCtx.nth 1)
    (boxDownsample13 (e.bodyCtx.nth 0) e.start.images e.start.texels src e.uv)
    (regValue e.start.regs .tc0) (regValue e.start.regs .tc1)
    (regValue e.start.regs .tc2) (regValue e.start.regs .tc3)

/-- PREFILTER of a source level into a target. -/
def passPrefilter (src target : LevelRef) : Pass where
  reads := [src]
  regs := [.tc0, .tc1, .tc2, .tc3]
  target := target
  samples := fun e => boxSamples (e.bodyCtx.nth 0) e.start.images src e.uv
  color := bodyPrefilter src

/-- PREFILTER's slots (30_encoding.md R61). -/
def planPrefilter (lod input output : Nat) (s : State) : Except FaultRecord Pass :=
  (inputSlot s input).bind fun src =>
    (outputSlot s output).bind fun target => .ok (passPrefilter ⟨src, lod⟩ target)

/-- PREFILTER (47_modes.md R120). -/
def execPrefilter (lod input output bloom : Nat) (s : State) : Host.Outcome State Fault Refusal :=
  runDispatch (encode (.prefilter lod input output bloom)) (planPrefilter lod input output) s

/-! ### DOWNSAMPLE (47_modes.md R121) -/

/-- The body of DOWNSAMPLE. -/
def bodyDownsample (src : LevelRef) (e : Invocation) : F3 :=
  boxDownsample13 (e.bodyCtx.nth 0) e.start.images e.start.texels src e.uv

/-- DOWNSAMPLE of a source level into a target. -/
def passDownsample (src target : LevelRef) : Pass where
  reads := [src]
  regs := []
  target := target
  samples := fun e => boxSamples (e.bodyCtx.nth 0) e.start.images src e.uv
  color := bodyDownsample src

/-- DOWNSAMPLE's slots (30_encoding.md R61). -/
def planDownsample (lod input output : Nat) (s : State) : Except FaultRecord Pass :=
  (inputSlot s input).bind fun src =>
    (outputSlot s output).bind fun target => .ok (passDownsample ⟨src, lod⟩ target)

/-- DOWNSAMPLE (47_modes.md R121). -/
def execDownsample (lod input output bloom : Nat) (s : State) : Host.Outcome State Fault Refusal :=
  runDispatch (encode (.downsample lod input output bloom)) (planDownsample lod input output) s

/-! ### UPSAMPLE_FIRST and UPSAMPLE (47_modes.md R122, R123) -/

/-- The samples of a tent level and, at `uv`, of the existing content. -/
def blendSamples (tent existing : LevelRef) (e : Invocation) : List SampleReq :=
  tentSamples (e.bodyCtx.nth 0) e.start.images tent e.uv ++ [⟨existing, e.uv.1, e.uv.2⟩]

/-- The tent-filtered contribution. -/
def tentColor (tent : LevelRef) (e : Invocation) : F3 :=
  tentUpsample9 (e.bodyCtx.nth 0) e.start.images e.start.texels tent e.uv

/-- The existing content at `uv`. -/
def existingColor (existing : LevelRef) (e : Invocation) : F3 :=
  (sampleTexel (e.bodyCtx.nth 1) e.start.images e.start.texels ⟨existing, e.uv.1, e.uv.2⟩).rgb

/-- The body of UPSAMPLE_FIRST. -/
def bodyUpsampleFirst (tent existing : LevelRef) (e : Invocation) : F3 :=
  combine (e.bodyCtx.nth 2) (existingColor existing e) (tentColor tent e)
    (regValue e.start.regs .combineC)

/-- UPSAMPLE_FIRST of a tent level and the existing content into a target. -/
def passUpsampleFirst (tent existing target : LevelRef) : Pass where
  reads := [tent, existing]
  regs := [.combineC]
  target := target
  samples := blendSamples tent existing
  color := bodyUpsampleFirst tent existing

/-- UPSAMPLE_FIRST's slots: both levels are of the input image (30_encoding.md R61, 47_modes.md R122). -/
def planUpsampleFirst (lod input output : Nat) (s : State) : Except FaultRecord Pass :=
  (inputSlot s input).bind fun src =>
    (outputSlot s output).bind fun target =>
      .ok (passUpsampleFirst ⟨src, lod + 1⟩ ⟨src, lod⟩ target)

/-- UPSAMPLE_FIRST (47_modes.md R122). -/
def execUpsampleFirst (lod input output bloom : Nat) (s : State) : Host.Outcome State Fault Refusal :=
  runDispatch (encode (.upsampleFirst lod input output bloom)) (planUpsampleFirst lod input output) s

/-- The body of UPSAMPLE. -/
def bodyUpsample (tent existing : LevelRef) (e : Invocation) : F3 :=
  combine (e.bodyCtx.nth 2) (existingColor existing e) (tentColor tent e)
    (regValue e.start.regs .combineC)

/-- UPSAMPLE of a tent level and the existing content into a target. -/
def passUpsample (tent existing target : LevelRef) : Pass where
  reads := [tent, existing]
  regs := [.combineC]
  target := target
  samples := blendSamples tent existing
  color := bodyUpsample tent existing

/-- UPSAMPLE's slots: the tent level is of the bloom image, the existing content of the input image (30_encoding.md R61, 47_modes.md R123). -/
def planUpsample (lod input output bloom : Nat) (s : State) : Except FaultRecord Pass :=
  (inputSlot s input).bind fun src =>
    (bloomSlot s bloom).bind fun blm =>
      (outputSlot s output).bind fun target =>
        .ok (passUpsample ⟨blm, lod + 1⟩ ⟨src, lod⟩ target)

/-- UPSAMPLE (47_modes.md R123). -/
def execUpsample (lod input output bloom : Nat) (s : State) : Host.Outcome State Fault Refusal :=
  runDispatch (encode (.upsample lod input output bloom)) (planUpsample lod input output bloom) s

/-! ### APPLY (47_modes.md R124) -/

/-- The body of APPLY. -/
def bodyApply (tent base : LevelRef) (e : Invocation) : F3 :=
  display (e.bodyCtx.nth 4)
    (combine (e.bodyCtx.nth 2) (existingColor base e)
      (scaleColor (e.bodyCtx.nth 3) (tentColor tent e) (regValue e.start.regs .intensity))
      (regValue e.start.regs .combineC))

/-- APPLY of a tent level and the base colour into a target. -/
def passApply (tent base target : LevelRef) : Pass where
  reads := [tent, base]
  regs := [.intensity, .combineC]
  target := target
  samples := blendSamples tent base
  color := bodyApply tent base

/-- APPLY's slots: the tent reads level `lod` of the bloom image, the base is level 0 of the input image (30_encoding.md R61, 47_modes.md R124). -/
def planApply (lod input output bloom : Nat) (s : State) : Except FaultRecord Pass :=
  (inputSlot s input).bind fun src =>
    (bloomSlot s bloom).bind fun blm =>
      (outputSlot s output).bind fun target => .ok (passApply ⟨blm, lod⟩ ⟨src, 0⟩ target)

/-- APPLY (47_modes.md R124). -/
def execApply (lod input output bloom : Nat) (s : State) : Host.Outcome State Fault Refusal :=
  runDispatch (encode (.apply lod input output bloom)) (planApply lod input output bloom) s

end Sys2Proof.Machine
end

