-- ==== Sys2Proof/Machine/Dispatch.lean ====
section
/-! DEFINITION. One arm per descriptor (47_modes.md R120–R124). -/

namespace Sys2Proof.Machine

def exec (i : Instr) (s : State) : Host.Outcome State Fault Refusal :=
  match i with
  | .prefilter lod input output bloom => Sys2Proof.Machine.execPrefilter lod input output bloom s
  | .downsample lod input output bloom => Sys2Proof.Machine.execDownsample lod input output bloom s
  | .upsampleFirst lod input output bloom => Sys2Proof.Machine.execUpsampleFirst lod input output bloom s
  | .upsample lod input output bloom => Sys2Proof.Machine.execUpsample lod input output bloom s
  | .apply lod input output bloom => Sys2Proof.Machine.execApply lod input output bloom s

end Sys2Proof.Machine
end

