-- ==== Sys2Proof/Machine/HostPort.lean ====
section
/-! DEFINITION. The host's side of the ports (10_state.md R24): taking the next host action, configuration writes, a dispatch's grid and word, and the parameter block laid out in bytes. -/

namespace Sys2Proof.Machine

/-- The next host action and the state with it taken, if the host program has not ended (10_state.md R15). -/
def nextAction (s : State) : Option (HostAction × State) :=
  match s.program with
  | [] => none
  | a :: rest => some (a, { s with program := rest })

/-- A configuration write: refused unless STATUS admits a host action (10_state.md R22, 70_reset_and_hazards.md R167). -/
def cfgWrite (f : State → State) (s : State) : Host.Outcome State Fault Refusal :=
  match refusesIn s.status with
  | some r => .refused r
  | none => .next (f s)

/-- `SET reg, value` (10_state.md R22). -/
def hostSetReg (r : ParamReg) (v : F) (s : State) : Host.Outcome State Fault Refusal :=
  cfgWrite (fun s => { s with regs := writeReg s.regs r v }) s

/-- `BIND IN[slot], image` (10_state.md R23). -/
def hostBindIn (slot : Fin numIn) (image : Nat) (s : State) : Host.Outcome State Fault Refusal :=
  cfgWrite (fun s => { s with inBind := s.inBind.set slot (some image) }) s

/-- `BIND BL[slot], image` (10_state.md R23). -/
def hostBindBl (slot : Fin numBloom) (image : Nat) (s : State) : Host.Outcome State Fault Refusal :=
  cfgWrite (fun s => { s with blBind := s.blBind.set slot (some image) }) s

/-- `BIND OUT[slot], (image, level)` (10_state.md R23). -/
def hostBindOut (slot : Fin numOut) (image level : Nat) (s : State) : Host.Outcome State Fault Refusal :=
  cfgWrite (fun s => { s with outBind := s.outBind.set slot (some ⟨image, level⟩) }) s

/-- The grid a dispatch is presented with (10_state.md R24, 41_decoder.md R84). -/
def presentGrid (gx gy : Nat) (s : State) : State := { s with gridX := gx, gridY := gy }

/-- The byte offset of a register in the parameter block (10_state.md R17). -/
def regOffset (r : ParamReg) : Nat := 4 * regNumber r

/-- The registers of the parameter block, in their order (10_state.md R17). -/
def blockRegs : List ParamReg := [.tc0, .tc1, .tc2, .tc3, .intensity, .combineC]

/-- The configuration writes a parameter block of bytes stands for (10_state.md R17, 20_memory.md R44): for each register the word at its offset; none for a register whose bytes are not all there. -/
def paramBlockWrites (o : ByteOrder) (bytes : List Byte) : List HostAction :=
  blockRegs.filterMap fun r =>
    match bytes.drop (regOffset r) with
    | b0 :: b1 :: b2 :: b3 :: _ => some (.setReg r (wordOfBytes o b0 b1 b2 b3))
    | _ => none

/-- The status a machine must be in for its next action to be taken: its own where it admits one, else IDLE (assumption 2). -/
def admittingStatus : Status → Status
  | .idle => .idle
  | .done => .done
  | .busy => .idle
  | .fault _ => .idle

/-- A word to be dispatched on one workgroup tile, placed as the host program's next action (assumption 2). -/
def loadWord (w : Word) (s : State) : State :=
  { s with status := admittingStatus s.status, program := .dispatch w tileX tileY :: s.program }

end Sys2Proof.Machine
end

