-- ==== Sys2Proof/Machine/Step.lean ====
section
/-! DEFINITION. One step: the host's next action is performed (10_state.md R24, 47_modes.md R118). -/

namespace Sys2Proof.Machine

/-- A dispatch of a descriptor word: the grid is presented, the word decoded, its mode run; a reserved mode faults (47_modes.md R118, R125). -/
def stepDispatch (w : Word) (gx gy : Nat) (s : State) : Host.Outcome State Fault Refusal :=
  match decode w with
  | .ok i => exec i (presentGrid gx gy s)
  | .error _ => dispatchReserved w (presentGrid gx gy s)

/-- One host action performed. -/
def perform (a : HostAction) (s : State) : Host.Outcome State Fault Refusal :=
  match a with
  | .setReg r v => hostSetReg r v s
  | .bindIn slot image => hostBindIn slot image s
  | .bindBl slot image => hostBindBl slot image s
  | .bindOut slot image level => hostBindOut slot image level s
  | .dispatch w gx gy => stepDispatch w gx gy s

/-- One step. With no action left the block holds its state and does nothing (60_exceptions.md R153, assumption 1). -/
def step (s : State) : Host.Outcome State Fault Refusal :=
  match nextAction s with
  | none => .next s
  | some (a, s') => perform a s'

/-- The state with a descriptor word placed as the next action of the host (assumption 2). -/
def State.withFetchWord (s : State) (nbits w : Nat) : State :=
  loadWord (BitVec.ofNat 32 (w % 2 ^ nbits)) s

end Sys2Proof.Machine
end

