-- ==== Sys2Proof/Machine/Reference.lean ====
section
/-! DEFINITION. The spec's reference configuration, grid and schedule, and the launch premise (20_memory.md R35, 41_decoder.md R84, 47_modes.md R128, 70_reset_and_hazards.md R161, R162). They are the host's choices, no part of the step. -/

namespace Sys2Proof.Machine

/-- The reference grid of a level of `w` by `h` texels: whole tiles covering it (41_decoder.md R84). -/
def refGrid (w h : Nat) : Nat × Nat :=
  (tileX * ((w + tileX - 1) / tileX), tileY * ((h + tileY - 1) / tileY))

/-- Image numbers of the reference configuration: `SCENE`, `P1`, `P2`, `P3`, `FINAL` (20_memory.md R35). -/
def refScene : Nat := 0
/-- `P1`. -/
def refP1 : Nat := 1
/-- `P2`. -/
def refP2 : Nat := 2
/-- `P3`. -/
def refP3 : Nat := 3
/-- `FINAL`. -/
def refFinal : Nat := 4

/-- The images of the reference configuration for a `w` by `h` scene and depth `n` (20_memory.md R35). -/
def refImages (w h n : Nat) : List Image :=
  [⟨w, h, 1⟩, ⟨w / 2, h / 2, n⟩, ⟨w / 2, h / 2, n⟩, ⟨w / 2, h / 2, n⟩, ⟨w, h, 1⟩]

/-- The bindings of the reference configuration, as host actions (20_memory.md R35); past `mipCount` levels a pyramid has no slots, and none is bound (assumption 27). -/
def refBindings (n : Nat) : List HostAction :=
  [.bindIn 0 refScene, .bindIn 1 refP1, .bindIn 2 refP2, .bindIn 3 refP3,
   .bindBl 0 refScene, .bindBl 1 refP1, .bindBl 2 refP2, .bindBl 3 refP3]
  ++ ([(0, refP1), (1, refP2), (2, refP3)].flatMap fun q =>
      (List.range (min n mipCount)).map fun l =>
        .bindOut (Fin.ofNat numOut (q.1 * mipCount + l)) q.2 l)
  ++ [.bindOut 21 refFinal 0]

/-- One step of the reference schedule: a descriptor, and the grid of its target (47_modes.md R128). -/
def refDispatch (i : Instr) (w h : Nat) : HostAction :=
  .dispatch (encode i) (refGrid w h).1 (refGrid w h).2

/-- The reference schedule for a `w` by `h` scene and depth `n` (47_modes.md R128; the level of each target halves by R32). R128 gives one for a depth from 2 to MIP_COUNT only. For `n < 2`, where a level `n - 2` does not exist, the list is what subtraction cut off at 0 gives, and for `n > mipCount` what the table's entries give although their slots run past the pyramid's: both are the model's choice (assumption 27). -/
def refSchedule (w h n : Nat) : List HostAction :=
  let pw := w / 2
  let ph := h / 2
  [refDispatch (.prefilter 0 0 0 0) pw ph]
  ++ ((List.range (n - 1)).map fun i =>
      refDispatch (.downsample i 1 (i + 1) 0) (pw / 2 ^ (i + 1)) (ph / 2 ^ (i + 1)))
  ++ [refDispatch (.upsampleFirst (n - 2) 1 (2 * mipCount + n - 2) 0) (pw / 2 ^ (n - 2)) (ph / 2 ^ (n - 2))]
  ++ ((List.range (n - 2)).reverse.map fun j =>
      refDispatch (.upsample j 1 (2 * mipCount + j) 3) (pw / 2 ^ j) (ph / 2 ^ j))
  ++ [refDispatch (.apply 0 0 (3 * mipCount) 3) w h]

/-- The launch premise: every texel of the scene image is written with finite channels, and no texel of another image is (70_reset_and_hazards.md R162). -/
def LaunchPremise (scene : Nat) (s : State) : Prop :=
  (∀ l x y, x < (levelSize s.images ⟨scene, l⟩).1 → y < (levelSize s.images ⟨scene, l⟩).2 →
    ∃ v, memRead s.texels ⟨scene, l, x, y⟩ = some v ∧
      fFinite v.r = true ∧ fFinite v.g = true ∧ fFinite v.b = true ∧ fFinite v.a = true) ∧
  ∀ a, a.image ≠ scene → memRead s.texels a = none

/-- The boot duties of 70_reset_and_hazards.md R161 (1) for a pyramid image of depth `n`: its level 0 is at least `2^n` texels each way, so that no level has a zero dimension. -/
def PyramidDuty (s : State) (image n : Nat) : Prop :=
  ∃ im, s.images[image]? = some im ∧ n ≤ im.levels ∧ 2 ^ n ≤ im.width ∧ 2 ^ n ≤ im.height

end Sys2Proof.Machine
end

