-- ==== Sys2Proof/Safety.lean ====
section
/-! DEFINITION. The terms claims are stated in: the value of an F, correct rounding, the invariant of the state, when a pass is ready and when it is done. -/

namespace Sys2Proof.Machine

/-! ### Values (40_numerics.md R68, R69) -/

/-- The rational a finite value stands for. -/
def fRat (x : F) : ℚ := (fVal x : ℚ) / 2 ^ 149

/-- `v` is a binary32 value nearest to `q`, and the even one where two are equally near (40_numerics.md R69). -/
def NearestEven (q : ℚ) (v : F) : Prop :=
  fFinite v = true ∧ ∀ z : F, fFinite z = true →
    |fRat v - q| ≤ |fRat z - q| ∧ (|fRat z - q| = |fRat v - q| → fRat z = fRat v ∨ v.toNat % 2 = 0)

/-- `v` is a binary32 value nearest to a real, and the even one where two are equally near (40_numerics.md R75, R76). -/
def NearestReal (q : ℝ) (v : F) : Prop :=
  fFinite v = true ∧ ∀ z : F, fFinite z = true →
    |(fRat v : ℝ) - q| ≤ |(fRat z : ℝ) - q| ∧
    (|(fRat z : ℝ) - q| = |(fRat v : ℝ) - q| → fRat z = fRat v ∨ v.toNat % 2 = 0)

/-- The exact result overflows: it rounds past the greatest finite value (40_numerics.md R79). -/
def Overflows (q : ℚ) : Prop := 2 ^ 128 - 2 ^ 103 ≤ |q|

/-! ### The invariant -/

/-- What every step keeps: the memory's canonical form, texels only where a level has them, images with a level (20_memory.md R31), and STATUS in step with `k` and DESC (10_state.md R15, R18, R25), BUSY never seen between steps (70_reset_and_hazards.md R167). -/
structure State.Inv (s : State) : Prop where
  memory  : Memory.wf s.texels = true
  inside  : ∀ p ∈ s.texels, p.1.x < (levelSize s.images p.1.ref).1 ∧ p.1.y < (levelSize s.images p.1.ref).2
  levels  : ∀ im ∈ s.images, 1 ≤ im.levels
  idle    : s.status = .idle → s.k = 0 ∧ s.desc = none
  done    : s.status = .done → 1 ≤ s.k ∧ s.desc.isSome = true
  faulted : ∀ f, s.status = .fault f → s.desc.isSome = true
  settled : s.status ≠ .busy

/-- A state of a safe run: no dispatch has faulted (60_exceptions.md R134). -/
def State.Safe (s : State) : Prop := ∀ f, s.status ≠ .fault f

/-- STATUS admits a host action: IDLE or DONE (10_state.md R25, 70_reset_and_hazards.md R167). -/
def State.Admits (s : State) : Prop := s.status = .idle ∨ s.status = .done

/-! ### What a mode uses (30_encoding.md R61, 47_modes.md R119) -/

/-- The slots a mode uses, in the order they are checked (60_exceptions.md R136). -/
def usedSlots : Instr → List (BindTable × Nat)
  | .prefilter _ i o _ => [(.input, i), (.output, o)]
  | .downsample _ i o _ => [(.input, i), (.output, o)]
  | .upsampleFirst _ i o _ => [(.input, i), (.output, o)]
  | .upsample _ i o b => [(.input, i), (.bloom, b), (.output, o)]
  | .apply _ i o b => [(.input, i), (.bloom, b), (.output, o)]

/-- A slot exists and is bound (10_state.md R23). -/
def SlotBound (s : State) (q : BindTable × Nat) : Prop :=
  match q.1 with
  | .input => ∃ t, s.inBind[q.2]? = some (some t)
  | .bloom => ∃ t, s.blBind[q.2]? = some (some t)
  | .output => ∃ t, s.outBind[q.2]? = some (some t)

/-- The mode resolves its `bloom_index` (30_encoding.md R61). -/
def usesBloom : Instr → Bool
  | .prefilter _ _ _ _ => false
  | .downsample _ _ _ _ => false
  | .upsampleFirst _ _ _ _ => false
  | .upsample _ _ _ _ => true
  | .apply _ _ _ _ => true

/-- `SRC`, `BLM` and `(DST, DL)` of a dispatch (20_memory.md R34); `BLM` is any image where the mode does not use it. -/
structure Resolved (i : Instr) (s : State) (src blm : Nat) (target : LevelRef) : Prop where
  input  : s.inBind[i.fields.input]? = some (some src)
  bloom  : usesBloom i = true → s.blBind[i.fields.bloom]? = some (some blm)
  output : s.outBind[i.fields.output]? = some (some target)

/-- The read set of a mode, in the order of 47_modes.md R119. -/
def readSet : Instr → (src blm : Nat) → List LevelRef
  | .prefilter l _ _ _, src, _ => [⟨src, l⟩]
  | .downsample l _ _ _, src, _ => [⟨src, l⟩]
  | .upsampleFirst l _ _ _, src, _ => [⟨src, l + 1⟩, ⟨src, l⟩]
  | .upsample l _ _ _, src, blm => [⟨blm, l + 1⟩, ⟨src, l⟩]
  | .apply l _ _ _, src, blm => [⟨blm, l⟩, ⟨src, 0⟩]

/-- The registers of a mode, in number order (47_modes.md R119). -/
def regsRead : Instr → List ParamReg
  | .prefilter _ _ _ _ => [.tc0, .tc1, .tc2, .tc3]
  | .downsample _ _ _ _ => []
  | .upsampleFirst _ _ _ _ => [.combineC]
  | .upsample _ _ _ _ => [.combineC]
  | .apply _ _ _ _ => [.intensity, .combineC]

/-- What a mode does with resolved slots (47_modes.md R120–R124). -/
def passOf : Instr → (src blm : Nat) → LevelRef → Pass
  | .prefilter l _ _ _, src, _, target => passPrefilter ⟨src, l⟩ target
  | .downsample l _ _ _, src, _, target => passDownsample ⟨src, l⟩ target
  | .upsampleFirst l _ _ _, src, _, target => passUpsampleFirst ⟨src, l + 1⟩ ⟨src, l⟩ target
  | .upsample l _ _ _, src, blm, target => passUpsample ⟨blm, l + 1⟩ ⟨src, l⟩ target
  | .apply l _ _ _, src, blm, target => passApply ⟨blm, l⟩ ⟨src, 0⟩ target

/-- The host action is a DISPATCH (10_state.md R24). -/
def isDispatch : HostAction → Bool
  | .setReg _ _ => false
  | .bindIn _ _ => false
  | .bindBl _ _ => false
  | .bindOut _ _ _ => false
  | .dispatch _ _ _ => true

/-! ### When a dispatch runs normally (47_modes.md R118, R129) -/

/-- A level exists and has texels (20_memory.md R36, R37). -/
def LevelPresent (s : State) (r : LevelRef) : Prop := (texSize s.images r).isSome = true

/-- The conditions under which a pass completes from a state: STATUS admits a dispatch, the levels exist, the target is not read, the registers are written, every sample of an invocation past the guard reads written texels, and the guard lets no store outside the target through. -/
structure PassReady (p : Pass) (s : State) : Prop where
  admitted : s.Admits
  target   : LevelPresent s p.target
  reads    : ∀ r ∈ p.reads, LevelPresent s r
  apart    : p.target ∉ p.reads
  regs     : ∀ r ∈ p.regs, (readReg s.regs r).isSome = true
  written  : ∀ x y, x < s.gridX → y < s.gridY →
    guardPasses s.cfg.guardMode (levelSize s.images p.target).1 (levelSize s.images p.target).2 x y = true →
    ∀ q ∈ p.samples (invocationAt s p.target (x, y)), ∀ a ∈ footprint s.images q, (memRead s.texels a).isSome = true
  inside   : s.cfg.guardMode = .reference → ∀ x y, x < s.gridX → y < s.gridY →
    x < (levelSize s.images p.target).1 → y < (levelSize s.images p.target).2

/-- What a completed dispatch of a word leaves: STATUS DONE, `k` and the model's own draw counter (assumption 9) one higher, DESC loaded; in the target level, at every grid position inside it, the texel of `color` there; every other texel and all other state as before. -/
structure PassDone (w : Word) (target : LevelRef) (color : Nat → Nat → F3) (s t : State) : Prop where
  status  : t.status = .done
  index   : t.k = s.k + 1
  draws   : t.draws = s.draws + 1
  desc    : t.desc = some w
  stored  : ∀ x y, x < s.gridX → y < s.gridY →
    x < (levelSize s.images target).1 → y < (levelSize s.images target).2 →
    memRead t.texels (storeAddr target x y) = some (storedTexel s.cfg (color x y))
  others  : ∀ a : TexelAddr, ¬ (a.ref = target ∧ a.x < s.gridX ∧ a.y < s.gridY ∧
      a.x < (levelSize s.images target).1 ∧ a.y < (levelSize s.images target).2) →
    memRead t.texels a = memRead s.texels a
  cfg     : t.cfg = s.cfg
  regs    : t.regs = s.regs
  gridX   : t.gridX = s.gridX
  gridY   : t.gridY = s.gridY
  inBind  : t.inBind = s.inBind
  blBind  : t.blBind = s.blBind
  outBind : t.outBind = s.outBind
  images  : t.images = s.images
  program : t.program = s.program

/-- The checks a dispatch makes once its slots are resolved all pass: the levels exist, the target is not read, the registers are written (47_modes.md R118). -/
structure ChecksPass (i : Instr) (s : State) (src blm : Nat) (target : LevelRef) : Prop where
  present : LevelPresent s target
  reads   : ∀ r ∈ readSet i src blm, LevelPresent s r
  apart   : target ∉ readSet i src blm
  regs    : ∀ r ∈ regsRead i, (readReg s.regs r).isSome = true

/-- The invocation at a position raises a fault: past the guard it samples an unwritten texel (60_exceptions.md R140), or, all it samples being written, it stores outside the target level under the REFERENCE guard (R141). -/
def RaisesFault (p : Pass) (s : State) (x y : Nat) (f : FaultRecord) : Prop :=
  guardPasses s.cfg.guardMode (levelSize s.images p.target).1 (levelSize s.images p.target).2 x y = true ∧
  ((∃ q ∈ p.samples (invocationAt s p.target (x, y)), ∃ a ∈ footprint s.images q,
      memRead s.texels a = none ∧ f = .unwrittenRead a) ∨
   ((∀ q ∈ p.samples (invocationAt s p.target (x, y)), ∀ a ∈ footprint s.images q,
      (memRead s.texels a).isSome = true) ∧
    s.cfg.guardMode = .reference ∧ x < (levelSize s.images p.target).1 ∧
    (levelSize s.images p.target).2 ≤ y ∧ f = .oobWrite x y))

/-- The invocations of a dispatch run one after another in some order, each on the memory the ones before it left (20_memory.md R51, 41_decoder.md R89). -/
def runInOrder (p : Pass) (s : State) : List (Nat × Nat) → Memory → Memory
  | [], m => m
  | q :: order, m =>
    runInOrder p s order (storeResult p.target m (q, invoke p (invocationAt { s with texels := m } p.target q)))

/-! ### Images of constant colour (43_box_downsample.md R99, 44_tent_upsample.md R103) -/

/-- A finite value from 0 to 1. -/
def InUnit (x : F) : Prop := fFinite x = true ∧ 0 ≤ fRat x ∧ fRat x ≤ 1

/-- Every texel of a level is written, with a colour that satisfies `p`. -/
def EveryTexel (images : List Image) (m : Memory) (r : LevelRef) (p : F3 → Prop) : Prop :=
  ∀ x y, x < (levelSize images r).1 → y < (levelSize images r).2 →
    ∃ v, memRead m (storeAddr r x y) = some v ∧ p v.rgb

/-- A level exists with no dimension above 2^24, so that its sizes convert exactly (40_numerics.md R78). -/
def LevelConverts (images : List Image) (r : LevelRef) : Prop :=
  (texSize images r).isSome = true ∧ (levelSize images r).1 ≤ 2 ^ 24 ∧ (levelSize images r).2 ≤ 2 ^ 24

/-- A finite value no further than `e` from another. -/
def Near (e : ℚ) (v x : F) : Prop := fFinite x = true ∧ |fRat x - fRat v| ≤ e

/-- A dispatch fault: STATUS holds the record, DESC the word presented, and nothing else has changed (60_exceptions.md R134, 47_modes.md R118). -/
def faultedAtStart (w : Word) (f : FaultRecord) (s : State) : State :=
  { s with desc := some w, status := .fault f }

end Sys2Proof.Machine
end

