-- ==== Sys2Proof/Certificates/Slice0/Obligations.lean ====
section
/-! DEFINITION. The statements for the provers. Each docstring names the rule of spec/ the statement formalises; where a clause is the model's own choice it names the log entry. -/

open Sys2Proof Sys2Proof.Machine

/-! ## Encoding -/

/-- 41_decoder.md R82: the word of an in-range tuple, and the round trip in both directions. -/
def Obligations.FieldsRoundTrip : Prop :=
  (∀ w : Word, encodeFields (decodeFields w) = w) ∧
  ∀ t : Fields, t.mode < 16 → t.lod < 128 → t.input < 128 → t.output < 128 → t.bloom < 128 →
    (encodeFields t).toNat = t.mode <<< 28 ||| t.lod <<< 21 ||| t.input <<< 14 ||| t.output <<< 7 ||| t.bloom ∧
    decodeFields (encodeFields t) = t

/-- Decode and encode agree, on words, on bytes in either order with more bytes behind, and through the table's numbering (30_encoding.md R57, R64, R66; 20_memory.md R44): every well-formed instruction comes back, and a word that decodes is the word of a well-formed instruction. -/
def Obligations.InstructionsRoundTrip : Prop :=
  (∀ i : Instr, i.wellFormed = true →
    decode (encode i) = .ok i ∧
    (∀ (o : ByteOrder) (rest : List Byte), decodeBytes o (bytesOfWord o (encode i) ++ rest) = .ok (i, rest)) ∧
    decodeTableWord 32 (encode i).toNat = some i) ∧
  ∀ (w : Word) (i : Instr), decode w = .ok i → i.wellFormed = true ∧ encode i = w

/-- 41_decoder.md R81: the five fields by fixed shifts and masks. -/
def Obligations.DecodeByShiftsAndMasks : Prop :=
  ∀ w : Word, decodeFields w =
    { mode := ((w >>> 28) &&& 0xF#32).toNat
      lod := ((w >>> 21) &&& 0x7F#32).toNat
      input := ((w >>> 14) &&& 0x7F#32).toNat
      output := ((w >>> 7) &&& 0x7F#32).toNat
      bloom := (w &&& 0x7F#32).toNat }

/-- 30_encoding.md R59: the four mode bits alone select the operation, the other 28 bits are its operands, and modes 5 to 15 select none. -/
def Obligations.ModeBitsSelectOperation : Prop :=
  ∀ w : Word,
    (w &&& 0xF0000000#32 = 0x00000000#32 ↔ decode w =
      .ok (.prefilter (decodeFields w).lod (decodeFields w).input (decodeFields w).output (decodeFields w).bloom)) ∧
    (w &&& 0xF0000000#32 = 0x10000000#32 ↔ decode w =
      .ok (.downsample (decodeFields w).lod (decodeFields w).input (decodeFields w).output (decodeFields w).bloom)) ∧
    (w &&& 0xF0000000#32 = 0x20000000#32 ↔ decode w =
      .ok (.upsampleFirst (decodeFields w).lod (decodeFields w).input (decodeFields w).output (decodeFields w).bloom)) ∧
    (w &&& 0xF0000000#32 = 0x30000000#32 ↔ decode w =
      .ok (.upsample (decodeFields w).lod (decodeFields w).input (decodeFields w).output (decodeFields w).bloom)) ∧
    (w &&& 0xF0000000#32 = 0x40000000#32 ↔ decode w =
      .ok (.apply (decodeFields w).lod (decodeFields w).input (decodeFields w).output (decodeFields w).bloom)) ∧
    (0x50000000#32 ≤ w ↔ decode w = .error (.reservedMode (decodeFields w).mode))

/-- The example words of 47_modes.md R120–R125 and 95_test_vectors.md §2 decode to the instructions written beside them. -/
def Obligations.ExampleWordsDecode : Prop :=
  decode 0x00000000#32 = .ok (.prefilter 0 0 0 0) ∧
  decode 0x10004080#32 = .ok (.downsample 0 1 1 0) ∧
  decode 0x20004700#32 = .ok (.upsampleFirst 0 1 14 0) ∧
  decode 0x30004703#32 = .ok (.upsample 0 1 14 3) ∧
  decode 0x40000A83#32 = .ok (.apply 0 0 21 3) ∧
  decode 0x12345678#32 = .ok (.downsample 17 81 44 120) ∧
  decode 0x50000000#32 = .error (.reservedMode 5)

/-- 10_state.md R17, 20_memory.md R44: six words laid out in the parameter block, in either byte order, are the six register writes, in number order. -/
def Obligations.ParameterBlockSetsRegisters : Prop :=
  ∀ (o : ByteOrder) (t0 t1 t2 t3 n c : F) (rest : List Byte),
    paramBlockWrites o (bytesOfWord o t0 ++ bytesOfWord o t1 ++ bytesOfWord o t2 ++ bytesOfWord o t3 ++
        bytesOfWord o n ++ bytesOfWord o c ++ rest) =
      [.setReg .tc0 t0, .setReg .tc1 t1, .setReg .tc2 t2, .setReg .tc3 t3, .setReg .intensity n, .setReg .combineC c]

/-! ## The step and the host's ports -/

/-- A step whose next host action is a dispatch runs the decoded instruction: the action is taken off the host program, the grid is the one presented, and the rest is `exec` (10_state.md R24, 47_modes.md R118). -/
def Obligations.StepRunsDecodedDescriptor : Prop :=
  ∀ (s : State) (w : Word) (gx gy : Nat) (rest : List HostAction) (i : Instr),
    s.program = .dispatch w gx gy :: rest → decode w = .ok i →
    step s = exec i { s with program := rest, gridX := gx, gridY := gy }

/-- 60_exceptions.md R135, R134, 47_modes.md R125: a dispatch of a reserved mode faults with the mode value whatever is bound, written or allocated; but for the action taken, the grid presented, STATUS and DESC it leaves everything as it was. That DESC is loaded is assumption 3, the model's reading of 47_modes.md R118. -/
def Obligations.ReservedModeFaults : Prop :=
  ∀ (s : State) (w : Word) (gx gy : Nat) (rest : List HostAction),
    s.program = .dispatch w gx gy :: rest → s.Admits → 5 ≤ (w >>> 28).toNat →
    step s = .next (faultedAtStart w (.reservedMode (w >>> 28).toNat)
      { s with program := rest, gridX := gx, gridY := gy })

/-- 10_state.md R22: a host write sets one register, with its written bit, and changes nothing else. -/
def Obligations.RegisterWriteSetsOneRegister : Prop :=
  ∀ (s : State) (r : ParamReg) (v : F) (rest : List HostAction),
    s.program = .setReg r v :: rest → s.Admits →
    ∃ t, step s = .next t ∧ readReg t.regs r = some v ∧
      (∀ r', r' ≠ r → readReg t.regs r' = readReg s.regs r') ∧
      t = { s with program := rest, regs := t.regs }

/-- 10_state.md R23: a host write binds one slot of one table and changes nothing else. -/
def Obligations.BindingSetsOneSlot : Prop :=
  ∀ (s : State) (rest : List HostAction), s.Admits →
    (∀ (j : Fin numIn) (im : Nat), s.program = .bindIn j im :: rest →
      ∃ t, step s = .next t ∧ t.inBind[j.1]? = some (some im) ∧
        (∀ n, n ≠ j.1 → t.inBind[n]? = s.inBind[n]?) ∧ t = { s with program := rest, inBind := t.inBind }) ∧
    (∀ (j : Fin numBloom) (im : Nat), s.program = .bindBl j im :: rest →
      ∃ t, step s = .next t ∧ t.blBind[j.1]? = some (some im) ∧
        (∀ n, n ≠ j.1 → t.blBind[n]? = s.blBind[n]?) ∧ t = { s with program := rest, blBind := t.blBind }) ∧
    (∀ (j : Fin numOut) (im lv : Nat), s.program = .bindOut j im lv :: rest →
      ∃ t, step s = .next t ∧ t.outBind[j.1]? = some (some ⟨im, lv⟩) ∧
        (∀ n, n ≠ j.1 → t.outBind[n]? = s.outBind[n]?) ∧ t = { s with program := rest, outBind := t.outBind })

/-- 70_reset_and_hazards.md R167: every host action is refused while STATUS is BUSY and after FAULT, and no step leaves BUSY for a host action to observe. -/
def Obligations.RefusedWhileBusyOrFaulted : Prop :=
  (∀ (s : State) (a : HostAction) (rest : List HostAction), s.program = a :: rest →
    (s.status = .busy → step s = .refused .whileBusy) ∧
    (∀ f, s.status = .fault f → step s = .refused .afterFault)) ∧
  ∀ s t : State, s.status ≠ .busy → step s = .next t → t.status ≠ .busy

/-- 10_state.md R25, 70_reset_and_hazards.md R172: an admitted dispatch ends DONE or FAULT, one presented in BUSY or FAULT is refused, and FAULT with its record is never left. -/
def Obligations.DispatchEndsDoneOrFault : Prop :=
  (∀ (i : Instr) (s : State), s.Admits →
    ∃ t, exec i s = .next t ∧ (t.status = .done ∨ ∃ f, t.status = .fault f)) ∧
  (∀ (i : Instr) (s : State), ¬ s.Admits → ∃ r, exec i s = .refused r) ∧
  ∀ (s t : State) (f : FaultRecord), s.status = .fault f → step s = .next t → t = s

/-- 10_state.md R15: `k` starts at 0, advances by exactly 1 when a dispatch ends DONE, changes in no other way, and a fault stops the host program. -/
def Obligations.DispatchIndexCountsDone : Prop :=
  (∀ (images : List Image) (texels : Memory), (State.initial images texels).k = 0) ∧
  (∀ (s t : State) (a : HostAction) (rest : List HostAction), s.program = a :: rest → step s = .next t →
    (isDispatch a = true ∧ t.status = .done → t.k = s.k + 1) ∧
    (¬ (isDispatch a = true ∧ t.status = .done) → t.k = s.k)) ∧
  ∀ (s : State) (a : HostAction) (rest : List HostAction) (f : FaultRecord),
    s.program = a :: rest → s.status = .fault f → ∀ t, step s ≠ .next t

/-- Each step performs exactly the host program's next action, and never changes the parameters or the images; with no action left it changes nothing (00_scope.md R12, 60_exceptions.md R153, assumption 1). -/
def Obligations.StepTakesOneAction : Prop :=
  (∀ (s t : State) (a : HostAction) (rest : List HostAction), s.program = a :: rest → step s = .next t →
    t.program = rest ∧ t.cfg = s.cfg ∧ t.images = s.images) ∧
  ∀ s : State, s.program = [] → step s = .next s

/-! ## Reset -/

/-- 70_reset_and_hazards.md R160, and 10_state.md R29 for the registers and slots: what the initial state holds, for any images and texels. -/
def Obligations.InitialState : Prop :=
  ∀ (images : List Image) (texels : Memory),
    (State.initial images texels).status = .idle ∧
    (State.initial images texels).faultRecord = none ∧
    (State.initial images texels).k = 0 ∧
    (∀ r, readReg (State.initial images texels).regs r = none) ∧
    (State.initial images texels).desc = none ∧
    (∀ q, ¬ SlotBound (State.initial images texels) q)

/-- The invariant holds at the initial state of any allocation whose images have a level and whose texels are in canonical form and inside them (20_memory.md R31); and at `State.reset`, which is the initial state of no images (assumption 6: the model's choice). -/
def Obligations.InvariantAtReset : Prop :=
  State.reset.Inv ∧ State.reset = State.initial [] [] ∧
  ∀ (images : List Image) (texels : Memory),
    Memory.wf texels = true → (∀ im ∈ images, 1 ≤ im.levels) →
    (∀ p ∈ texels, p.1.x < (levelSize images p.1.ref).1 ∧ p.1.y < (levelSize images p.1.ref).2) →
    (State.initial images texels).Inv

/-- Every step keeps the invariant: canonical memory, texels only inside levels, STATUS in step with `k` and DESC, never BUSY (20_memory.md R31, R42; 10_state.md R15, R18, R25). -/
def Obligations.StepKeepsInvariant : Prop :=
  ∀ s t : State, s.Inv → step s = .next t → t.Inv

/-! ## Dispatch faults -/

/-- 60_exceptions.md R136: the slots a mode uses are checked in the order input, bloom, output; the first unbound or out-of-range one faults `F_BAD_INDEX`; ignored fields are not checked. -/
def Obligations.FirstBadSlotFaults : Prop :=
  ∀ (i : Instr) (s : State), s.Admits →
    (∀ pre q post, usedSlots i = pre ++ q :: post → (∀ p ∈ pre, SlotBound s p) → ¬ SlotBound s q →
      ∃ t, exec i s = .next t ∧ t.status = .fault (.badIndex q.1 q.2)) ∧
    ((∀ q ∈ usedSlots i, SlotBound s q) → ∀ t, exec i s = .next t →
      ∀ table index, t.status ≠ .fault (.badIndex table index))

/-- 60_exceptions.md R137: with the slots resolved, an absent target level faults first, then the first absent pair of the read set in order. That a level of an image the host has not allocated is absent too, and so faults `F_BAD_LEVEL`, is the model's choice (assumption 15). -/
def Obligations.FirstAbsentLevelFaults : Prop :=
  ∀ (i : Instr) (s : State) (src blm : Nat) (target : LevelRef), s.Admits → Resolved i s src blm target →
    (¬ LevelPresent s target →
      ∃ t, exec i s = .next t ∧ t.status = .fault (.badLevel .out target.image target.level)) ∧
    (LevelPresent s target → ∀ pre r post, readSet i src blm = pre ++ r :: post →
      (∀ p ∈ pre, LevelPresent s p) → ¬ LevelPresent s r →
      ∃ t, exec i s = .next t ∧ t.status = .fault (.badLevel .read r.image r.level))

/-- 60_exceptions.md R138: with every level present, a target in the read set faults `F_ALIAS`; a target that is not, though another level of the same image, does not. -/
def Obligations.AliasedTargetFaults : Prop :=
  ∀ (i : Instr) (s : State) (src blm : Nat) (target : LevelRef), s.Admits → Resolved i s src blm target →
    LevelPresent s target → (∀ r ∈ readSet i src blm, LevelPresent s r) →
    (target ∈ readSet i src blm →
      ∃ t, exec i s = .next t ∧ t.status = .fault (.aliased target.image target.level)) ∧
    (target ∉ readSet i src blm → ∀ t, exec i s = .next t → ∀ im lv, t.status ≠ .fault (.aliased im lv))

/-- 60_exceptions.md R139: the lowest-numbered unwritten register of the mode faults `F_UNINIT_PARAM`; where all are written no dispatch fault is raised, whatever their values. -/
def Obligations.FirstUnwrittenRegisterFaults : Prop :=
  ∀ (i : Instr) (s : State) (src blm : Nat) (target : LevelRef), s.Admits → Resolved i s src blm target →
    LevelPresent s target → (∀ r ∈ readSet i src blm, LevelPresent s r) → target ∉ readSet i src blm →
    (∀ pre r post, regsRead i = pre ++ r :: post → (∀ p ∈ pre, (readReg s.regs p).isSome = true) →
      readReg s.regs r = none →
      ∃ t, exec i s = .next t ∧ t.status = .fault (.uninitParam (regNumber r))) ∧
    ((∀ r ∈ regsRead i, (readReg s.regs r).isSome = true) → ∀ t, exec i s = .next t →
      ∀ f, t.status = .fault f → 6 ≤ f.code)

/-- 60_exceptions.md R134 (dispatch faults of a decoded instruction; a reserved mode's is `ReservedModeFaults`): a fault of code 2 to 5 leaves the state as it was but for STATUS and the DESC that 47_modes.md R118 loads (assumption 3). -/
def Obligations.DispatchFaultsArePrecise : Prop :=
  ∀ (i : Instr) (s t : State) (f : FaultRecord),
    exec i s = .next t → t.status = .fault f → f.code ≤ 5 → t = faultedAtStart (encode i) f s

/-! ## Invocation faults -/

/-- 60_exceptions.md R140, R141, R143: a dispatch whose checks pass ends FAULT exactly when some invocation of its grid raises a fault, and the fault reported is one that an invocation raised. -/
def Obligations.InvocationFaultIsReported : Prop :=
  ∀ (i : Instr) (s t : State) (src blm : Nat) (target : LevelRef),
    Resolved i s src blm target → ChecksPass i s src blm target → exec i s = .next t →
    (∀ f, t.status = .fault f →
      ∃ x y, x < s.gridX ∧ y < s.gridY ∧ RaisesFault (passOf i src blm target) s x y f) ∧
    ((∃ x y f, x < s.gridX ∧ y < s.gridY ∧ RaisesFault (passOf i src blm target) s x y f) →
      ∃ f, t.status = .fault f)

/-- 60_exceptions.md R134: after a fault only STATUS, DESC, the target level and the model's draw counter may differ; registers, tables, `k` and every other texel keep their values. That DESC holds the word presented is assumption 3, the model's reading of 47_modes.md R118. -/
def Obligations.InvocationFaultSpoilsTargetOnly : Prop :=
  ∀ (i : Instr) (s t : State) (f : FaultRecord) (src blm : Nat) (target : LevelRef),
    Resolved i s src blm target → exec i s = .next t → t.status = .fault f →
    t.k = s.k ∧ t.desc = some (encode i) ∧ t.regs = s.regs ∧ t.inBind = s.inBind ∧ t.blBind = s.blBind ∧
    t.outBind = s.outBind ∧ t.images = s.images ∧ t.cfg = s.cfg ∧ t.program = s.program ∧
    t.gridX = s.gridX ∧ t.gridY = s.gridY ∧
    ∀ a : TexelAddr, ¬ (a.ref = target ∧ a.x < (levelSize s.images target).1 ∧ a.y < (levelSize s.images target).2) →
      memRead t.texels a = memRead s.texels a

/-! ## The five modes: completion, result and frame -/

/-- 47_modes.md R120: PREFILTER completes and writes `Prefilter(BoxDownsample13(SRC, lod, uv))` to every target texel its grid covers; everything else is as before. -/
def Obligations.PrefilterWritesThresholdedBox : Prop :=
  ∀ (lod input output bloom src : Nat) (target : LevelRef) (s : State) (tc0 tc1 tc2 tc3 : F),
    s.inBind[input]? = some (some src) → s.outBind[output]? = some (some target) →
    readReg s.regs .tc0 = some tc0 → readReg s.regs .tc1 = some tc1 →
    readReg s.regs .tc2 = some tc2 → readReg s.regs .tc3 = some tc3 →
    PassReady (passPrefilter ⟨src, lod⟩ target) s →
    ∃ t, exec (.prefilter lod input output bloom) s = .next t ∧
      PassDone (encode (.prefilter lod input output bloom)) target (fun x y =>
        let e := invocationAt s target (x, y)
        prefilter (e.bodyCtx.nth 1)
          (boxDownsample13 (e.bodyCtx.nth 0) s.images s.texels ⟨src, lod⟩ e.uv) tc0 tc1 tc2 tc3) s t

/-- 47_modes.md R121: DOWNSAMPLE completes and writes `BoxDownsample13(SRC, lod, uv)`; everything else is as before. -/
def Obligations.DownsampleWritesBox : Prop :=
  ∀ (lod input output bloom src : Nat) (target : LevelRef) (s : State),
    s.inBind[input]? = some (some src) → s.outBind[output]? = some (some target) →
    PassReady (passDownsample ⟨src, lod⟩ target) s →
    ∃ t, exec (.downsample lod input output bloom) s = .next t ∧
      PassDone (encode (.downsample lod input output bloom)) target (fun x y =>
        let e := invocationAt s target (x, y)
        boxDownsample13 (e.bodyCtx.nth 0) s.images s.texels ⟨src, lod⟩ e.uv) s t

/-- 47_modes.md R122: UPSAMPLE_FIRST completes and writes `combine(Sample(SRC, lod, uv), TentUpsample9(SRC, lod+1, uv), COMBINE_C)`; everything else is as before. -/
def Obligations.UpsampleFirstWritesBlend : Prop :=
  ∀ (lod input output bloom src : Nat) (target : LevelRef) (s : State) (c : F),
    s.inBind[input]? = some (some src) → s.outBind[output]? = some (some target) →
    readReg s.regs .combineC = some c →
    PassReady (passUpsampleFirst ⟨src, lod + 1⟩ ⟨src, lod⟩ target) s →
    ∃ t, exec (.upsampleFirst lod input output bloom) s = .next t ∧
      PassDone (encode (.upsampleFirst lod input output bloom)) target (fun x y =>
        let e := invocationAt s target (x, y)
        combine (e.bodyCtx.nth 2)
          (sampleTexel (e.bodyCtx.nth 1) s.images s.texels ⟨⟨src, lod⟩, e.uv.1, e.uv.2⟩).rgb
          (tentUpsample9 (e.bodyCtx.nth 0) s.images s.texels ⟨src, lod + 1⟩ e.uv) c) s t

/-- 47_modes.md R123: UPSAMPLE completes and writes `combine(Sample(SRC, lod, uv), TentUpsample9(BLM, lod+1, uv), COMBINE_C)`; everything else is as before. -/
def Obligations.UpsampleWritesBlend : Prop :=
  ∀ (lod input output bloom src blm : Nat) (target : LevelRef) (s : State) (c : F),
    s.inBind[input]? = some (some src) → s.blBind[bloom]? = some (some blm) →
    s.outBind[output]? = some (some target) → readReg s.regs .combineC = some c →
    PassReady (passUpsample ⟨blm, lod + 1⟩ ⟨src, lod⟩ target) s →
    ∃ t, exec (.upsample lod input output bloom) s = .next t ∧
      PassDone (encode (.upsample lod input output bloom)) target (fun x y =>
        let e := invocationAt s target (x, y)
        combine (e.bodyCtx.nth 2)
          (sampleTexel (e.bodyCtx.nth 1) s.images s.texels ⟨⟨src, lod⟩, e.uv.1, e.uv.2⟩).rgb
          (tentUpsample9 (e.bodyCtx.nth 0) s.images s.texels ⟨blm, lod + 1⟩ e.uv) c) s t

/-- 47_modes.md R124: APPLY completes and writes `Gamma(TM(combine(Sample(SRC, 0, uv), TentUpsample9(BLM, lod, uv) × INTENSITY, COMBINE_C)))`; everything else is as before. -/
def Obligations.ApplyWritesTonemappedBlend : Prop :=
  ∀ (lod input output bloom src blm : Nat) (target : LevelRef) (s : State) (n c : F),
    s.inBind[input]? = some (some src) → s.blBind[bloom]? = some (some blm) →
    s.outBind[output]? = some (some target) →
    readReg s.regs .intensity = some n → readReg s.regs .combineC = some c →
    PassReady (passApply ⟨blm, lod⟩ ⟨src, 0⟩ target) s →
    ∃ t, exec (.apply lod input output bloom) s = .next t ∧
      PassDone (encode (.apply lod input output bloom)) target (fun x y =>
        let e := invocationAt s target (x, y)
        display (e.bodyCtx.nth 4)
          (combine (e.bodyCtx.nth 2)
            (sampleTexel (e.bodyCtx.nth 1) s.images s.texels ⟨⟨src, 0⟩, e.uv.1, e.uv.2⟩).rgb
            (scaleColor (e.bodyCtx.nth 3)
              (tentUpsample9 (e.bodyCtx.nth 0) s.images s.texels ⟨blm, lod⟩ e.uv) n) c)) s t

/-- 47_modes.md R119: a dispatch whose slots resolve checks and runs the mode's pass, whose read set, registers and target are those of the table; every invocation samples every pair of the read set, and nothing outside it. -/
def Obligations.ModesReadTheirTable : Prop :=
  ∀ (i : Instr) (src blm : Nat) (target : LevelRef),
    (∀ s : State, s.Admits → Resolved i s src blm target →
      exec i s = .next (runPass (passOf i src blm target) (startDispatch (encode i) s))) ∧
    (passOf i src blm target).reads = readSet i src blm ∧
    (passOf i src blm target).regs = regsRead i ∧
    (passOf i src blm target).target = target ∧
    ∀ (e : Invocation),
      (∀ q ∈ (passOf i src blm target).samples e, q.ref ∈ readSet i src blm) ∧
      ∀ r ∈ readSet i src blm, ∃ q ∈ (passOf i src blm target).samples e, q.ref = r

/-- 41_decoder.md R84: a grid with no column or no row runs no invocation: the dispatch completes and no texel changes. -/
def Obligations.EmptyGridWritesNothing : Prop :=
  ∀ (i : Instr) (s : State) (src blm : Nat) (target : LevelRef), s.Admits →
    Resolved i s src blm target → ChecksPass i s src blm target → s.gridX = 0 ∨ s.gridY = 0 →
    ∃ t, exec i s = .next t ∧ t.status = .done ∧ t.k = s.k + 1 ∧ t.texels = s.texels

/-- Where every texel of the levels a mode reads is written and the guard is CORRECT, the dispatch completes, and a grid that covers the target leaves every texel of it written (20_memory.md R40, 41_decoder.md R84, 47_modes.md R130). -/
def Obligations.WrittenLevelsLetItComplete : Prop :=
  ∀ (i : Instr) (s : State) (src blm : Nat) (target : LevelRef), s.Admits →
    Resolved i s src blm target → ChecksPass i s src blm target → s.cfg.guardMode = .correct →
    (∀ r ∈ readSet i src blm, EveryTexel s.images s.texels r fun _ => True) →
    ∃ t, exec i s = .next t ∧ t.status = .done ∧
      ((levelSize s.images target).1 ≤ s.gridX → (levelSize s.images target).2 ≤ s.gridY →
        EveryTexel t.images t.texels target fun _ => True)

/-! ## Whole-machine rules -/

/-- 20_memory.md R49, 60_exceptions.md R148: no dispatch writes a register, a binding table, or any texel outside its target level, and none changes which levels exist; a dispatch of a reserved mode has no target and writes no texel at all. -/
def Obligations.DispatchWritesTargetOnly : Prop :=
  (∀ (i : Instr) (s t : State), exec i s = .next t →
    t.regs = s.regs ∧ t.inBind = s.inBind ∧ t.blBind = s.blBind ∧ t.outBind = s.outBind ∧ t.images = s.images ∧
    ∀ a : TexelAddr, s.outBind[i.fields.output]? ≠ some (some a.ref) → memRead t.texels a = memRead s.texels a) ∧
  ∀ (s t : State) (w : Word) (gx gy : Nat) (rest : List HostAction),
    s.program = .dispatch w gx gy :: rest → step s = .next t →
    t.regs = s.regs ∧ t.inBind = s.inBind ∧ t.blBind = s.blBind ∧ t.outBind = s.outBind ∧ t.images = s.images ∧
    ∀ a : TexelAddr, (∀ i, decode w = .ok i → s.outBind[i.fields.output]? ≠ some (some a.ref)) →
      memRead t.texels a = memRead s.texels a

/-- 20_memory.md R50, 60_exceptions.md R148: a dispatch learns nothing from texels outside its read set, its target's old content among them: with other texels there it ends the same and writes the same. -/
def Obligations.OnlyTheReadSetIsRead : Prop :=
  ∀ (i : Instr) (s t t' : State) (m : Memory) (src blm : Nat) (target : LevelRef),
    Resolved i s src blm target →
    (∀ a : TexelAddr, a.ref ∈ readSet i src blm → memRead m a = memRead s.texels a) →
    exec i s = .next t → exec i { s with texels := m } = .next t' →
    t'.status = t.status ∧ t'.k = t.k ∧
    (t.status = .done → ∀ x y, x < s.gridX → y < s.gridY →
      x < (levelSize s.images target).1 → y < (levelSize s.images target).2 →
      memRead t'.texels (storeAddr target x y) = memRead t.texels (storeAddr target x y))

/-- 20_memory.md R51: the invocations of a dispatch that completes may run one after another in any order, each seeing what the ones before it stored; memory ends the same. -/
def Obligations.AnyInvocationOrderGivesTheSame : Prop :=
  ∀ (i : Instr) (s t : State) (src blm : Nat) (target : LevelRef) (order : List (Nat × Nat)),
    Resolved i s src blm target → exec i s = .next t → t.status = .done →
    order.Perm (gridPoints s.gridX s.gridY) →
    ∀ a, memRead (runInOrder (passOf i src blm target) s order s.texels) a = memRead t.texels a

/-- 10_state.md R28, 47_modes.md R126: nothing of an earlier dispatch is remembered: with another DESC, another admitting STATUS and another `k`, a dispatch does the same. -/
def Obligations.ModeSelectionIsStateless : Prop :=
  ∀ (i : Instr) (s t : State) (desc : Option Word) (status : Status) (n : Nat),
    s.Admits → (status = .idle ∨ status = .done) → exec i s = .next t →
    exec i { s with desc := desc, status := status, k := n } = .next { t with k := n + (t.k - s.k) }

/-- 30_encoding.md R65: an ignored field has no effect: only the DESC left behind differs. -/
def Obligations.IgnoredBloomHasNoEffect : Prop :=
  ∀ (l i o b : Nat) (s t : State),
    (exec (.prefilter l i o 0) s = .next t →
      exec (.prefilter l i o b) s = .next { t with desc := some (encode (.prefilter l i o b)) }) ∧
    (exec (.downsample l i o 0) s = .next t →
      exec (.downsample l i o b) s = .next { t with desc := some (encode (.downsample l i o b)) }) ∧
    (exec (.upsampleFirst l i o 0) s = .next t →
      exec (.upsampleFirst l i o b) s = .next { t with desc := some (encode (.upsampleFirst l i o b)) })

/-! ## Images -/

/-- 20_memory.md R36, R32: `TexSize` is present exactly where the image has the level and neither dimension is zero; level 0 has the image's size and each level half of the one before, by floor. -/
def Obligations.LevelSizesHalve : Prop :=
  ∀ (images : List Image) (t : Nat) (im : Image), images[t]? = some im →
    (1 ≤ im.levels → levelSize images ⟨t, 0⟩ = (im.width, im.height)) ∧
    (∀ l, l + 1 < im.levels →
      levelSize images ⟨t, l + 1⟩ = ((levelSize images ⟨t, l⟩).1 / 2, (levelSize images ⟨t, l⟩).2 / 2)) ∧
    (∀ l, (l < im.levels ∧ (levelSize images ⟨t, l⟩).1 ≠ 0 ∧ (levelSize images ⟨t, l⟩).2 ≠ 0) ↔
      texSize images ⟨t, l⟩ = some (levelSize images ⟨t, l⟩)) ∧
    (∀ l, ¬ (l < im.levels ∧ (levelSize images ⟨t, l⟩).1 ≠ 0 ∧ (levelSize images ⟨t, l⟩).2 ≠ 0) ↔
      texSize images ⟨t, l⟩ = none)

/-- 20_memory.md R38: a sample's footprint lies inside its level, at every coordinate. -/
def Obligations.FootprintStaysInside : Prop :=
  ∀ (images : List Image) (q : SampleReq), (texSize images q.ref).isSome = true →
    ∀ a ∈ footprint images q, a.ref = q.ref ∧
      a.x < (levelSize images q.ref).1 ∧ a.y < (levelSize images q.ref).2

/-- 20_memory.md R38: in the reference configuration a sample at a texel's centre gives that texel's value in every channel, its neighbours being finite. -/
def Obligations.SampleAtCentreIsTheTexel : Prop :=
  ∀ (c : Ctx) (images : List Image) (m : Memory) (q : SampleReq) (i j : Nat),
    c.cfg = Params.reference → (texSize images q.ref).isSome = true →
    i < (levelSize images q.ref).1 → j < (levelSize images q.ref).2 →
    fFinite q.u = true → fFinite q.v = true →
    fRat q.u * (levelSize images q.ref).1 = i + 1 / 2 → fRat q.v * (levelSize images q.ref).2 = j + 1 / 2 →
    (∀ a ∈ sampleTaps images q, ∃ v, memRead m a = some v ∧ fFinite v.r = true ∧ fFinite v.g = true ∧
      fFinite v.b = true ∧ fFinite v.a = true) →
    ∃ v, memRead m (storeAddr q.ref i j) = some v ∧
      fRat (sampleTexel c images m q).r = fRat v.r ∧ fRat (sampleTexel c images m q).g = fRat v.g ∧
      fRat (sampleTexel c images m q).b = fRat v.b ∧ fRat (sampleTexel c images m q).a = fRat v.a

/-- 41_decoder.md R85: for a position below 2^23 and an output size up to 2^24 the sample position is the pixel centre over the output size, rounded once. -/
def Obligations.SamplePositionIsPixelCentre : Prop :=
  ∀ (s : State) (target : LevelRef) (x y : Nat), s.cfg.num = .reference →
    0 < (levelSize s.images target).1 → (levelSize s.images target).1 ≤ 2 ^ 24 →
    0 < (levelSize s.images target).2 → (levelSize s.images target).2 ≤ 2 ^ 24 →
    x < 2 ^ 23 → y < 2 ^ 23 →
    NearestEven (((x : ℚ) + 1 / 2) / (levelSize s.images target).1) (invocationAt s target (x, y)).uv.1 ∧
    NearestEven (((y : ℚ) + 1 / 2) / (levelSize s.images target).2) (invocationAt s target (x, y)).uv.2

/-! ## Numerics (40_numerics.md) -/

/-- 40_numerics.md R69, R79: the reference `add` and `sub` of finite values round the exact result once, to nearest even, and draw exactly where it overflows. -/
def Obligations.AddSubRoundOnce : Prop :=
  ∀ (c : Ctx) (a b : F), c.cfg.num = .reference → fFinite a = true → fFinite b = true →
    (¬ Overflows (fRat a + fRat b) → NearestEven (fRat a + fRat b) (numAdd c a b)) ∧
    (Overflows (fRat a + fRat b) → numAdd c a b = c.draw) ∧
    (¬ Overflows (fRat a - fRat b) → NearestEven (fRat a - fRat b) (numSub c a b)) ∧
    (Overflows (fRat a - fRat b) → numSub c a b = c.draw)

/-- 40_numerics.md R69, R79: the reference `mul` and `div` of finite values round the exact result once, to nearest even, and draw exactly where it overflows. -/
def Obligations.MulDivRoundOnce : Prop :=
  ∀ (c : Ctx) (a b : F), c.cfg.num = .reference → fFinite a = true → fFinite b = true →
    (¬ Overflows (fRat a * fRat b) → NearestEven (fRat a * fRat b) (numMul c a b)) ∧
    (Overflows (fRat a * fRat b) → numMul c a b = c.draw) ∧
    (fRat b ≠ 0 → ¬ Overflows (fRat a / fRat b) → NearestEven (fRat a / fRat b) (numDiv c a b)) ∧
    (fRat b ≠ 0 → Overflows (fRat a / fRat b) → numDiv c a b = c.draw)

/-- 40_numerics.md R79: an operation with an infinity or a NaN among its operands is a draw, whatever the numerics record. -/
def Obligations.NonFiniteOperandsDraw : Prop :=
  ∀ (c : Ctx) (a b : F), fFinite a = false ∨ fFinite b = false →
    numAdd c a b = c.draw ∧ numSub c a b = c.draw ∧ numMul c a b = c.draw ∧ numDiv c a b = c.draw ∧
    numPow c a b = c.draw ∧
    (fFinite a = false → numExp c a = c.draw)

/-- 40_numerics.md R76, R79: the reference `exp` is the nearest to the real `e^x`, ties to even, wherever the model's enclosure decides it; it is finite up to 88, decided or not; and it is a draw where `e^x` overflows. That an undecided operand, if there is one, gives either neighbour is the model's choice (assumption 13). -/
def Obligations.ExpIsNearest : Prop :=
  ∀ (c : Ctx) (x : F), c.cfg.num = .reference → fFinite x = true →
    (∀ v, expBetween (expArg x) (expArg x) = some v → numExp c x = v ∧ NearestReal (Real.exp (fRat x : ℝ)) v) ∧
    (fRat x ≤ 88 → fFinite (numExp c x) = true) ∧
    (2 ^ 128 - 2 ^ 103 ≤ Real.exp (fRat x : ℝ) → numExp c x = c.draw)

/-- 40_numerics.md R75, R69, R79: the reference `pow` of a positive base is the binary32 value nearest to the real `x^y`, ties to even, and a draw exactly where it overflows. R75 says nearest; that a tie goes to even is read from R69 (assumption 13). -/
def Obligations.PowIsNearest : Prop :=
  ∀ (c : Ctx) (x y : F), c.cfg.num = .reference → fFinite x = true → fFinite y = true → 0 < fRat x →
    ((fRat x : ℝ) ^ (fRat y : ℝ) < 2 ^ 128 - 2 ^ 103 → NearestReal ((fRat x : ℝ) ^ (fRat y : ℝ)) (numPow c x y)) ∧
    (2 ^ 128 - 2 ^ 103 ≤ (fRat x : ℝ) ^ (fRat y : ℝ) → numPow c x y = c.draw)

/-- 40_numerics.md R75: `pow` outside positive bases: zero for a zero base and a positive exponent, a draw for a negative base or a zero base with an exponent not above zero. -/
def Obligations.PowOutsidePositiveBases : Prop :=
  ∀ (c : Ctx) (x y : F), fFinite x = true → fFinite y = true →
    (fRat x = 0 → 0 < fRat y → fFinite (numPow c x y) = true ∧ fRat (numPow c x y) = 0) ∧
    (fRat x = 0 → fRat y ≤ 0 → numPow c x y = c.draw) ∧
    (fRat x < 0 → numPow c x y = c.draw)

/-- 40_numerics.md R78: a natural up to 2^24 converts exactly, and `x + 0.5` is exact below 2^23. -/
def Obligations.NaturalsConvertExactly : Prop :=
  ∀ (c : Ctx) (n : Nat), n ≤ 2 ^ 24 →
    fFinite (natToF c n) = true ∧ fRat (natToF c n) = n ∧
    (n < 2 ^ 23 → c.cfg.num = .reference → ∀ c' : Ctx, c'.cfg = c.cfg →
      fRat (numAdd c' (natToF c n) 0x3F000000#32) = n + 1 / 2)

/-- 40_numerics.md R71, R72, R73: `fmax`, `fmin`, `clamp` and `step` of finite values, by the order of their values; `clamp` with its bounds crossed and `fmax`, `fmin` with an operand that is not finite are draws. -/
def Obligations.OrderFunctions : Prop :=
  (∀ (c : Ctx) (a b : F), fFinite a = false ∨ fFinite b = false → fmax c a b = c.draw ∧ fmin c a b = c.draw) ∧
  ∀ (c : Ctx) (a b x : F), fFinite a = true → fFinite b = true → fFinite x = true →
    fmax c a b = (if fRat a < fRat b then b else a) ∧
    fmin c a b = (if fRat b < fRat a then b else a) ∧
    (fRat a ≤ fRat b → fRat (fClamp c x a b) = min (max (fRat x) (fRat a)) (fRat b)) ∧
    (fRat b < fRat a → fClamp c x a b = c.draw) ∧
    fRat (fStep c a x) = (if fRat x < fRat a then 0 else 1)

/-! ## Threshold, filters, combine, tonemap -/

/-- 42_threshold.md R92, R95: a colour whose brightness is at or below `TC1 = t - k` (and `TC1 ≤ TC0`) maps to zero in every channel. -/
def Obligations.BelowKneeIsBlack : Prop :=
  ∀ (c : Ctx) (k : F3) (t x y z : F), c.cfg.num = .reference →
    fFinite k.r = true → fFinite k.g = true → fFinite k.b = true →
    fFinite t = true → fFinite x = true → fFinite y = true → fFinite z = true →
    fRat x ≤ fRat t → 0 ≤ fRat y →
    0 ≤ max (max (fRat k.r) (fRat k.g)) (fRat k.b) → max (max (fRat k.r) (fRat k.g)) (fRat k.b) ≤ fRat x →
    fRat (quadraticThreshold c k t ⟨x, y, z⟩).r = 0 ∧
    fRat (quadraticThreshold c k t ⟨x, y, z⟩).g = 0 ∧
    fRat (quadraticThreshold c k t ⟨x, y, z⟩).b = 0

/-- 42_threshold.md R93: black maps to black for any parameters up to 2^30 in magnitude with `TC2` not negative (within which nothing overflows). -/
def Obligations.BlackStaysBlack : Prop :=
  ∀ (c : Ctx) (k : F3) (t x y z : F), c.cfg.num = .reference →
    fFinite k.r = true → fFinite k.g = true → fFinite k.b = true →
    fRat k.r = 0 → fRat k.g = 0 → fRat k.b = 0 →
    (∀ p ∈ [t, x, y, z], fFinite p = true ∧ |fRat p| ≤ 2 ^ 30) → 0 ≤ fRat y →
    fRat (quadraticThreshold c k t ⟨x, y, z⟩).r = 0 ∧
    fRat (quadraticThreshold c k t ⟨x, y, z⟩).g = 0 ∧
    fRat (quadraticThreshold c k t ⟨x, y, z⟩).b = 0

/-- 42_threshold.md R94: with `0 < k ≤ t`, the host's derivation of `TC1` to `TC3`, and a brightness from 0 to `t`, the scale is in [0, 1]; `t` up to 2^60, within which nothing overflows. -/
def Obligations.ScaleBoundedUpToThreshold : Prop :=
  ∀ (c : Ctx) (br t k x y z : F), c.cfg.num = .reference →
    fFinite br = true → fFinite t = true → fFinite k = true →
    0 < fRat k → fRat k ≤ fRat t → fRat t ≤ 2 ^ 60 → 0 ≤ fRat br → fRat br ≤ fRat t →
    NearestEven (fRat t - fRat k) x → NearestEven (2 * fRat k) y → NearestEven (1 / 4 / fRat k) z →
    fFinite (thresholdScale c br t ⟨x, y, z⟩) = true ∧
    0 ≤ fRat (thresholdScale c br t ⟨x, y, z⟩) ∧ fRat (thresholdScale c br t ⟨x, y, z⟩) ≤ 1

/-- 42_threshold.md R91: the prefilter cuts each channel at 20, and only from above, before the curve. -/
def Obligations.PrefilterCutsAtTwenty : Prop :=
  ∀ (c : Ctx) (k : F3) (t x y z : F),
    fFinite k.r = true → fFinite k.g = true → fFinite k.b = true →
    prefilter c k t x y z = quadraticThreshold (c.nth 0)
      ⟨if 20 < fRat k.r then 0x41A00000#32 else k.r, if 20 < fRat k.g then 0x41A00000#32 else k.g,
       if 20 < fRat k.b then 0x41A00000#32 else k.b⟩ t ⟨x, y, z⟩

/-- 43_box_downsample.md R96, R97, R98: the thirteen taps stand at `uv` plus their offset times the sampled level's texel size, the centre at `uv` itself; the filter is the sum over the samples there; and its effective weights, on tap values (naturals below 65536) for which every rounding is exact. -/
def Obligations.BoxWeights : Prop :=
  (∀ (c : Ctx) (f : BoxTap → F) (n : BoxTap → Nat), c.cfg.num = .reference →
    (∀ t, n t < 65536 ∧ fFinite (f t) = true ∧ fRat (f t) = n t) →
    fFinite (boxSum c f) = true ∧
    fRat (boxSum c f) = (n .A : ℚ) * (1 / 8) + ((n .G : ℚ) + n .I + n .J + n .L) * (1 / 16) +
      ((n .F : ℚ) + n .H + n .K + n .M) * (1 / 32) + ((n .B : ℚ) + n .C + n .D + n .E) * (1 / 8)) ∧
  (∀ (c : Ctx) (images : List Image) (r : LevelRef) (uv : F × F), c.cfg.num = .reference → LevelConverts images r →
    fFinite uv.1 = true → fFinite uv.2 = true → |fRat uv.1| ≤ 2 ^ 100 → |fRat uv.2| ≤ 2 ^ 100 →
    boxSample c images r uv .A = ⟨r, uv.1, uv.2⟩ ∧
    ∃ su sv : F, NearestEven (1 / (levelSize images r).1) su ∧ NearestEven (1 / (levelSize images r).2) sv ∧
      ∀ p ∈ ([(.B, -1 / 2, -1 / 2), (.C, 1 / 2, -1 / 2), (.D, -1 / 2, 1 / 2), (.E, 1 / 2, 1 / 2),
          (.F, -1, -1), (.G, 0, -1), (.H, 1, -1), (.I, -1, 0), (.J, 1, 0), (.K, -1, 1), (.L, 0, 1), (.M, 1, 1)] :
          List (BoxTap × ℚ × ℚ)),
        (boxSample c images r uv p.1).ref = r ∧
        NearestEven (fRat uv.1 + fRat su * p.2.1) (boxSample c images r uv p.1).u ∧
        NearestEven (fRat uv.2 + fRat sv * p.2.2) (boxSample c images r uv p.1).v) ∧
  ∀ (c : Ctx) (images : List Image) (m : Memory) (r : LevelRef) (uv : F × F),
    ∃ (cr cg cb : Ctx) (k : BoxTap → Ctx), cr.cfg = c.cfg ∧ cg.cfg = c.cfg ∧ cb.cfg = c.cfg ∧ (∀ t, (k t).cfg = c.cfg) ∧
      boxDownsample13 c images m r uv =
        ⟨boxSum cr fun t => (sampleTexel (k t) images m (boxSample c images r uv t)).r,
         boxSum cg fun t => (sampleTexel (k t) images m (boxSample c images r uv t)).g,
         boxSum cb fun t => (sampleTexel (k t) images m (boxSample c images r uv t)).b⟩

/-- 44_tent_upsample.md R101, R102, R104: the nine taps stand at `uv` plus -1, 0 or 1 times the spacing, which is the sampled level's texel size times `TENT_RADIUS`, the centre at `uv` itself; the filter is the sum over the samples there; and its weights are the outer product of (1, 2, 1) with itself over 16, on tap values (naturals below 65536) for which every rounding is exact. -/
def Obligations.TentWeights : Prop :=
  (∀ (c : Ctx) (f : TentOff → TentOff → F) (n : TentOff → TentOff → Nat), c.cfg.num = .reference →
    (∀ dx dy, n dx dy < 65536 ∧ fFinite (f dx dy) = true ∧ fRat (f dx dy) = n dx dy) →
    fFinite (tentSum c f) = true ∧
    fRat (tentSum c f) =
      (((n .neg .neg : ℚ) + 2 * n .zero .neg + n .pos .neg) +
       2 * ((n .neg .zero : ℚ) + 2 * n .zero .zero + n .pos .zero) +
       ((n .neg .pos : ℚ) + 2 * n .zero .pos + n .pos .pos)) / 16) ∧
  (∀ (c : Ctx) (images : List Image) (r : LevelRef) (uv : F × F), c.cfg.num = .reference → LevelConverts images r →
    fFinite uv.1 = true → fFinite uv.2 = true → |fRat uv.1| ≤ 2 ^ 100 → |fRat uv.2| ≤ 2 ^ 100 →
    fFinite c.cfg.tentRadius = true → |fRat c.cfg.tentRadius| ≤ 2 ^ 60 →
    tentSample c images r uv .zero .zero = ⟨r, uv.1, uv.2⟩ ∧
    ∃ su sv gu gv : F, NearestEven (1 / (levelSize images r).1) su ∧ NearestEven (1 / (levelSize images r).2) sv ∧
      NearestEven (fRat su * fRat c.cfg.tentRadius) gu ∧ NearestEven (fRat sv * fRat c.cfg.tentRadius) gv ∧
      ∀ p ∈ ([(.neg, -1), (.zero, 0), (.pos, 1)] : List (TentOff × ℚ)),
        ∀ q ∈ ([(.neg, -1), (.zero, 0), (.pos, 1)] : List (TentOff × ℚ)),
          (tentSample c images r uv p.1 q.1).ref = r ∧
          NearestEven (fRat uv.1 + fRat gu * p.2) (tentSample c images r uv p.1 q.1).u ∧
          NearestEven (fRat uv.2 + fRat gv * q.2) (tentSample c images r uv p.1 q.1).v) ∧
  ∀ (c : Ctx) (images : List Image) (m : Memory) (r : LevelRef) (uv : F × F),
    ∃ (cr cg cb : Ctx) (k : TentOff → TentOff → Ctx),
      cr.cfg = c.cfg ∧ cg.cfg = c.cfg ∧ cb.cfg = c.cfg ∧ (∀ dx dy, (k dx dy).cfg = c.cfg) ∧
      tentUpsample9 c images m r uv =
        ⟨tentSum cr fun dx dy => (sampleTexel (k dx dy) images m (tentSample c images r uv dx dy)).r,
         tentSum cg fun dx dy => (sampleTexel (k dx dy) images m (tentSample c images r uv dx dy)).g,
         tentSum cb fun dx dy => (sampleTexel (k dx dy) images m (tentSample c images r uv dx dy)).b⟩

/-- 44_tent_upsample.md R103: a constant colour in [0,1]³ survives the box filter and then the tent filter within 1e-3, in the reference configuration, wherever in the image the filters are placed. -/
def Obligations.ConstantSurvivesBoxThenTent : Prop :=
  ∀ (c : Ctx) (images images' : List Image) (m m' : Memory) (r r' : LevelRef) (k : F3) (uv : F × F),
    c.cfg = Params.reference → LevelConverts images r → LevelConverts images' r' →
    InUnit k.r → InUnit k.g → InUnit k.b → InUnit uv.1 → InUnit uv.2 →
    EveryTexel images m r (fun v => v = k) →
    EveryTexel images' m' r' (fun v => ∃ (c' : Ctx) (uv' : F × F),
      c'.cfg = Params.reference ∧ InUnit uv'.1 ∧ InUnit uv'.2 ∧ v = boxDownsample13 c' images m r uv') →
    Near (1 / 1000) k.r (tentUpsample9 c images' m' r' uv).r ∧
    Near (1 / 1000) k.g (tentUpsample9 c images' m' r' uv).g ∧
    Near (1 / 1000) k.b (tentUpsample9 c images' m' r' uv).b

/-- 45_combine.md R106: at `c = 0` the new contribution, at `c = 1` the existing content where the difference is exact. -/
def Obligations.CombineEndPoints : Prop :=
  ∀ (c : Ctx) (e n k : F), c.cfg.num = .reference →
    fFinite e = true → fFinite n = true → fFinite k = true →
    (fRat k = 0 → ¬ Overflows (fRat e - fRat n) → fRat (combineChannel c e n k) = fRat n) ∧
    (fRat k = 1 → (∃ z : F, fFinite z = true ∧ fRat z = fRat e - fRat n) →
      fRat (combineChannel c e n k) = fRat e)

/-- 46_tonemap.md R111, 40_numerics.md R73: the GT weights, in the reference configuration: (1, 0, 0) up to 0; between 0 and `m`, `w0` is 1 less the smoothstep of `x / m`, in [0, 1], `w1` is 1 less `w0`, and `w2` is 0; (0, 1, 0) from `m` to below `S0`; (0, 0, 1) from `S0`. -/
def Obligations.GtWeightsSelectThePiece : Prop :=
  ∀ (c : Ctx) (x : F), c.cfg = Params.reference → fFinite x = true → |fRat x| ≤ 2 ^ 100 →
    gtS0 c.cfg = 0x3F1EB852#32 ∧
    (fRat x ≤ 0 → fRat (gtW0 c x) = 1 ∧ fRat (gtW1 c x) = 0 ∧ fRat (gtW2 c x) = 0) ∧
    (0 < fRat x → fRat x < fRat gtM →
      (∃ t a b d v : F, NearestEven (fRat x / fRat gtM) t ∧ NearestEven (fRat t * fRat t) a ∧
        NearestEven (2 * fRat t) b ∧ NearestEven (3 - fRat b) d ∧ NearestEven (fRat a * fRat d) v ∧
        NearestEven (1 - fRat v) (gtW0 c x)) ∧
      InUnit (gtW0 c x) ∧ NearestEven (1 - fRat (gtW0 c x)) (gtW1 c x) ∧ fRat (gtW2 c x) = 0) ∧
    (fRat gtM ≤ fRat x → fRat x < fRat 0x3F1EB852#32 →
      fRat (gtW0 c x) = 0 ∧ fRat (gtW1 c x) = 1 ∧ fRat (gtW2 c x) = 0) ∧
    (fRat 0x3F1EB852#32 ≤ fRat x → fRat (gtW0 c x) = 0 ∧ fRat (gtW1 c x) = 0 ∧ fRat (gtW2 c x) = 1)

/-- 46_tonemap.md R115: the ACES curve of a value from 0 to 2^60 (within which nothing overflows) lies in [0, 1], and is 0 at 0. -/
def Obligations.AcesStaysInUnit : Prop :=
  ∀ (c : Ctx) (x : F), c.cfg.num = .reference → fFinite x = true → 0 ≤ fRat x → fRat x ≤ 2 ^ 60 →
    InUnit (acesTonemap c x) ∧ (fRat x = 0 → fRat (acesTonemap c x) = 0)

/-- 46_tonemap.md R112, R113, R114: the three GT pieces and the GT curve, in the reference configuration, for `x` from 0 to 2^60 (within which nothing overflows): each piece as its formula rounds, `GT(0) = 0`, the blend of toe and linear piece between 0 and `m`, the linear piece from `m` to below `S0`, the shoulder from `S0`. The constants are `S0`, `P - S1` and `CP` of R110. -/
def Obligations.GtFollowsItsPieces : Prop :=
  ∀ (c : Ctx) (x : F), c.cfg = Params.reference → fFinite x = true → 0 ≤ fRat x → fRat x ≤ 2 ^ 60 →
    (∃ q p : F, NearestEven (fRat x / fRat gtM) q ∧ NearestReal ((fRat q : ℝ) ^ (fRat gtC : ℝ)) p ∧
      NearestEven (fRat gtM * fRat p) (gtToe c x)) ∧
    (∃ d : F, NearestEven (fRat x - fRat gtM) d ∧ NearestEven (fRat gtM + fRat d) (gtLinear c x)) ∧
    (∃ (k : Ctx) (d z f : F), k.cfg = c.cfg ∧ NearestEven (fRat x - fRat 0x3F1EB852#32) d ∧
      NearestEven (fRat 0xC0286BCA#32 * fRat d) z ∧ fFinite (numExp k z) = true ∧
      NearestEven (fRat 0x3EC28F5C#32 * fRat (numExp k z)) f ∧ NearestEven (1 - fRat f) (gtShoulder c x)) ∧
    (fRat x = 0 → fRat (gtTonemap c x) = 0) ∧
    (0 < fRat x → fRat x < fRat gtM →
      ∃ a b : F, NearestEven (fRat (gtToe c x) * fRat (gtW0 c x)) a ∧
        NearestEven (fRat (gtLinear c x) * fRat (gtW1 c x)) b ∧ NearestEven (fRat a + fRat b) (gtTonemap c x)) ∧
    (fRat gtM ≤ fRat x → fRat x < fRat 0x3F1EB852#32 →
      fFinite (gtTonemap c x) = true ∧ fRat (gtTonemap c x) = fRat (gtLinear c x)) ∧
    (fRat 0x3F1EB852#32 ≤ fRat x →
      fFinite (gtTonemap c x) = true ∧ fRat (gtTonemap c x) = fRat (gtShoulder c x))
end

