-- ==== Sys2Proof/Laws/Decode.lean ====
section
/-! SUPPORT. Bounds of the decoded fields, and the encoded word as a sum. -/

namespace Sys2Proof

theorem bitField_lt (w : Word) (lo width : Nat) : bitField w lo width < 2 ^ width :=
  Nat.mod_lt _ (Nat.two_pow_pos width)

theorem decodeFields_mode_lt (w : Word) : (decodeFields w).mode < 16 := bitField_lt w 28 4
theorem decodeFields_lod_lt (w : Word) : (decodeFields w).lod < 128 := bitField_lt w 21 7
theorem decodeFields_input_lt (w : Word) : (decodeFields w).input < 128 := bitField_lt w 14 7
theorem decodeFields_output_lt (w : Word) : (decodeFields w).output < 128 := bitField_lt w 7 7
theorem decodeFields_bloom_lt (w : Word) : (decodeFields w).bloom < 128 := bitField_lt w 0 7

/-- Fields that fit their widths do not overlap in the word. -/
theorem encodeFields_toNat {t : Fields} (hm : t.mode < 16) (hl : t.lod < 128) (hi : t.input < 128)
    (ho : t.output < 128) (hb : t.bloom < 128) :
    (encodeFields t).toNat = t.mode * 2 ^ 28 + t.lod * 2 ^ 21 + t.input * 2 ^ 14 + t.output * 2 ^ 7 + t.bloom := by
  have e : t.mode <<< 28 ||| t.lod <<< 21 ||| t.input <<< 14 ||| t.output <<< 7 ||| t.bloom =
      (((t.mode * 2 ^ 7 + t.lod) * 2 ^ 7 + t.input) * 2 ^ 7 + t.output) * 2 ^ 7 + t.bloom := by
    have step : ∀ a b : Nat, b < 2 ^ 7 → a <<< 7 ||| b = a * 2 ^ 7 + b := fun a b h => by
      rw [← Nat.shiftLeft_add_eq_or_of_lt h, Nat.shiftLeft_eq]
    rw [← step _ _ hb, ← step _ _ ho, ← step _ _ hi, ← step _ _ hl]
    simp only [Nat.shiftLeft_or_distrib, ← Nat.shiftLeft_add]
  unfold encodeFields
  rw [e, BitVec.toNat_ofNat, Nat.mod_eq_of_lt]
  · ring
  · omega

theorem Instr.ofFields_fields (i : Instr) : Instr.ofFields i.fields = .ok i := by
  cases i <;> rfl

end Sys2Proof
end

