-- ==== Sys2Proof/Laws/Memory.lean ====
section
/-! SUPPORT. The laws of image memory: reads after writes, and the canonical form every operation keeps. -/

namespace Sys2Proof.Machine

/-! ### The order of addresses -/

theorem before_iff (a b : TexelAddr) : a.before b = true ↔
    (a.image < b.image ∨ (a.image = b.image ∧
      (a.level < b.level ∨ (a.level = b.level ∧
        (a.x < b.x ∨ (a.x = b.x ∧ a.y < b.y)))))) := by
  simp [TexelAddr.before]

theorem before_trans {a b c : TexelAddr} (h1 : a.before b = true) (h2 : b.before c = true) :
    a.before c = true := by
  rw [before_iff] at *; omega

theorem before_ne {a b : TexelAddr} (h : a.before b = true) : a ≠ b := by
  rintro rfl; rw [before_iff] at h; omega

theorem before_total {a b : TexelAddr} (h1 : a ≠ b) (h2 : a.before b = false) : b.before a = true := by
  have h2' : ¬ a.before b = true := by simp [h2]
  rw [before_iff] at *
  have : ¬ (a.image = b.image ∧ a.level = b.level ∧ a.x = b.x ∧ a.y = b.y) := by
    rintro ⟨e1, e2, e3, e4⟩; exact h1 (by cases a; cases b; simp_all)
  omega

/-! ### The canonical form -/

theorem wf_cons {a : TexelAddr} {v : F4} {m : Memory} :
    Memory.wf ((a, v) :: m) = true ↔ (∀ p ∈ m, a.before p.1 = true) ∧ Memory.wf m = true := by
  induction m generalizing a v with
  | nil => simp [Memory.wf]
  | cons p m ih =>
    obtain ⟨b, w⟩ := p
    simp only [Memory.wf, Bool.and_eq_true, List.mem_cons, forall_eq_or_imp]
    rw [ih]
    constructor
    · rintro ⟨h, h2, h3⟩; exact ⟨⟨h, fun p hp => before_trans h (h2 p hp)⟩, h2, h3⟩
    · rintro ⟨⟨h, _⟩, h2, h3⟩; exact ⟨h, h2, h3⟩

theorem wf_nil : Memory.wf [] = true := rfl

/-! ### Reads -/

@[simp] theorem memRead_nil (a : TexelAddr) : memRead [] a = none := rfl

theorem memRead_eq_none {m : Memory} {a : TexelAddr} (h : ∀ p ∈ m, p.1 ≠ a) : memRead m a = none := by
  induction m with
  | nil => rfl
  | cons p m ih =>
    obtain ⟨b, w⟩ := p
    simp only [List.mem_cons, forall_eq_or_imp] at h
    simp [memRead, Ne.symm h.1, ih h.2]

theorem mem_of_memRead {m : Memory} {a : TexelAddr} {v : F4} (h : memRead m a = some v) : (a, v) ∈ m := by
  induction m with
  | nil => simp at h
  | cons p m ih =>
    obtain ⟨b, w⟩ := p
    simp only [memRead] at h
    split at h <;> simp_all

/-- In canonical form an address is listed at most once, and a read finds it. -/
theorem memRead_of_mem {m : Memory} (hw : Memory.wf m = true) {a : TexelAddr} {v : F4} (h : (a, v) ∈ m) :
    memRead m a = some v := by
  induction m with
  | nil => simp at h
  | cons p m ih =>
    obtain ⟨b, w⟩ := p
    rw [wf_cons] at hw
    simp only [List.mem_cons, Prod.mk.injEq] at h
    rcases h with ⟨rfl, rfl⟩ | h
    · simp [memRead]
    · simp [memRead, (before_ne (hw.1 _ h)).symm, ih hw.2 h]

/-! ### Writes -/

@[simp] theorem memRead_memWrite_same (m : Memory) (a : TexelAddr) (v : F4) :
    memRead (memWrite m a v) a = some v := by
  induction m with
  | nil => simp [memWrite, memRead]
  | cons p m ih =>
    obtain ⟨b, w⟩ := p
    simp only [memWrite]
    split
    · simp [memRead]
    · split
      · simp [memRead]
      · simp [memRead, *]

theorem memRead_memWrite_other (m : Memory) {a b : TexelAddr} (v : F4) (h : b ≠ a) :
    memRead (memWrite m a v) b = memRead m b := by
  induction m with
  | nil => simp [memWrite, memRead, h]
  | cons p m ih =>
    obtain ⟨c, w⟩ := p
    simp only [memWrite]
    split
    · rename_i hc; subst hc; simp [memRead, h]
    · split
      · simp [memRead, h]
      · simp [memRead, ih]

theorem mem_memWrite {m : Memory} {a : TexelAddr} {v : F4} {p : TexelAddr × F4} (h : p ∈ memWrite m a v) :
    p = (a, v) ∨ p ∈ m := by
  induction m with
  | nil => simpa [memWrite] using h
  | cons q m ih =>
    obtain ⟨b, w⟩ := q
    simp only [memWrite] at h
    split at h
    · simp only [List.mem_cons] at h ⊢; tauto
    · split at h
      · simp only [List.mem_cons] at h ⊢; tauto
      · simp only [List.mem_cons] at h ⊢
        rcases h with h | h
        · tauto
        · rcases ih h with h | h <;> tauto

theorem memWrite_wf {m : Memory} (h : Memory.wf m = true) (a : TexelAddr) (v : F4) :
    Memory.wf (memWrite m a v) = true := by
  induction m with
  | nil => rfl
  | cons p m ih =>
    obtain ⟨b, w⟩ := p
    have hc := wf_cons.1 h
    simp only [memWrite]
    split
    · rename_i hab; subst hab; exact wf_cons.2 ⟨hc.1, hc.2⟩
    · rename_i hab
      split
      · rename_i hlt
        refine wf_cons.2 ⟨?_, h⟩
        simp only [List.mem_cons, forall_eq_or_imp]
        exact ⟨hlt, fun p hp => before_trans hlt (hc.1 p hp)⟩
      · rename_i hlt
        refine wf_cons.2 ⟨fun p hp => ?_, ih hc.2⟩
        rcases mem_memWrite hp with rfl | hp
        · exact before_total hab (by simpa using hlt)
        · exact hc.1 p hp

/-! ### Erasing -/

theorem mem_memErase {m : Memory} {a : TexelAddr} {p : TexelAddr × F4} (h : p ∈ memErase m a) : p ∈ m := by
  induction m with
  | nil => simp [memErase] at h
  | cons q m ih =>
    obtain ⟨b, w⟩ := q
    simp only [memErase] at h
    split at h
    · simp [h]
    · simp only [List.mem_cons] at h ⊢
      rcases h with h | h
      · exact .inl h
      · exact .inr (ih h)

theorem memErase_wf {m : Memory} (h : Memory.wf m = true) (a : TexelAddr) : Memory.wf (memErase m a) = true := by
  induction m with
  | nil => rfl
  | cons p m ih =>
    obtain ⟨b, w⟩ := p
    have hc := wf_cons.1 h
    simp only [memErase]
    split
    · exact hc.2
    · exact wf_cons.2 ⟨fun p hp => hc.1 p (mem_memErase hp), ih hc.2⟩

theorem memRead_memErase_other (m : Memory) {a b : TexelAddr} (h : b ≠ a) :
    memRead (memErase m a) b = memRead m b := by
  induction m with
  | nil => rfl
  | cons p m ih =>
    obtain ⟨c, w⟩ := p
    simp only [memErase]
    split
    · rename_i hc; subst hc; simp [memRead, h]
    · simp [memRead, ih]

theorem memRead_memErase_same {m : Memory} (hw : Memory.wf m = true) (a : TexelAddr) :
    memRead (memErase m a) a = none := by
  induction m with
  | nil => rfl
  | cons p m ih =>
    obtain ⟨c, w⟩ := p
    have hc := wf_cons.1 hw
    simp only [memErase]
    split
    · rename_i h; subst h
      exact memRead_eq_none fun p hp => (before_ne (hc.1 p hp)).symm
    · rename_i h; simp [memRead, h, ih hc.2]

/-! ### Equal reads make equal memories -/

/-- Two memories in canonical form that read alike are the same list. -/
theorem memory_ext {m n : Memory} (hm : Memory.wf m = true) (hn : Memory.wf n = true)
    (h : ∀ a, memRead m a = memRead n a) : m = n := by
  induction m generalizing n with
  | nil =>
    cases n with
    | nil => rfl
    | cons p n => obtain ⟨b, w⟩ := p; have := h b; simp [memRead] at this
  | cons p m ih =>
    obtain ⟨a, v⟩ := p
    cases n with
    | nil => have := h a; simp [memRead] at this
    | cons q n =>
      obtain ⟨b, w⟩ := q
      have hm' := wf_cons.1 hm
      have hn' := wf_cons.1 hn
      have hab : a = b := by
        by_contra hne
        have h1 := h a
        have h2 := h b
        simp only [memRead, if_true, if_neg hne, if_neg (Ne.symm hne)] at h1 h2
        have m1 := mem_of_memRead h1.symm
        have m2 := mem_of_memRead h2
        have b1 := hn'.1 _ m1
        have b2 := hm'.1 _ m2
        exact before_ne (before_trans b1 b2) rfl
      subst hab
      have hv : v = w := by have := h a; simpa [memRead] using this
      subst hv
      congr 1
      refine ih hm'.2 hn'.2 fun c => ?_
      by_cases hc : c = a
      · subst hc
        rw [memRead_eq_none fun p hp => (before_ne (hm'.1 p hp)).symm,
          memRead_eq_none fun p hp => (before_ne (hn'.1 p hp)).symm]
      · have := h c; simpa [memRead, hc] using this

end Sys2Proof.Machine
end

