-- ==== Sys2Proof/Laws/State.lean ====
section
/-! SUPPORT. One lemma per field per update of the state, so that no proof unfolds a record update. -/

namespace Sys2Proof.Machine

@[simp] theorem startDispatch_cfg (w : Word) (s : State) : (startDispatch w s).cfg = s.cfg := rfl
@[simp] theorem startDispatch_regs (w : Word) (s : State) : (startDispatch w s).regs = s.regs := rfl
@[simp] theorem startDispatch_desc (w : Word) (s : State) : (startDispatch w s).desc = some w := rfl
@[simp] theorem startDispatch_gridX (w : Word) (s : State) : (startDispatch w s).gridX = s.gridX := rfl
@[simp] theorem startDispatch_gridY (w : Word) (s : State) : (startDispatch w s).gridY = s.gridY := rfl
@[simp] theorem startDispatch_inBind (w : Word) (s : State) : (startDispatch w s).inBind = s.inBind := rfl
@[simp] theorem startDispatch_blBind (w : Word) (s : State) : (startDispatch w s).blBind = s.blBind := rfl
@[simp] theorem startDispatch_outBind (w : Word) (s : State) : (startDispatch w s).outBind = s.outBind := rfl
@[simp] theorem startDispatch_status (w : Word) (s : State) : (startDispatch w s).status = .busy := rfl
@[simp] theorem startDispatch_k (w : Word) (s : State) : (startDispatch w s).k = s.k := rfl
@[simp] theorem startDispatch_images (w : Word) (s : State) : (startDispatch w s).images = s.images := rfl
@[simp] theorem startDispatch_texels (w : Word) (s : State) : (startDispatch w s).texels = s.texels := rfl
@[simp] theorem startDispatch_program (w : Word) (s : State) : (startDispatch w s).program = s.program := rfl
@[simp] theorem startDispatch_draws (w : Word) (s : State) : (startDispatch w s).draws = s.draws := rfl

@[simp] theorem finishDispatch_cfg (m : Memory) (s : State) : (finishDispatch m s).cfg = s.cfg := rfl
@[simp] theorem finishDispatch_regs (m : Memory) (s : State) : (finishDispatch m s).regs = s.regs := rfl
@[simp] theorem finishDispatch_desc (m : Memory) (s : State) : (finishDispatch m s).desc = s.desc := rfl
@[simp] theorem finishDispatch_gridX (m : Memory) (s : State) : (finishDispatch m s).gridX = s.gridX := rfl
@[simp] theorem finishDispatch_gridY (m : Memory) (s : State) : (finishDispatch m s).gridY = s.gridY := rfl
@[simp] theorem finishDispatch_inBind (m : Memory) (s : State) : (finishDispatch m s).inBind = s.inBind := rfl
@[simp] theorem finishDispatch_blBind (m : Memory) (s : State) : (finishDispatch m s).blBind = s.blBind := rfl
@[simp] theorem finishDispatch_outBind (m : Memory) (s : State) : (finishDispatch m s).outBind = s.outBind := rfl
@[simp] theorem finishDispatch_status (m : Memory) (s : State) : (finishDispatch m s).status = .done := rfl
@[simp] theorem finishDispatch_k (m : Memory) (s : State) : (finishDispatch m s).k = s.k + 1 := rfl
@[simp] theorem finishDispatch_images (m : Memory) (s : State) : (finishDispatch m s).images = s.images := rfl
@[simp] theorem finishDispatch_texels (m : Memory) (s : State) : (finishDispatch m s).texels = m := rfl
@[simp] theorem finishDispatch_program (m : Memory) (s : State) : (finishDispatch m s).program = s.program := rfl
@[simp] theorem finishDispatch_draws (m : Memory) (s : State) : (finishDispatch m s).draws = s.draws + 1 := rfl

@[simp] theorem raiseFault_cfg (f : FaultRecord) (s : State) : (raiseFault f s).cfg = s.cfg := rfl
@[simp] theorem raiseFault_regs (f : FaultRecord) (s : State) : (raiseFault f s).regs = s.regs := rfl
@[simp] theorem raiseFault_desc (f : FaultRecord) (s : State) : (raiseFault f s).desc = s.desc := rfl
@[simp] theorem raiseFault_gridX (f : FaultRecord) (s : State) : (raiseFault f s).gridX = s.gridX := rfl
@[simp] theorem raiseFault_gridY (f : FaultRecord) (s : State) : (raiseFault f s).gridY = s.gridY := rfl
@[simp] theorem raiseFault_inBind (f : FaultRecord) (s : State) : (raiseFault f s).inBind = s.inBind := rfl
@[simp] theorem raiseFault_blBind (f : FaultRecord) (s : State) : (raiseFault f s).blBind = s.blBind := rfl
@[simp] theorem raiseFault_outBind (f : FaultRecord) (s : State) : (raiseFault f s).outBind = s.outBind := rfl
@[simp] theorem raiseFault_status (f : FaultRecord) (s : State) : (raiseFault f s).status = .fault f := rfl
@[simp] theorem raiseFault_k (f : FaultRecord) (s : State) : (raiseFault f s).k = s.k := rfl
@[simp] theorem raiseFault_images (f : FaultRecord) (s : State) : (raiseFault f s).images = s.images := rfl
@[simp] theorem raiseFault_texels (f : FaultRecord) (s : State) : (raiseFault f s).texels = s.texels := rfl
@[simp] theorem raiseFault_program (f : FaultRecord) (s : State) : (raiseFault f s).program = s.program := rfl
@[simp] theorem raiseFault_draws (f : FaultRecord) (s : State) : (raiseFault f s).draws = s.draws := rfl

@[simp] theorem raiseInvocationFault_cfg (f : FaultRecord) (t : LevelRef) (s : State) : (raiseInvocationFault f t s).cfg = s.cfg := rfl
@[simp] theorem raiseInvocationFault_regs (f : FaultRecord) (t : LevelRef) (s : State) : (raiseInvocationFault f t s).regs = s.regs := rfl
@[simp] theorem raiseInvocationFault_desc (f : FaultRecord) (t : LevelRef) (s : State) : (raiseInvocationFault f t s).desc = s.desc := rfl
@[simp] theorem raiseInvocationFault_gridX (f : FaultRecord) (t : LevelRef) (s : State) : (raiseInvocationFault f t s).gridX = s.gridX := rfl
@[simp] theorem raiseInvocationFault_gridY (f : FaultRecord) (t : LevelRef) (s : State) : (raiseInvocationFault f t s).gridY = s.gridY := rfl
@[simp] theorem raiseInvocationFault_inBind (f : FaultRecord) (t : LevelRef) (s : State) : (raiseInvocationFault f t s).inBind = s.inBind := rfl
@[simp] theorem raiseInvocationFault_blBind (f : FaultRecord) (t : LevelRef) (s : State) : (raiseInvocationFault f t s).blBind = s.blBind := rfl
@[simp] theorem raiseInvocationFault_outBind (f : FaultRecord) (t : LevelRef) (s : State) : (raiseInvocationFault f t s).outBind = s.outBind := rfl
@[simp] theorem raiseInvocationFault_status (f : FaultRecord) (t : LevelRef) (s : State) : (raiseInvocationFault f t s).status = .fault f := rfl
@[simp] theorem raiseInvocationFault_k (f : FaultRecord) (t : LevelRef) (s : State) : (raiseInvocationFault f t s).k = s.k := rfl
@[simp] theorem raiseInvocationFault_images (f : FaultRecord) (t : LevelRef) (s : State) : (raiseInvocationFault f t s).images = s.images := rfl
@[simp] theorem raiseInvocationFault_texels (f : FaultRecord) (t : LevelRef) (s : State) : (raiseInvocationFault f t s).texels = drawLevel s t := rfl
@[simp] theorem raiseInvocationFault_program (f : FaultRecord) (t : LevelRef) (s : State) : (raiseInvocationFault f t s).program = s.program := rfl
@[simp] theorem raiseInvocationFault_draws (f : FaultRecord) (t : LevelRef) (s : State) : (raiseInvocationFault f t s).draws = s.draws + 1 := rfl

@[simp] theorem presentGrid_cfg (gx gy : Nat) (s : State) : (presentGrid gx gy s).cfg = s.cfg := rfl
@[simp] theorem presentGrid_regs (gx gy : Nat) (s : State) : (presentGrid gx gy s).regs = s.regs := rfl
@[simp] theorem presentGrid_desc (gx gy : Nat) (s : State) : (presentGrid gx gy s).desc = s.desc := rfl
@[simp] theorem presentGrid_gridX (gx gy : Nat) (s : State) : (presentGrid gx gy s).gridX = gx := rfl
@[simp] theorem presentGrid_gridY (gx gy : Nat) (s : State) : (presentGrid gx gy s).gridY = gy := rfl
@[simp] theorem presentGrid_inBind (gx gy : Nat) (s : State) : (presentGrid gx gy s).inBind = s.inBind := rfl
@[simp] theorem presentGrid_blBind (gx gy : Nat) (s : State) : (presentGrid gx gy s).blBind = s.blBind := rfl
@[simp] theorem presentGrid_outBind (gx gy : Nat) (s : State) : (presentGrid gx gy s).outBind = s.outBind := rfl
@[simp] theorem presentGrid_status (gx gy : Nat) (s : State) : (presentGrid gx gy s).status = s.status := rfl
@[simp] theorem presentGrid_k (gx gy : Nat) (s : State) : (presentGrid gx gy s).k = s.k := rfl
@[simp] theorem presentGrid_images (gx gy : Nat) (s : State) : (presentGrid gx gy s).images = s.images := rfl
@[simp] theorem presentGrid_texels (gx gy : Nat) (s : State) : (presentGrid gx gy s).texels = s.texels := rfl
@[simp] theorem presentGrid_program (gx gy : Nat) (s : State) : (presentGrid gx gy s).program = s.program := rfl
@[simp] theorem presentGrid_draws (gx gy : Nat) (s : State) : (presentGrid gx gy s).draws = s.draws := rfl

@[simp] theorem loadWord_cfg (w : Word) (s : State) : (loadWord w s).cfg = s.cfg := rfl
@[simp] theorem loadWord_regs (w : Word) (s : State) : (loadWord w s).regs = s.regs := rfl
@[simp] theorem loadWord_desc (w : Word) (s : State) : (loadWord w s).desc = s.desc := rfl
@[simp] theorem loadWord_gridX (w : Word) (s : State) : (loadWord w s).gridX = s.gridX := rfl
@[simp] theorem loadWord_gridY (w : Word) (s : State) : (loadWord w s).gridY = s.gridY := rfl
@[simp] theorem loadWord_inBind (w : Word) (s : State) : (loadWord w s).inBind = s.inBind := rfl
@[simp] theorem loadWord_blBind (w : Word) (s : State) : (loadWord w s).blBind = s.blBind := rfl
@[simp] theorem loadWord_outBind (w : Word) (s : State) : (loadWord w s).outBind = s.outBind := rfl
@[simp] theorem loadWord_status (w : Word) (s : State) : (loadWord w s).status = admittingStatus s.status := rfl
@[simp] theorem loadWord_k (w : Word) (s : State) : (loadWord w s).k = s.k := rfl
@[simp] theorem loadWord_images (w : Word) (s : State) : (loadWord w s).images = s.images := rfl
@[simp] theorem loadWord_texels (w : Word) (s : State) : (loadWord w s).texels = s.texels := rfl
@[simp] theorem loadWord_program (w : Word) (s : State) : (loadWord w s).program = .dispatch w tileX tileY :: s.program := rfl
@[simp] theorem loadWord_draws (w : Word) (s : State) : (loadWord w s).draws = s.draws := rfl

@[simp] theorem invocationAt_start (s : State) (t : LevelRef) (q : Nat × Nat) : (invocationAt s t q).start = s := rfl
@[simp] theorem invocationAt_target (s : State) (t : LevelRef) (q : Nat × Nat) : (invocationAt s t q).target = t := rfl
@[simp] theorem invocationAt_width (s : State) (t : LevelRef) (q : Nat × Nat) : (invocationAt s t q).width = (levelSize s.images t).1 := rfl
@[simp] theorem invocationAt_height (s : State) (t : LevelRef) (q : Nat × Nat) : (invocationAt s t q).height = (levelSize s.images t).2 := rfl
@[simp] theorem invocationAt_x (s : State) (t : LevelRef) (q : Nat × Nat) : (invocationAt s t q).x = q.1 := rfl
@[simp] theorem invocationAt_y (s : State) (t : LevelRef) (q : Nat × Nat) : (invocationAt s t q).y = q.2 := rfl

@[simp] theorem passPrefilter_reads (src t : LevelRef) : (passPrefilter src t).reads = [src] := rfl
@[simp] theorem passPrefilter_regs (src t : LevelRef) : (passPrefilter src t).regs = [.tc0, .tc1, .tc2, .tc3] := rfl
@[simp] theorem passPrefilter_target (src t : LevelRef) : (passPrefilter src t).target = t := rfl
@[simp] theorem passDownsample_reads (src t : LevelRef) : (passDownsample src t).reads = [src] := rfl
@[simp] theorem passDownsample_regs (src t : LevelRef) : (passDownsample src t).regs = [] := rfl
@[simp] theorem passDownsample_target (src t : LevelRef) : (passDownsample src t).target = t := rfl
@[simp] theorem passUpsampleFirst_reads (tent ex t : LevelRef) : (passUpsampleFirst tent ex t).reads = [tent, ex] := rfl
@[simp] theorem passUpsampleFirst_regs (tent ex t : LevelRef) : (passUpsampleFirst tent ex t).regs = [.combineC] := rfl
@[simp] theorem passUpsampleFirst_target (tent ex t : LevelRef) : (passUpsampleFirst tent ex t).target = t := rfl
@[simp] theorem passUpsample_reads (tent ex t : LevelRef) : (passUpsample tent ex t).reads = [tent, ex] := rfl
@[simp] theorem passUpsample_regs (tent ex t : LevelRef) : (passUpsample tent ex t).regs = [.combineC] := rfl
@[simp] theorem passUpsample_target (tent ex t : LevelRef) : (passUpsample tent ex t).target = t := rfl
@[simp] theorem passApply_reads (tent ex t : LevelRef) : (passApply tent ex t).reads = [tent, ex] := rfl
@[simp] theorem passApply_regs (tent ex t : LevelRef) : (passApply tent ex t).regs = [.intensity, .combineC] := rfl
@[simp] theorem passApply_target (tent ex t : LevelRef) : (passApply tent ex t).target = t := rfl

end Sys2Proof.Machine
end

