-- ==== Sys2Proof/Laws/Grid.lean ====
section
/-! SUPPORT. The grid of a dispatch: which positions it has, what its stores do to memory, what a drawn level leaves. -/

namespace Sys2Proof.Machine

/-! ### Positions (41_decoder.md R84) -/

@[simp] theorem mem_gridPoints {gx gy : Nat} {q : Nat × Nat} : q ∈ gridPoints gx gy ↔ q.1 < gx ∧ q.2 < gy := by
  obtain ⟨x, y⟩ := q
  simp only [gridPoints, List.mem_flatMap, List.mem_range, List.mem_map, Prod.mk.injEq]
  constructor
  · rintro ⟨y', hy, x', hx, rfl, rfl⟩; exact ⟨hx, hy⟩
  · rintro ⟨hx, hy⟩; exact ⟨y, hy, x, hx, rfl, rfl⟩

theorem gridPoints_nodup (gx gy : Nat) : (gridPoints gx gy).Nodup := by
  unfold gridPoints
  rw [List.nodup_flatMap]
  refine ⟨fun y _ => List.nodup_range.map fun a b h => by simpa using h, ?_⟩
  refine List.nodup_range.imp fun {a b} hab => ?_
  rw [Function.onFun, List.disjoint_left]
  rintro ⟨x, y⟩ h1 h2
  simp only [List.mem_map, Prod.mk.injEq] at h1 h2
  obtain ⟨_, _, _, rfl⟩ := h1
  obtain ⟨_, _, _, rfl⟩ := h2
  exact hab rfl

theorem gridPoints_empty_x (gy : Nat) : gridPoints 0 gy = [] := by
  simp [gridPoints]

theorem gridPoints_empty_y (gx : Nat) : gridPoints gx 0 = [] := rfl

/-- Two positions of one target have one address only if they are one position. -/
theorem storeAddr_inj {t : LevelRef} {x y x' y' : Nat} (h : storeAddr t x y = storeAddr t x' y') : x = x' ∧ y = y' := by
  simpa [storeAddr] using h

/-! ### Choices -/

theorem chooseOne_mem {α : Type} (n : Nat) (a : α) (rest : List α) : chooseOne n a rest ∈ a :: rest := by
  unfold chooseOne
  split
  · simp
  · rename_i i h
    have : i < rest.length := by
      have : n % (rest.length + 1) < rest.length + 1 := Nat.mod_lt n (Nat.succ_pos rest.length)
      omega
    rw [List.getD_eq_getElem _ _ this]
    exact List.mem_cons_of_mem _ (List.getElem_mem this)

/-! ### Stores of a grid -/

theorem storeResult_wf {t : LevelRef} {m : Memory} (h : Memory.wf m = true) (q : (Nat × Nat) × InvResult) :
    Memory.wf (storeResult t m q) = true := by
  unfold storeResult
  split
  · exact memWrite_wf h _ _
  · exact h
  · exact h

theorem storeFold_wf {t : LevelRef} (l : List ((Nat × Nat) × InvResult)) {m : Memory} (h : Memory.wf m = true) :
    Memory.wf (l.foldl (storeResult t) m) = true := by
  induction l generalizing m with
  | nil => exact h
  | cons q l ih => exact ih (storeResult_wf h q)

/-- An address no storing invocation of the list has is left as it was. -/
theorem memRead_storeFold_other {t : LevelRef} (l : List ((Nat × Nat) × InvResult)) (m : Memory) (a : TexelAddr)
    (h : ∀ q ∈ l, ∀ v, q.2 = .stores v → a ≠ storeAddr t q.1.1 q.1.2) :
    memRead (l.foldl (storeResult t) m) a = memRead m a := by
  induction l generalizing m with
  | nil => rfl
  | cons q l ih =>
    simp only [List.mem_cons, forall_eq_or_imp] at h
    rw [List.foldl_cons, ih _ h.2]
    unfold storeResult
    split
    · rename_i v hv
      exact memRead_memWrite_other _ _ (h.1 v hv)
    · rfl
    · rfl

/-- Where the positions of a list are distinct, an invocation that stores leaves its value. -/
theorem memRead_storeFold_same {t : LevelRef} {l : List ((Nat × Nat) × InvResult)} (hn : (l.map Prod.fst).Nodup)
    (m : Memory) {q : Nat × Nat} {v : F4} (h : (q, InvResult.stores v) ∈ l) :
    memRead (l.foldl (storeResult t) m) (storeAddr t q.1 q.2) = some v := by
  induction l generalizing m with
  | nil => simp at h
  | cons p l ih =>
    rw [List.foldl_cons]
    simp only [List.map_cons, List.nodup_cons] at hn
    rcases List.mem_cons.1 h with rfl | h
    · rw [memRead_storeFold_other]
      · simp [storeResult]
      · intro r hr w _ he
        have := storeAddr_inj he
        exact hn.1 (List.mem_map.2 ⟨r, hr, Prod.ext this.1.symm this.2.symm⟩)
    · exact ih hn.2 _ h

/-- What a grid of stores lists: what was listed, and storing invocations' addresses. -/
theorem mem_storeFold {t : LevelRef} (l : List ((Nat × Nat) × InvResult)) {m : Memory} {p : TexelAddr × F4}
    (h : p ∈ l.foldl (storeResult t) m) :
    p ∈ m ∨ ∃ q v, (q, InvResult.stores v) ∈ l ∧ p = (storeAddr t q.1 q.2, v) := by
  induction l generalizing m with
  | nil => exact .inl h
  | cons r l ih =>
    rcases ih h with h | ⟨q, v, hq, rfl⟩
    · unfold storeResult at h
      split at h
      · rename_i v hv
        rcases mem_memWrite h with rfl | h
        · exact .inr ⟨r.1, v, by obtain ⟨r1, r2⟩ := r; simp_all, rfl⟩
        · exact .inl h
      · exact .inl h
      · exact .inl h
    · exact .inr ⟨q, v, List.mem_cons_of_mem _ hq, rfl⟩

/-! ### A drawn level (60_exceptions.md R134) -/

theorem drawTexel_wf {p : Params} {n : Nat} {t : LevelRef} {m : Memory} (h : Memory.wf m = true) (q : Nat × Nat) :
    Memory.wf (drawTexel p n t m q) = true := by
  simp only [drawTexel]
  split
  · exact memWrite_wf h _ _
  · exact memErase_wf h _

theorem memRead_drawTexel_other {p : Params} {n : Nat} {t : LevelRef} (m : Memory) {q : Nat × Nat} {a : TexelAddr}
    (h : a ≠ storeAddr t q.1 q.2) : memRead (drawTexel p n t m q) a = memRead m a := by
  simp only [drawTexel]
  split
  · exact memRead_memWrite_other _ _ h
  · exact memRead_memErase_other _ h

theorem mem_drawTexel {p : Params} {n : Nat} {t : LevelRef} {m : Memory} {q : Nat × Nat} {r : TexelAddr × F4}
    (h : r ∈ drawTexel p n t m q) : r ∈ m ∨ r.1 = storeAddr t q.1 q.2 := by
  simp only [drawTexel] at h
  split at h
  · rcases mem_memWrite h with rfl | h
    · exact .inr rfl
    · exact .inl h
  · exact .inl (mem_memErase h)

theorem drawFold_wf {p : Params} {n : Nat} {t : LevelRef} (l : List (Nat × Nat)) {m : Memory} (h : Memory.wf m = true) :
    Memory.wf (l.foldl (drawTexel p n t) m) = true := by
  induction l generalizing m with
  | nil => exact h
  | cons q l ih => exact ih (drawTexel_wf h q)

theorem memRead_drawFold_other {p : Params} {n : Nat} {t : LevelRef} (l : List (Nat × Nat)) (m : Memory) {a : TexelAddr}
    (h : ∀ q ∈ l, a ≠ storeAddr t q.1 q.2) : memRead (l.foldl (drawTexel p n t) m) a = memRead m a := by
  induction l generalizing m with
  | nil => rfl
  | cons q l ih =>
    simp only [List.mem_cons, forall_eq_or_imp] at h
    rw [List.foldl_cons, ih _ h.2, memRead_drawTexel_other _ h.1]

theorem mem_drawFold {p : Params} {n : Nat} {t : LevelRef} (l : List (Nat × Nat)) {m : Memory} {r : TexelAddr × F4}
    (h : r ∈ l.foldl (drawTexel p n t) m) : r ∈ m ∨ ∃ q ∈ l, r.1 = storeAddr t q.1 q.2 := by
  induction l generalizing m with
  | nil => exact .inl h
  | cons q l ih =>
    rcases ih h with h | ⟨q', hq, e⟩
    · rcases mem_drawTexel h with h | h
      · exact .inl h
      · exact .inr ⟨q, by simp, h⟩
    · exact .inr ⟨q', List.mem_cons_of_mem _ hq, e⟩

theorem drawLevel_wf {s : State} (h : Memory.wf s.texels = true) (t : LevelRef) : Memory.wf (drawLevel s t) = true :=
  drawFold_wf _ h

/-- A drawn level leaves every other level's texels, and positions outside the level, as they were. -/
theorem memRead_drawLevel_other (s : State) (t : LevelRef) {a : TexelAddr}
    (h : a.ref ≠ t ∨ (levelSize s.images t).1 ≤ a.x ∨ (levelSize s.images t).2 ≤ a.y) :
    memRead (drawLevel s t) a = memRead s.texels a := by
  refine memRead_drawFold_other _ _ fun q hq he => ?_
  rw [mem_gridPoints] at hq
  subst he
  simp only [storeAddr, TexelAddr.ref] at h
  rcases h with h | h | h
  · exact h rfl
  · omega
  · omega

theorem mem_drawLevel {s : State} {t : LevelRef} {r : TexelAddr × F4} (h : r ∈ drawLevel s t) :
    r ∈ s.texels ∨ (r.1.ref = t ∧ r.1.x < (levelSize s.images t).1 ∧ r.1.y < (levelSize s.images t).2) := by
  rcases mem_drawFold _ h with h | ⟨q, hq, e⟩
  · exact .inl h
  · rw [mem_gridPoints] at hq
    refine .inr ?_
    rw [e]
    exact ⟨rfl, hq.1, hq.2⟩

end Sys2Proof.Machine
end

