-- ==== Sys2Proof/Laws/Dispatch.lean ====
section
/-! SUPPORT. What a dispatch can do, said once: how an invocation, a grid, a pass and a dispatch end. -/

namespace Sys2Proof.Machine

/-! ### Status -/

theorem refusesIn_eq_none {st : Status} : refusesIn st = none ↔ st = .idle ∨ st = .done := by
  cases st <;> simp [refusesIn]

@[simp] theorem refusesIn_idle : refusesIn .idle = none := rfl
@[simp] theorem refusesIn_done : refusesIn .done = none := rfl
@[simp] theorem refusesIn_busy : refusesIn .busy = some .whileBusy := rfl
@[simp] theorem refusesIn_fault (f : FaultRecord) : refusesIn (.fault f) = some .afterFault := rfl

/-! ### Invocations -/

theorem imageStore_cases (e : Invocation) (k : F3) :
    (e.x < e.width ∧ e.y < e.height ∧ imageStore e k = .stores (storedTexel e.start.cfg k)) ∨
    (¬ (e.x < e.width ∧ e.y < e.height) ∧ imageStore e k = .faults (.oobWrite e.x e.y)) := by
  unfold imageStore
  split
  · rename_i h; exact .inl ⟨h.1, h.2, rfl⟩
  · rename_i h; exact .inr ⟨h, rfl⟩

/-- How an invocation ends (41_decoder.md R89). -/
theorem invoke_cases (p : Pass) (e : Invocation) :
    (guardPasses e.start.cfg.guardMode e.width e.height e.x e.y = false ∧ invoke p e = .skipped) ∨
    (guardPasses e.start.cfg.guardMode e.width e.height e.x e.y = true ∧ p.unwritten e = [] ∧
      invoke p e = imageStore e (p.color e)) ∨
    (guardPasses e.start.cfg.guardMode e.width e.height e.x e.y = true ∧
      ∃ a ∈ p.unwritten e, invoke p e = .faults (.unwrittenRead a)) := by
  unfold invoke
  split
  · rename_i hg
    split
    · rename_i h; exact .inr (.inl ⟨hg, h, rfl⟩)
    · rename_i a rest h
      refine .inr (.inr ⟨hg, _, ?_, rfl⟩)
      rw [h]
      exact chooseOne_mem _ _ _
  · rename_i hg; exact .inl ⟨by simpa using hg, rfl⟩

/-- A stored value is stored inside the level, and is the body's colour. -/
theorem invoke_stores {p : Pass} {e : Invocation} {v : F4} (h : invoke p e = .stores v) :
    e.x < e.width ∧ e.y < e.height ∧ v = storedTexel e.start.cfg (p.color e) := by
  rcases invoke_cases p e with ⟨_, h'⟩ | ⟨_, _, h'⟩ | ⟨_, a, _, h'⟩
  · rw [h] at h'; simp at h'
  · rcases imageStore_cases e (p.color e) with ⟨hx, hy, hs⟩ | ⟨_, hs⟩
    · rw [h, hs] at h'; simp at h'; exact ⟨hx, hy, h'⟩
    · rw [h, hs] at h'; simp at h'
  · rw [h] at h'; simp at h'

/-! ### Grids and passes -/

theorem gridResults_fst (p : Pass) (s : State) : (gridResults p s).map Prod.fst = gridPoints s.gridX s.gridY := by
  simp [gridResults, Function.comp_def]

theorem mem_gridResults {p : Pass} {s : State} {q : Nat × Nat} {r : InvResult} :
    (q, r) ∈ gridResults p s ↔ q ∈ gridPoints s.gridX s.gridY ∧ r = invoke p (invocationAt s p.target q) := by
  simp only [gridResults, List.mem_map, Prod.mk.injEq]
  constructor
  · rintro ⟨a, h, rfl, rfl⟩; exact ⟨h, rfl⟩
  · rintro ⟨h, rfl⟩; exact ⟨q, h, rfl, rfl⟩

/-- How a grid ends: no invocation faulted and the stores are made, or one of the faults raised is reported. -/
theorem runGrid_cases (p : Pass) (s : State) :
    ((∀ q ∈ gridPoints s.gridX s.gridY, ∀ f, invoke p (invocationAt s p.target q) ≠ .faults f) ∧
      runGrid p s = finishDispatch ((gridResults p s).foldl (storeResult p.target) s.texels) s) ∨
    (∃ f, (∃ q ∈ gridPoints s.gridX s.gridY, invoke p (invocationAt s p.target q) = .faults f) ∧
      runGrid p s = raiseInvocationFault f p.target s) := by
  unfold runGrid
  split
  · rename_i h
    refine .inl ⟨fun q hq f hf => ?_, rfl⟩
    rw [List.filterMap_eq_nil_iff] at h
    have := h (q, _) (mem_gridResults.2 ⟨hq, rfl⟩)
    simp [hf, InvResult.fault?] at this
  · rename_i f rest h
    refine .inr ⟨_, ?_, rfl⟩
    have hm := chooseOne_mem (Config.choice ⟨s.draws, s.gridX, s.gridY, [3]⟩) f rest
    rw [← h, List.mem_filterMap] at hm
    obtain ⟨⟨q, r⟩, hq, hr⟩ := hm
    obtain ⟨hg, rfl⟩ := mem_gridResults.1 hq
    refine ⟨q, hg, ?_⟩
    revert hr
    cases invoke p (invocationAt s p.target q) <;> simp [InvResult.fault?]

/-- How a pass ends (47_modes.md R118). -/
theorem runPass_cases (p : Pass) (s : State) :
    (∃ f, preflight s p.reads p.regs p.target = some f ∧ runPass p s = raiseFault f s) ∨
    (preflight s p.reads p.regs p.target = none ∧ runPass p s = runGrid p s) := by
  unfold runPass
  cases h : preflight s p.reads p.regs p.target with
  | some f => exact .inl ⟨f, rfl, rfl⟩
  | none => exact .inr ⟨rfl, rfl⟩

/-! ### Dispatches -/

/-- The slots of an instruction, resolved in their order (47_modes.md R118, R119). -/
def planOf : Instr → State → Except FaultRecord Pass
  | .prefilter l i o _ => planPrefilter l i o
  | .downsample l i o _ => planDownsample l i o
  | .upsampleFirst l i o _ => planUpsampleFirst l i o
  | .upsample l i o b => planUpsample l i o b
  | .apply l i o b => planApply l i o b

theorem exec_eq_runDispatch (i : Instr) (s : State) : exec i s = runDispatch (encode i) (planOf i) s := by
  cases i <;> rfl

/-- How a dispatch ends: refused, a fault at its start, or its pass run (47_modes.md R118). -/
theorem runDispatch_cases (w : Word) (plan : State → Except FaultRecord Pass) (s : State) :
    (∃ r, refusesIn s.status = some r ∧ runDispatch w plan s = .refused r) ∨
    (refusesIn s.status = none ∧ ∃ f, plan (startDispatch w s) = .error f ∧
      runDispatch w plan s = .next (raiseFault f (startDispatch w s))) ∨
    (refusesIn s.status = none ∧ ∃ p, plan (startDispatch w s) = .ok p ∧
      runDispatch w plan s = .next (runPass p (startDispatch w s))) := by
  unfold runDispatch
  cases h : refusesIn s.status with
  | some r => exact .inl ⟨r, rfl, rfl⟩
  | none =>
    cases h2 : plan (startDispatch w s) with
    | error f => exact .inr (.inl ⟨rfl, f, rfl, rfl⟩)
    | ok p => exact .inr (.inr ⟨rfl, p, rfl, rfl⟩)

/-- Everything a dispatch that answers a next state can have done, in one list. -/
theorem exec_next_cases {i : Instr} {s t : State} (h : exec i s = .next t) :
    refusesIn s.status = none ∧
    ((∃ f, planOf i (startDispatch (encode i) s) = .error f ∧ t = raiseFault f (startDispatch (encode i) s)) ∨
     ∃ p, planOf i (startDispatch (encode i) s) = .ok p ∧
      ((∃ f, preflight (startDispatch (encode i) s) p.reads p.regs p.target = some f ∧
          t = raiseFault f (startDispatch (encode i) s)) ∨
       (preflight (startDispatch (encode i) s) p.reads p.regs p.target = none ∧
         t = runGrid p (startDispatch (encode i) s)))) := by
  rw [exec_eq_runDispatch] at h
  rcases runDispatch_cases (encode i) (planOf i) s with ⟨r, _, h'⟩ | ⟨hr, f, hf, h'⟩ | ⟨hr, p, hp, h'⟩
  · rw [h] at h'; cases h'
  · rw [h] at h'; cases h'; exact ⟨hr, .inl ⟨f, hf, rfl⟩⟩
  · rw [h] at h'
    injection h' with h'
    refine ⟨hr, .inr ⟨p, hp, ?_⟩⟩
    rcases runPass_cases p (startDispatch (encode i) s) with ⟨f, hf, e⟩ | ⟨hn, e⟩
    · exact .inl ⟨f, hf, by rw [h', e]⟩
    · exact .inr ⟨hn, by rw [h', e]⟩

/-- An admitted dispatch always answers a next state. -/
theorem exec_answers {i : Instr} {s : State} (h : refusesIn s.status = none) : ∃ t, exec i s = .next t := by
  rw [exec_eq_runDispatch]
  rcases runDispatch_cases (encode i) (planOf i) s with ⟨r, hr, _⟩ | ⟨_, f, _, e⟩ | ⟨_, p, _, e⟩
  · rw [h] at hr; cases hr
  · exact ⟨_, e⟩
  · exact ⟨_, e⟩

/-! ### The checks before a pass (60_exceptions.md R137–R139, R142) -/

theorem checkLevel_none {images : List Image} {role : LevelRole} {r : LevelRef} :
    checkLevel images role r = none ↔ (texSize images r).isSome = true := by
  unfold checkLevel; split <;> simp_all

theorem checkReg_none {g : ParamRegs} {r : ParamReg} : checkReg g r = none ↔ (readReg g r).isSome = true := by
  unfold checkReg; split <;> simp_all

theorem checkAlias_none {reads : List LevelRef} {t : LevelRef} : checkAlias reads t = none ↔ t ∉ reads := by
  unfold checkAlias; split <;> simp_all

/-- The checks pass exactly when every level is present, the target is not read, and every register is written. -/
theorem preflight_none {s : State} {reads : List LevelRef} {regs : List ParamReg} {t : LevelRef} :
    preflight s reads regs t = none ↔
      (texSize s.images t).isSome = true ∧ (∀ r ∈ reads, (texSize s.images r).isSome = true) ∧
      t ∉ reads ∧ ∀ r ∈ regs, (readReg s.regs r).isSome = true := by
  unfold preflight
  rw [← checkLevel_none (role := .out), ← checkAlias_none (reads := reads)]
  have h1 : (∀ r ∈ reads, (texSize s.images r).isSome = true) ↔ reads.findSome? (checkLevel s.images .read) = none := by
    rw [List.findSome?_eq_none_iff]; simp only [checkLevel_none]
  have h2 : (∀ r ∈ regs, (readReg s.regs r).isSome = true) ↔ regs.findSome? (checkReg s.regs) = none := by
    rw [List.findSome?_eq_none_iff]; simp only [checkReg_none]
  rw [h1, h2]
  cases checkLevel s.images .out t <;> cases reads.findSome? (checkLevel s.images .read) <;>
    cases checkAlias reads t <;> simp

theorem texSize_isSome {images : List Image} {r : LevelRef} :
    (texSize images r).isSome = true ↔ 0 < (levelSize images r).1 ∧ 0 < (levelSize images r).2 := by
  unfold texSize
  split <;> simp <;> omega

/-! ### Host actions -/

theorem cfgWrite_cases (f : State → State) (s : State) :
    (∃ r, refusesIn s.status = some r ∧ cfgWrite f s = .refused r) ∨
    (refusesIn s.status = none ∧ cfgWrite f s = .next (f s)) := by
  unfold cfgWrite
  cases h : refusesIn s.status with
  | some r => exact .inl ⟨r, rfl, rfl⟩
  | none => exact .inr ⟨rfl, rfl⟩

theorem step_nil {s : State} (h : s.program = []) : step s = .next s := by
  simp [step, nextAction, h]

theorem step_cons {s : State} {a : HostAction} {rest : List HostAction} (h : s.program = a :: rest) :
    step s = perform a { s with program := rest } := by
  simp [step, nextAction, h]

end Sys2Proof.Machine
end

