-- ==== Sys2Proof/Laws/Rounding.lean ====
section
/-! SUPPORT. Rounding, said once: what a packed value is, and that `roundMag` gives the nearest magnitude, ties to even, `none` exactly on overflow. -/

namespace Sys2Proof.Machine

/-! ### Packing and fields -/

theorem fPack_toNat {neg : Bool} {b : Nat} (h : b < 0x7F800000) :
    (fPack neg b).toNat = (if neg then 2 ^ 31 else 0) + b := by
  unfold fPack
  rw [BitVec.toNat_ofNat, Nat.mod_eq_of_lt]
  cases neg <;> simp <;> omega

theorem fNeg_fPack {neg : Bool} {b : Nat} (h : b < 0x7F800000) : fNeg (fPack neg b) = neg := by
  unfold fNeg
  rw [fPack_toNat h]
  cases neg <;> simp <;> omega

theorem fExp_fPack {neg : Bool} {b : Nat} (h : b < 0x7F800000) : fExp (fPack neg b) = b / 2 ^ 23 := by
  unfold fExp
  rw [fPack_toNat h]
  cases neg <;> simp <;> omega

theorem fFrac_fPack {neg : Bool} {b : Nat} (h : b < 0x7F800000) : fFrac (fPack neg b) = b % 2 ^ 23 := by
  unfold fFrac
  rw [fPack_toNat h]
  cases neg <;> simp <;> omega

theorem fFinite_fPack {neg : Bool} {b : Nat} (h : b < 0x7F800000) : fFinite (fPack neg b) = true := by
  unfold fFinite
  rw [fExp_fPack h]
  simp; omega

theorem fMag_fPack {neg : Bool} {b : Nat} (h : b < 0x7F800000) : fMag (fPack neg b) = bitsMag b := by
  unfold fMag bitsMag
  rw [fExp_fPack h, fFrac_fPack h]

theorem fVal_fPack {neg : Bool} {b : Nat} (h : b < 0x7F800000) :
    fVal (fPack neg b) = if neg then -(bitsMag b : Int) else (bitsMag b : Int) := by
  unfold fVal
  rw [fNeg_fPack h, fMag_fPack h]

/-- A finite value is its own sign over its own low bits. -/
theorem fMag_eq_bitsMag (x : F) : fMag x = bitsMag (x.toNat % 2 ^ 31) := by
  have hx := x.isLt
  unfold fMag bitsMag fExp fFrac
  have e1 : x.toNat / 2 ^ 23 % 256 = x.toNat % 2 ^ 31 / 2 ^ 23 := by omega
  have e2 : x.toNat % 2 ^ 31 % 2 ^ 23 = x.toNat % 2 ^ 23 := by omega
  rw [e1, e2]

theorem finite_bits_lt {x : F} (h : fFinite x = true) : x.toNat % 2 ^ 31 < 0x7F800000 := by
  have hx := x.isLt
  have h' : x.toNat / 2 ^ 23 % 256 < 255 := of_decide_eq_true h
  omega

theorem fPack_self {x : F} (h : fFinite x = true) : fPack (fNeg x) (x.toNat % 2 ^ 31) = x := by
  have hx := x.isLt
  apply BitVec.eq_of_toNat_eq
  rw [fPack_toNat (finite_bits_lt h)]
  unfold fNeg
  by_cases hn : 2 ^ 31 ≤ x.toNat
  · rw [decide_eq_true hn, if_pos rfl]; omega
  · rw [decide_eq_false hn, if_neg (by simp)]; omega

/-! ### Magnitudes of bit patterns -/

theorem bitsMag_scaled {e m : Nat} (h : (e = 0 ∧ m ≤ 2 ^ 24) ∨ (2 ^ 23 ≤ m ∧ m ≤ 2 ^ 24)) :
    bitsMag (e * 2 ^ 23 + m) = m * 2 ^ e := by
  unfold bitsMag
  rcases Nat.lt_or_ge m (2 ^ 23) with h1 | h1
  · have he : e = 0 := by omega
    subst he
    have e1 : (0 * 2 ^ 23 + m) / 2 ^ 23 = 0 := by omega
    rw [if_pos e1]; omega
  · rcases Nat.lt_or_ge m (2 ^ 24) with h2 | h2
    · have e1 : (e * 2 ^ 23 + m) / 2 ^ 23 = e + 1 := by omega
      have e2 : (e * 2 ^ 23 + m) % 2 ^ 23 = m - 2 ^ 23 := by omega
      rw [e1, e2, if_neg (Nat.succ_ne_zero e), Nat.add_sub_cancel, Nat.add_sub_cancel' h1]
    · have hm : m = 2 ^ 24 := by omega
      subst hm
      have e1 : (e * 2 ^ 23 + 2 ^ 24) / 2 ^ 23 = e + 2 := by omega
      have e2 : (e * 2 ^ 23 + 2 ^ 24) % 2 ^ 23 = 0 := by omega
      rw [e1, e2, if_neg (by omega)]
      have : e + 2 - 1 = e + 1 := by omega
      rw [this, pow_succ]; ring

theorem bitsMag_dvd {b e : Nat} (h : 2 ^ (e + 23) ≤ bitsMag b) : 2 ^ e ∣ bitsMag b := by
  unfold bitsMag at *
  by_cases hb : b / 2 ^ 23 = 0
  · rw [if_pos hb] at h
    have h1 : b % 2 ^ 23 < 2 ^ 23 := Nat.mod_lt _ (by norm_num)
    have h2 : 2 ^ 23 ≤ 2 ^ (e + 23) := Nat.pow_le_pow_right (by norm_num) (by omega)
    omega
  · rw [if_neg hb] at h ⊢
    have h1 : b % 2 ^ 23 < 2 ^ 23 := Nat.mod_lt _ (by norm_num)
    have hlt : 2 ^ (e + 23) < 2 ^ (b / 2 ^ 23 - 1 + 24) := by
      refine lt_of_le_of_lt h ?_
      rw [pow_add, mul_comm]
      exact Nat.mul_lt_mul_of_pos_left (by omega) (Nat.two_pow_pos _)
    have := (Nat.pow_lt_pow_iff_right (by norm_num : 1 < 2)).1 hlt
    exact Dvd.dvd.mul_left (Nat.pow_dvd_pow 2 (by omega)) _

/-! ### Rounding to an integer -/

theorem roundHalfEven_nearest {n d : Nat} (hd : 0 < d) (k : Nat) :
    |(roundHalfEven n d * d : Int) - n| ≤ |(k * d : Int) - n| ∧
    (|(k * d : Int) - n| = |(roundHalfEven n d * d : Int) - n| → k = roundHalfEven n d ∨ roundHalfEven n d % 2 = 0) := by
  have hr : n % d < d := Nat.mod_lt n hd
  have hn : (d : Int) * (n / d : Nat) + (n % d : Nat) = n := by exact_mod_cast Nat.div_add_mod n d
  set q := n / d with hq
  set r := n % d with hrr
  have hk : k ≤ q ∨ q + 1 ≤ k := by omega
  have key1 : k ≤ q → (k : Int) * d ≤ q * d := fun h => by
    have : (k : Int) ≤ q := by exact_mod_cast h
    nlinarith
  have key1' : k + 1 ≤ q → (k : Int) * d + d ≤ q * d := fun h => by
    have : (k : Int) + 1 ≤ q := by exact_mod_cast h
    nlinarith
  have key2 : q + 1 ≤ k → (q : Int) * d + d ≤ k * d := fun h => by
    have : (q : Int) + 1 ≤ k := by exact_mod_cast h
    nlinarith
  have key2' : q + 2 ≤ k → (q : Int) * d + 2 * d ≤ k * d := fun h => by
    have : (q : Int) + 2 ≤ k := by exact_mod_cast h
    nlinarith
  have hn' : (n : Int) = q * d + r := by linarith [hn, mul_comm (d : Int) q]
  have hrI : (r : Int) < d := by exact_mod_cast hr
  have hr0 : (0 : Int) ≤ r := by positivity
  unfold roundHalfEven
  rw [← hq, ← hrr]
  split
  · rename_i h
    have hD : (d : Int) ≤ 2 * r := by
      rcases h with h | h
      · have : (d : Int) < 2 * r := by exact_mod_cast h
        linarith
      · have : (2 * r : Int) = d := by exact_mod_cast h.1
        linarith
    have e0 : ((q + 1 : Nat) : Int) * d - n = d - r := by push_cast; linarith
    have a0 : |((q + 1 : Nat) : Int) * d - n| = d - r := by rw [e0]; exact abs_of_nonneg (by linarith)
    rw [a0]
    rcases hk with hk | hk
    · have := key1 hk
      have a1 : |(k : Int) * d - n| = n - k * d := by rw [abs_of_nonpos (by linarith)]; ring
      rw [a1]
      refine ⟨by linarith, fun he => ?_⟩
      rcases h with h | h
      · have : (d : Int) < 2 * r := by exact_mod_cast h
        exfalso; linarith
      · right; omega
    · have := key2 hk
      have a1 : |(k : Int) * d - n| = k * d - n := abs_of_nonneg (by linarith)
      rw [a1]
      refine ⟨by linarith, fun he => ?_⟩
      left
      by_contra hne
      have := key2' (by omega)
      have : (0 : Int) < d := by exact_mod_cast hd
      linarith
  · rename_i h
    have hD : (2 * r : Int) ≤ d := by
      have : ¬ d < 2 * r := fun h' => h (.inl h')
      exact_mod_cast Nat.le_of_not_lt this
    have e0 : (q : Int) * d - n = -r := by linarith
    have a0 : |(q : Int) * d - n| = r := by rw [e0, abs_neg, abs_of_nonneg hr0]
    rw [a0]
    rcases hk with hk | hk
    · have := key1 hk
      have a1 : |(k : Int) * d - n| = n - k * d := by rw [abs_of_nonpos (by linarith)]; ring
      rw [a1]
      refine ⟨by linarith, fun he => ?_⟩
      left
      by_contra hne
      have := key1' (by omega)
      have : (0 : Int) < d := by exact_mod_cast hd
      linarith
    · have := key2 hk
      have a1 : |(k : Int) * d - n| = k * d - n := abs_of_nonneg (by linarith)
      rw [a1]
      refine ⟨by linarith, fun he => ?_⟩
      right
      have h1 : (d : Int) = 2 * r := by linarith
      have h2 : 2 * r = d := by exact_mod_cast h1.symm
      have : ¬ q % 2 = 1 := fun h' => h (.inr ⟨h2, h'⟩)
      omega

theorem roundHalfEven_le {n d k : Nat} (h : n < k * d) : roundHalfEven n d ≤ k := by
  have : n / d < k := Nat.div_lt_of_lt_mul (by rwa [mul_comm])
  unfold roundHalfEven; split <;> omega

theorem le_roundHalfEven {n d k : Nat} (hd : 0 < d) (h : k * d ≤ n) : k ≤ roundHalfEven n d := by
  have : k ≤ n / d := (Nat.le_div_iff_mul_le hd).2 h
  unfold roundHalfEven; split <;> omega

/-! ### roundMag -/

theorem roundShift_bounds {n d : Nat} (hd : 0 < d) :
    n < 2 ^ 24 * (d * 2 ^ roundShift n d) ∧
    (roundShift n d = 0 ∨ 2 ^ 23 * (d * 2 ^ roundShift n d) ≤ n) := by
  unfold roundShift
  set q := n / d with hq
  have hlt : n < (q + 1) * d := by
    rw [hq, mul_comm]; exact Nat.lt_mul_div_succ n hd
  have hle : q * d ≤ n := Nat.div_mul_le_self n d
  have hlog : q < 2 ^ (Nat.log2 q + 1) := Nat.lt_log2_self
  constructor
  · have h1 : q + 1 ≤ 2 ^ (Nat.log2 q - 23 + 24) :=
      le_trans hlog (Nat.pow_le_pow_right (by norm_num) (by omega))
    calc n < (q + 1) * d := hlt
      _ ≤ 2 ^ (Nat.log2 q - 23 + 24) * d := Nat.mul_le_mul_right d h1
      _ = 2 ^ 24 * (d * 2 ^ (Nat.log2 q - 23)) := by rw [pow_add]; ring
  · by_cases h : Nat.log2 q ≤ 23
    · left; omega
    · right
      have hq0 : q ≠ 0 := by rintro h0; rw [h0] at h; simp at h
      have h1 : 2 ^ Nat.log2 q ≤ q := Nat.log2_self_le hq0
      have h2 : 2 ^ Nat.log2 q = 2 ^ 23 * 2 ^ (Nat.log2 q - 23) := by rw [← pow_add]; congr 1; omega
      calc 2 ^ 23 * (d * 2 ^ (Nat.log2 q - 23)) = (2 ^ 23 * 2 ^ (Nat.log2 q - 23)) * d := by ring
        _ ≤ q * d := Nat.mul_le_mul_right d (by rw [← h2]; exact h1)
        _ ≤ n := hle

/-- The significand of a rounding and its place. -/
theorem roundMag_significand {n d : Nat} (hd : 0 < d) :
    (roundShift n d = 0 ∧ roundHalfEven n (d * 2 ^ roundShift n d) ≤ 2 ^ 24) ∨
    (2 ^ 23 ≤ roundHalfEven n (d * 2 ^ roundShift n d) ∧ roundHalfEven n (d * 2 ^ roundShift n d) ≤ 2 ^ 24) := by
  have hb := roundShift_bounds (n := n) hd
  have hD : 0 < d * 2 ^ roundShift n d := Nat.mul_pos hd (Nat.two_pow_pos _)
  have hle := roundHalfEven_le hb.1
  rcases hb.2 with h | h
  · exact .inl ⟨h, hle⟩
  · exact .inr ⟨le_roundHalfEven hD h, hle⟩

theorem roundMag_some {n d b : Nat} (hd : 0 < d) (h : roundMag n d = some b) :
    b = roundShift n d * 2 ^ 23 + roundHalfEven n (d * 2 ^ roundShift n d) ∧ b < 0x7F800000 ∧
    bitsMag b = roundHalfEven n (d * 2 ^ roundShift n d) * 2 ^ roundShift n d := by
  unfold roundMag at h
  simp only at h
  split at h
  · rename_i hlt
    injection h with h
    subst h
    exact ⟨rfl, hlt, bitsMag_scaled (roundMag_significand hd)⟩
  · cases h

/-- `roundMag` gives a nearest magnitude, the even one where two are equally near (40_numerics.md R69). -/
theorem roundMag_nearest {n d b : Nat} (hd : 0 < d) (h : roundMag n d = some b) (b' : Nat) :
    |(bitsMag b * d : Int) - n| ≤ |(bitsMag b' * d : Int) - n| ∧
    (|(bitsMag b' * d : Int) - n| = |(bitsMag b * d : Int) - n| → bitsMag b' = bitsMag b ∨ b % 2 = 0) := by
  obtain ⟨hb, _, hm⟩ := roundMag_some hd h
  have hD : 0 < d * 2 ^ roundShift n d := Nat.mul_pos hd (Nat.two_pow_pos _)
  set e := roundShift n d with he
  set m := roundHalfEven n (d * 2 ^ e) with hmd
  have cast : ∀ k : Nat, ((k * 2 ^ e : Nat) : Int) * d = (k : Int) * (d * 2 ^ e : Nat) := fun k => by push_cast; ring
  by_cases hdvd : 2 ^ e ∣ bitsMag b'
  · obtain ⟨k, hk⟩ := hdvd
    rw [mul_comm] at hk
    have := roundHalfEven_nearest (n := n) hD k
    rw [hm, hk, cast, cast]
    refine ⟨this.1, fun ht => ?_⟩
    rcases this.2 ht with h1 | h1
    · left; rw [h1]
    · right; omega
  · have hlt : bitsMag b' < 2 ^ (e + 23) := by
      by_contra hge
      exact hdvd (bitsMag_dvd (Nat.le_of_not_lt hge))
    have he0 : e ≠ 0 := by rintro h0; rw [h0] at hdvd; simp at hdvd
    have hbig := (roundShift_bounds (n := n) hd).2.resolve_left he0
    have := (roundHalfEven_nearest (n := n) hD (2 ^ 23)).1
    rw [hm, cast]
    have hbigI : ((2 ^ 23 : Nat) : Int) * (d * 2 ^ e : Nat) ≤ n := by exact_mod_cast hbig
    have hstrict : (bitsMag b' * d : Int) < ((2 ^ 23 : Nat) : Int) * (d * 2 ^ e : Nat) := by
      have h1 : bitsMag b' * d < 2 ^ (e + 23) * d := Nat.mul_lt_mul_of_pos_right hlt hd
      have h2 : 2 ^ (e + 23) * d = 2 ^ 23 * (d * 2 ^ e) := by rw [pow_add]; ring
      rw [h2] at h1
      exact_mod_cast h1
    have a1 : |((2 ^ 23 : Nat) : Int) * (d * 2 ^ e : Nat) - n| = n - ((2 ^ 23 : Nat) : Int) * (d * 2 ^ e : Nat) := by
      rw [abs_of_nonpos (by linarith)]; ring
    have a2 : |(bitsMag b' * d : Int) - n| = n - bitsMag b' * d := by
      rw [abs_of_nonpos (by linarith)]; ring
    rw [a1] at this
    rw [a2]
    exact ⟨by linarith, fun ht => by exfalso; linarith⟩

/-- Rounding reaches the even number `k + 1` exactly from half-way above `k`. -/
theorem succ_le_roundHalfEven {n d k : Nat} (hd : 0 < d) (hk : k % 2 = 1) :
    k + 1 ≤ roundHalfEven n d ↔ (2 * k + 1) * d ≤ 2 * n := by
  have hr : n % d < d := Nat.mod_lt n hd
  have hn : d * (n / d) + n % d = n := Nat.div_add_mod n d
  rcases Nat.lt_trichotomy (n / d) k with h | h | h
  · have h1 : d * (n / d + 1) ≤ d * k := Nat.mul_le_mul_left d h
    have h2 : (2 * k + 1) * d = 2 * (d * k) + d := by ring
    rw [mul_add, mul_one] at h1
    constructor
    · intro h3
      have : roundHalfEven n d ≤ n / d + 1 := by unfold roundHalfEven; split <;> omega
      omega
    · intro h3; omega
  · have h2 : (2 * k + 1) * d = 2 * (d * k) + d := by ring
    rw [h] at hn
    unfold roundHalfEven
    rw [h2]
    split <;> omega
  · have h1 : d * (k + 1) ≤ d * (n / d) := Nat.mul_le_mul_left d h
    have h2 : (2 * k + 1) * d = 2 * (d * k) + d := by ring
    rw [mul_add, mul_one] at h1
    have : n / d ≤ roundHalfEven n d := by unfold roundHalfEven; split <;> omega
    constructor <;> intro <;> omega

/-- `roundMag` fails exactly where the magnitude overflows: from 2^128 - 2^103, in units of 2^-149 (40_numerics.md R79). -/
theorem roundMag_none {n d : Nat} (hd : 0 < d) : roundMag n d = none ↔ (2 ^ 25 - 1) * (d * 2 ^ 252) ≤ n := by
  have hs := roundMag_significand (n := n) hd
  have hb := roundShift_bounds (n := n) hd
  have hD : 0 < d * 2 ^ roundShift n d := Nat.mul_pos hd (Nat.two_pow_pos _)
  have hdef : roundMag n d = none ↔ 0x7F800000 ≤ roundShift n d * 2 ^ 23 + roundHalfEven n (d * 2 ^ roundShift n d) := by
    unfold roundMag; simp only; split <;> simp <;> omega
  rw [hdef]
  have mono : ∀ a b : Nat, a ≤ b → d * 2 ^ a ≤ d * 2 ^ b := fun a b h =>
    Nat.mul_le_mul_left _ (Nat.pow_le_pow_right (by norm_num) h)
  obtain ⟨E, e252⟩ : ∃ E, d * 2 ^ 252 = E := ⟨_, rfl⟩
  have e253 : d * 2 ^ 253 = 2 * E := by rw [← e252]; ring
  have e254 : d * 2 ^ 254 = 4 * E := by rw [← e252]; ring
  have hE : 0 < E := by rw [← e252]; exact Nat.mul_pos hd (Nat.two_pow_pos _)
  rw [e252]
  rcases Nat.lt_trichotomy (roundShift n d) 253 with h | h | h
  · have h1 := mono (roundShift n d) 252 (by omega)
    rw [e252] at h1
    clear mono e252 e253 e254
    omega
  · rw [h] at hs hb hD ⊢
    have key := succ_le_roundHalfEven (n := n) (k := 2 ^ 24 - 1) hD (by norm_num)
    rw [e253] at hs hb key ⊢
    clear mono e252 e253 e254 hD hdef
    omega
  · have h0 : roundShift n d ≠ 0 := by omega
    have hs' := hs.resolve_left (fun h' => h0 h'.1)
    have hb' := hb.2.resolve_left h0
    have h1 := mono 254 (roundShift n d) (by omega)
    rw [e254] at h1
    clear mono e252 e253 e254 hD hdef
    omega

/-- The rounding error: half a unit in the 24th significant place, or half the least value. -/
theorem roundMag_error {n d b : Nat} (hd : 0 < d) (h : roundMag n d = some b) :
    2 ^ 24 * |(bitsMag b * d : Int) - n| ≤ max (n : Int) (2 ^ 23 * d) := by
  obtain ⟨_, _, hm⟩ := roundMag_some hd h
  have hD : 0 < d * 2 ^ roundShift n d := Nat.mul_pos hd (Nat.two_pow_pos _)
  have hb := roundShift_bounds (n := n) hd
  set e := roundShift n d with he
  set D := d * 2 ^ e with hDd
  have cast : ((roundHalfEven n D * 2 ^ e : Nat) : Int) * d = (roundHalfEven n D : Int) * D := by
    rw [hDd]; push_cast; ring
  rw [hm, cast]
  have hhalf : 2 * |(roundHalfEven n D : Int) * D - n| ≤ D := by
    have hr : n % D < D := Nat.mod_lt n hD
    have hn : (n : Int) = (n / D : Nat) * D + (n % D : Nat) := by
      have := Nat.div_add_mod n D
      have h2 : ((D * (n / D) + n % D : Nat) : Int) = n := by exact_mod_cast this
      push_cast at h2 ⊢; linarith [mul_comm (D : Int) (n / D : Int)]
    unfold roundHalfEven
    split
    · rename_i h1
      have hle : (D : Int) ≤ 2 * (n % D : Nat) := by
        rcases h1 with h1 | h1
        · exact_mod_cast h1.le
        · exact_mod_cast h1.1.ge
      have hlt : ((n % D : Nat) : Int) < D := by exact_mod_cast hr
      have e0 : ((n / D + 1 : Nat) : Int) * D - n = D - (n % D : Nat) := by
        rw [hn]; push_cast; ring_nf
      rw [e0, abs_of_nonneg (by linarith)]; linarith
    · rename_i h1
      have hle : 2 * ((n % D : Nat) : Int) ≤ D := by
        have : ¬ D < 2 * (n % D) := fun h' => h1 (.inl h')
        exact_mod_cast Nat.le_of_not_lt this
      have h0 : (0 : Int) ≤ (n % D : Nat) := by positivity
      have e0 : ((n / D : Nat) : Int) * D - n = -((n % D : Nat) : Int) := by linarith
      rw [e0, abs_neg, abs_of_nonneg h0]; linarith
  have habs := abs_nonneg ((roundHalfEven n D : Int) * D - n)
  rcases hb.2 with h0 | h1
  · have : (D : Int) = d := by rw [hDd, h0]; push_cast; ring
    refine le_trans ?_ (le_max_right _ _)
    rw [← this]; linarith
  · have : (2 ^ 23 * D : Int) ≤ n := by exact_mod_cast h1
    refine le_trans ?_ (le_max_left _ _)
    linarith

end Sys2Proof.Machine
end

