-- ==== Sys2Proof/Laws/Enclosure.lean ====
section
/-! SUPPORT. The enclosures of `exp` and `ln` hold over the reals, and a value both ends of an enclosure round to is nearest to everything between them. -/

namespace Sys2Proof.Machine

/-- A fixed-point number as a real. -/
noncomputable def fixR (n : ℕ) : ℝ := (n : ℝ) / (fixOne : ℝ)

theorem fixOne_pos : (0 : ℝ) < (fixOne : ℝ) := by
  have : 0 < fixOne := Nat.two_pow_pos _
  exact_mod_cast this

theorem fixR_nonneg (n : ℕ) : 0 ≤ fixR n := div_nonneg (Nat.cast_nonneg n) fixOne_pos.le

theorem fixR_add (m n : ℕ) : fixR (m + n) = fixR m + fixR n := by
  unfold fixR; push_cast; rw [add_div]

theorem fixR_fixOne : fixR fixOne = 1 := div_self fixOne_pos.ne'

theorem natDiv_le (n d : ℕ) : ((n / d : ℕ) : ℝ) ≤ (n : ℝ) / d := Nat.cast_div_le

theorem lt_natDiv_add_one {n d : ℕ} (hd : 0 < d) : (n : ℝ) / d < ((n / d : ℕ) : ℝ) + 1 := by
  have hd' : (0 : ℝ) < d := by exact_mod_cast hd
  rw [div_lt_iff₀ hd']
  have : n < (n / d + 1) * d := by rw [mul_comm]; exact Nat.lt_mul_div_succ n hd
  exact_mod_cast this

/-! ### The exponential series -/

/-- `1 + x/i + x²/(i(i+1)) + …`, `terms` terms, from the value `base` inwards. -/
noncomputable def expTail (base x : ℝ) : ℕ → ℕ → ℝ
  | 0, _ => base
  | terms + 1, i => 1 + x / i * expTail base x terms (i + 1)

theorem taylorLo_le {r : ℕ} {x : ℝ} (hx : fixR r ≤ x) (terms : ℕ) : ∀ i, 0 < i →
    fixR (taylorLo r terms i) ≤ expTail 1 x terms i := by
  induction terms with
  | zero => intro i _; simp [taylorLo, expTail, fixR_fixOne]
  | succ terms ih =>
    intro i hi
    have hi' : (0 : ℝ) < i := by exact_mod_cast hi
    have h := ih (i + 1) (Nat.succ_pos i)
    simp only [taylorLo, expTail]
    rw [fixR_add, fixR_fixOne]
    refine add_le_add_right ?_ 1
    have hd := natDiv_le (r * taylorLo r terms (i + 1)) (i * fixOne)
    have h0 := fixR_nonneg (taylorLo r terms (i + 1))
    have hr := fixR_nonneg r
    calc fixR (r * taylorLo r terms (i + 1) / (i * fixOne))
        ≤ ((r * taylorLo r terms (i + 1) : ℕ) : ℝ) / ((i * fixOne : ℕ) : ℝ) / (fixOne : ℝ) :=
          div_le_div_of_nonneg_right hd fixOne_pos.le
      _ = fixR r / i * fixR (taylorLo r terms (i + 1)) := by
          unfold fixR; push_cast; field_simp
      _ ≤ x / i * expTail 1 x terms (i + 1) :=
          mul_le_mul (div_le_div_of_nonneg_right hx hi'.le) h h0 (div_nonneg (hr.trans hx) hi'.le)

theorem le_taylorHi {r : ℕ} {x : ℝ} (h0 : 0 ≤ x) (hx : x ≤ fixR r) (terms : ℕ) : ∀ i, 0 < i →
    expTail 3 x terms i ≤ fixR (taylorHi r terms i) ∧ 0 ≤ expTail 3 x terms i := by
  induction terms with
  | zero =>
    intro i _
    simp only [taylorHi, expTail]
    refine ⟨?_, by norm_num⟩
    unfold fixR; push_cast; rw [mul_div_assoc, div_self fixOne_pos.ne']; norm_num
  | succ terms ih =>
    intro i hi
    have hi' : (0 : ℝ) < i := by exact_mod_cast hi
    obtain ⟨h, h1⟩ := ih (i + 1) (Nat.succ_pos i)
    simp only [taylorHi, expTail]
    have hr := fixR_nonneg r
    have hp : 0 < i * fixOne := Nat.mul_pos hi (Nat.two_pow_pos _)
    have hd := lt_natDiv_add_one (n := r * taylorHi r terms (i + 1)) hp
    refine ⟨?_, by positivity⟩
    rw [add_assoc, fixR_add, fixR_fixOne]
    refine add_le_add_right ?_ 1
    calc x / i * expTail 3 x terms (i + 1)
        ≤ fixR r / i * fixR (taylorHi r terms (i + 1)) :=
          mul_le_mul (div_le_div_of_nonneg_right hx hi'.le) h h1 (div_nonneg hr hi'.le)
      _ = ((r * taylorHi r terms (i + 1) : ℕ) : ℝ) / ((i * fixOne : ℕ) : ℝ) / (fixOne : ℝ) := by
          unfold fixR; push_cast; field_simp
      _ ≤ fixR (r * taylorHi r terms (i + 1) / (i * fixOne) + 1) := by
          unfold fixR; push_cast
          push_cast at hd
          exact div_le_div_of_nonneg_right hd.le fixOne_pos.le

theorem expTail_sum (base x : ℝ) (terms : ℕ) : ∀ k : ℕ,
    x ^ k / (k.factorial : ℝ) * expTail base x terms (k + 1) =
      (∑ j ∈ Finset.range terms, x ^ (k + j) / ((k + j).factorial : ℝ)) +
        x ^ (k + terms) / ((k + terms).factorial : ℝ) * base := by
  induction terms with
  | zero => intro k; simp [expTail]
  | succ terms ih =>
    intro k
    have h := ih (k + 1)
    rw [Finset.sum_range_succ']
    simp only [expTail, add_zero]
    have e : x ^ k / (k.factorial : ℝ) * (1 + x / ((k + 1 : ℕ) : ℝ) * expTail base x terms (k + 1 + 1)) =
        x ^ k / (k.factorial : ℝ) + x ^ (k + 1) / ((k + 1).factorial : ℝ) * expTail base x terms (k + 1 + 1) := by
      rw [Nat.factorial_succ, pow_succ]; push_cast
      have : (k.factorial : ℝ) ≠ 0 := by positivity
      have : (k : ℝ) + 1 ≠ 0 := by positivity
      field_simp
    rw [e, h]
    have e2 : ∀ j, k + 1 + j = k + (j + 1) := fun j => by omega
    simp only [e2]
    ring

theorem expTail_le_exp {x : ℝ} (hx : 0 ≤ x) (terms : ℕ) : expTail 1 x terms 1 ≤ Real.exp x := by
  have h := expTail_sum 1 x terms 0
  simp only [pow_zero, Nat.factorial_zero, Nat.cast_one, div_one, one_mul, zero_add, mul_one] at h
  rw [h, ← Finset.sum_range_succ]
  exact Real.sum_le_exp_of_nonneg hx _

theorem exp_le_expTail {x : ℝ} (hx : 0 ≤ x) (hx1 : x ≤ 1) {terms : ℕ} (ht : 0 < terms) :
    Real.exp x ≤ expTail 3 x terms 1 := by
  have h := expTail_sum 3 x terms 0
  simp only [pow_zero, Nat.factorial_zero, Nat.cast_one, div_one, one_mul, zero_add] at h
  rw [h]
  refine (Real.exp_bound' hx hx1 ht).trans (add_le_add_right ?_ _)
  have h1 : (0 : ℝ) < terms := by exact_mod_cast ht
  have h2 : (1 : ℝ) ≤ terms := by exact_mod_cast ht
  have h3 : (0 : ℝ) < terms.factorial := by positivity
  rw [div_mul_eq_mul_div, div_le_div_iff₀ (by positivity) h3]
  have h4 : 0 ≤ x ^ terms := pow_nonneg hx _
  have h5 : ((terms : ℝ) + 1) ≤ 3 * terms := by linarith
  calc x ^ terms * ((terms : ℝ) + 1) * terms.factorial ≤ x ^ terms * (3 * terms) * terms.factorial := by gcongr
    _ = x ^ terms * 3 * (terms.factorial * terms) := by ring

theorem fixR_taylorLo_le_exp {r : ℕ} {x : ℝ} (hx : fixR r ≤ x) (terms : ℕ) : fixR (taylorLo r terms 1) ≤ Real.exp x :=
  (taylorLo_le hx terms 1 one_pos).trans (expTail_le_exp ((fixR_nonneg r).trans hx) terms)

theorem exp_le_fixR_taylorHi {r : ℕ} {x : ℝ} (h0 : 0 ≤ x) (h1 : x ≤ 1) (hx : x ≤ fixR r) {terms : ℕ} (ht : 0 < terms) :
    Real.exp x ≤ fixR (taylorHi r terms 1) :=
  (exp_le_expTail h0 h1 ht).trans (le_taylorHi h0 hx terms 1 one_pos).1

/-! ### The logarithm series -/

/-- `1/(2j+1) + t²/(2j+3) + …`, `terms` terms, from the value `base` inwards. -/
noncomputable def atanhTail (base t : ℝ) : ℕ → ℕ → ℝ
  | 0, _ => base
  | terms + 1, j => 1 / (2 * j + 1) + t ^ 2 * atanhTail base t terms (j + 1)

theorem atanhLo_le {a b : ℕ} (hb : 0 < b) (terms : ℕ) : ∀ j,
    fixR (atanhLo a b terms j) ≤ atanhTail 0 ((a : ℝ) / b) terms j := by
  have hb' : (0 : ℝ) < b := by exact_mod_cast hb
  induction terms with
  | zero => intro j; simp [atanhLo, atanhTail, fixR]
  | succ terms ih =>
    intro j
    simp only [atanhLo, atanhTail]
    rw [fixR_add]
    refine add_le_add ?_ ?_
    · have hd := natDiv_le fixOne (2 * j + 1)
      calc fixR (fixOne / (2 * j + 1)) ≤ (fixOne : ℝ) / ((2 * j + 1 : ℕ) : ℝ) / fixOne :=
            div_le_div_of_nonneg_right hd fixOne_pos.le
        _ = 1 / (2 * j + 1) := by
            have := fixOne_pos.ne'
            push_cast; field_simp
    · have hd := natDiv_le (a * a * atanhLo a b terms (j + 1)) (b * b)
      calc fixR (a * a * atanhLo a b terms (j + 1) / (b * b))
          ≤ ((a * a * atanhLo a b terms (j + 1) : ℕ) : ℝ) / ((b * b : ℕ) : ℝ) / fixOne :=
            div_le_div_of_nonneg_right hd fixOne_pos.le
        _ = ((a : ℝ) / b) ^ 2 * fixR (atanhLo a b terms (j + 1)) := by
            unfold fixR; push_cast; field_simp
        _ ≤ _ := mul_le_mul_of_nonneg_left (ih (j + 1)) (sq_nonneg _)

theorem le_atanhHi {a b : ℕ} (hb : 0 < b) (terms : ℕ) : ∀ j,
    atanhTail 2 ((a : ℝ) / b) terms j ≤ fixR (atanhHi a b terms j) := by
  have hb' : (0 : ℝ) < b := by exact_mod_cast hb
  induction terms with
  | zero =>
    intro j
    simp only [atanhHi, atanhTail]
    unfold fixR; push_cast; rw [mul_div_assoc, div_self fixOne_pos.ne']; norm_num
  | succ terms ih =>
    intro j
    simp only [atanhHi, atanhTail]
    rw [fixR_add]
    refine add_le_add ?_ ?_
    · have hd := lt_natDiv_add_one (n := fixOne) (Nat.succ_pos (2 * j))
      calc (1 : ℝ) / (2 * j + 1) = (fixOne : ℝ) / ((2 * j).succ : ℝ) / fixOne := by
            have := fixOne_pos.ne'
            push_cast; field_simp
        _ ≤ fixR (fixOne / (2 * j + 1) + 1) := by
            unfold fixR; push_cast
            push_cast at hd
            exact div_le_div_of_nonneg_right hd.le fixOne_pos.le
    · have hd := lt_natDiv_add_one (n := a * a * atanhHi a b terms (j + 1)) (Nat.mul_pos hb hb)
      calc ((a : ℝ) / b) ^ 2 * atanhTail 2 ((a : ℝ) / b) terms (j + 1)
          ≤ ((a : ℝ) / b) ^ 2 * fixR (atanhHi a b terms (j + 1)) :=
            mul_le_mul_of_nonneg_left (ih (j + 1)) (sq_nonneg _)
        _ = ((a * a * atanhHi a b terms (j + 1) : ℕ) : ℝ) / ((b * b : ℕ) : ℝ) / fixOne := by
            unfold fixR; push_cast; field_simp
        _ ≤ fixR (a * a * atanhHi a b terms (j + 1) / (b * b) + 1) := by
            unfold fixR; push_cast
            push_cast at hd
            exact div_le_div_of_nonneg_right hd.le fixOne_pos.le

theorem atanhTail_sum (base t : ℝ) (terms : ℕ) : ∀ j : ℕ,
    atanhTail base t terms j = (∑ k ∈ Finset.range terms, t ^ (2 * k) / (2 * (j + k : ℕ) + 1)) + t ^ (2 * terms) * base := by
  induction terms with
  | zero => intro j; simp [atanhTail]
  | succ terms ih =>
    intro j
    simp only [atanhTail]
    rw [ih (j + 1), Finset.sum_range_succ', mul_add, Finset.mul_sum]
    have e : ∀ k, t ^ 2 * (t ^ (2 * k) / (2 * (j + 1 + k : ℕ) + 1)) = t ^ (2 * (k + 1)) / (2 * (j + (k + 1) : ℕ) + 1) := fun k => by
      have : j + 1 + k = j + (k + 1) := by omega
      rw [this]; ring
    simp only [e]
    simp only [add_zero, mul_zero, pow_zero]
    ring

/-- The logarithm of a ratio as its series. -/
theorem log_ratio_hasSum {t : ℝ} (h0 : 0 ≤ t) (h1 : t < 1) :
    HasSum (fun k : ℕ => 2 * t * (t ^ (2 * k) / (2 * k + 1))) (Real.log ((1 + t) / (1 - t))) := by
  have h := Real.hasSum_log_sub_log_of_abs_lt_one (x := t) (by rw [abs_of_nonneg h0]; exact h1)
  rw [Real.log_div (by linarith) (by linarith)]
  convert h using 2 with k
  rw [pow_succ]; ring

theorem two_mul_atanhTail_le_log {t : ℝ} (h0 : 0 ≤ t) (h1 : t < 1) (terms : ℕ) :
    2 * t * atanhTail 0 t terms 0 ≤ Real.log ((1 + t) / (1 - t)) := by
  have h := log_ratio_hasSum h0 h1
  rw [atanhTail_sum, mul_zero, add_zero, Finset.mul_sum]
  have := sum_le_hasSum (Finset.range terms) (fun k _ => by positivity) h
  simpa using this

theorem log_le_two_mul_atanhTail {t : ℝ} (h0 : 0 ≤ t) (h1 : t ≤ 1 / 3) (terms : ℕ) :
    Real.log ((1 + t) / (1 - t)) ≤ 2 * t * atanhTail 2 t terms 0 := by
  have h := log_ratio_hasSum h0 (by linarith : t < 1)
  have ht2 : t ^ 2 < 1 := by nlinarith
  have hg : HasSum (fun k : ℕ => 2 * t * (t ^ (2 * terms) * (t ^ 2) ^ k)) (2 * t * (t ^ (2 * terms) * (1 - t ^ 2)⁻¹)) :=
    ((hasSum_geometric_of_lt_one (sq_nonneg t) ht2).mul_left _).mul_left _
  have htail := (hasSum_nat_add_iff' terms).2 h
  have hle : Real.log ((1 + t) / (1 - t)) - ∑ k ∈ Finset.range terms, 2 * t * (t ^ (2 * k) / (2 * k + 1)) ≤
      2 * t * (t ^ (2 * terms) * (1 - t ^ 2)⁻¹) := by
    refine hasSum_le (fun k => ?_) htail hg
    refine mul_le_mul_of_nonneg_left ?_ (by positivity)
    rw [← pow_mul, ← pow_add, show 2 * terms + 2 * k = 2 * (k + terms) by ring]
    refine div_le_self (by positivity) ?_
    have : (0 : ℝ) ≤ ((k + terms : ℕ) : ℝ) := Nat.cast_nonneg _
    linarith
  have hinv : (1 - t ^ 2)⁻¹ ≤ 2 := by
    rw [inv_le_comm₀ (by linarith) (by norm_num)]
    nlinarith
  rw [atanhTail_sum, mul_add, Finset.mul_sum]
  have h3 : 2 * t * (t ^ (2 * terms) * (1 - t ^ 2)⁻¹) ≤ 2 * t * (t ^ (2 * terms) * 2) := by gcongr
  simp only [zero_add]
  linarith

theorem ratio_eq {a b : ℕ} (hab : a < b) : (1 + (a : ℝ) / b) / (1 - (a : ℝ) / b) = ((b : ℝ) + a) / (b - a) := by
  have hb : (0 : ℝ) < b := by exact_mod_cast (by omega : 0 < b)
  have : (a : ℝ) < b := by exact_mod_cast hab
  have h1 : (b : ℝ) - a ≠ 0 := by linarith
  have h2 : 1 - (a : ℝ) / b ≠ 0 := by
    rw [sub_ne_zero]; intro h; rw [eq_div_iff hb.ne'] at h; linarith
  rw [div_eq_div_iff h2 h1]; field_simp

theorem lnRatioLo_le {a b : ℕ} (hab : a < b) : fixR (lnRatioLo a b) ≤ Real.log (((b : ℝ) + a) / (b - a)) := by
  have hb : 0 < b := by omega
  have hb' : (0 : ℝ) < b := by exact_mod_cast hb
  have hlt : (a : ℝ) / b < 1 := by rw [div_lt_one hb']; exact_mod_cast hab
  have h0 : 0 ≤ (a : ℝ) / b := by positivity
  rw [← ratio_eq hab]
  refine le_trans ?_ (two_mul_atanhTail_le_log h0 hlt logTerms)
  unfold lnRatioLo
  have hd := natDiv_le (2 * a * atanhLo a b logTerms 0) b
  calc fixR (2 * a * atanhLo a b logTerms 0 / b)
      ≤ ((2 * a * atanhLo a b logTerms 0 : ℕ) : ℝ) / b / fixOne := div_le_div_of_nonneg_right hd fixOne_pos.le
    _ = 2 * ((a : ℝ) / b) * fixR (atanhLo a b logTerms 0) := by unfold fixR; push_cast; ring
    _ ≤ _ := mul_le_mul_of_nonneg_left (atanhLo_le hb _ _) (by positivity)

theorem le_lnRatioHi {a b : ℕ} (hb : 0 < b) (hab : 3 * a ≤ b) :
    Real.log (((b : ℝ) + a) / (b - a)) ≤ fixR (lnRatioHi a b) := by
  have hb' : (0 : ℝ) < b := by exact_mod_cast hb
  have hle : (a : ℝ) / b ≤ 1 / 3 := by
    rw [div_le_div_iff₀ hb' (by norm_num)]
    have : (3 * a : ℝ) ≤ b := by exact_mod_cast hab
    linarith
  have h0 : 0 ≤ (a : ℝ) / b := by positivity
  rw [← ratio_eq (by omega : a < b)]
  refine (log_le_two_mul_atanhTail h0 hle logTerms).trans ?_
  unfold lnRatioHi
  have hd := lt_natDiv_add_one (n := 2 * a * atanhHi a b logTerms 0) hb
  calc 2 * ((a : ℝ) / b) * atanhTail 2 ((a : ℝ) / b) logTerms 0
      ≤ 2 * ((a : ℝ) / b) * fixR (atanhHi a b logTerms 0) := mul_le_mul_of_nonneg_left (le_atanhHi hb _ _) (by positivity)
    _ = ((2 * a * atanhHi a b logTerms 0 : ℕ) : ℝ) / b / fixOne := by unfold fixR; push_cast; ring
    _ ≤ fixR (2 * a * atanhHi a b logTerms 0 / b + 1) := by
        unfold fixR; push_cast
        push_cast at hd
        exact div_le_div_of_nonneg_right hd.le fixOne_pos.le

theorem ln2Lo_le : fixR ln2Lo ≤ Real.log 2 := by
  have h := lnRatioLo_le (a := 1) (b := 3) (by norm_num)
  norm_num at h
  exact h

theorem le_ln2Hi : Real.log 2 ≤ fixR ln2Hi := by
  have h := le_lnRatioHi (a := 1) (b := 3) (by norm_num) (by norm_num)
  norm_num at h
  exact h

theorem ln2Lo_ge : 69 * fixOne ≤ 100 * ln2Lo := by decide +kernel
theorem ln2Hi_le : 100 * ln2Hi ≤ 70 * fixOne := by decide +kernel
theorem ln2_width : ln2Lo ≤ ln2Hi ∧ 1000 * (ln2Hi - ln2Lo) ≤ fixOne := by decide +kernel

/-! ### The exponential, reduced -/

/-- A fixed-point integer as a real. -/
noncomputable def fixZ (z : ℤ) : ℝ := (z : ℝ) / (fixOne : ℝ)

theorem fixZ_natCast (n : ℕ) : fixZ (n : ℤ) = fixR n := by unfold fixZ fixR; push_cast; rfl

theorem exp_split (z : ℝ) (k : ℤ) : Real.exp z = Real.exp (z - k * Real.log 2) * (2 : ℝ) ^ k := by
  rw [← Real.exp_log (show (0 : ℝ) < (2 : ℝ) ^ k by positivity), ← Real.exp_add, Real.log_zpow]
  congr 1; ring

/-- What `roundScaled` rounds: a fixed-point number times a power of two, in units of 2^-149. -/
theorem scaled_eq (m : ℕ) {k : ℤ} (hk : -160 ≤ k) :
    ((m * 2 ^ (k + 160).toNat : ℕ) : ℝ) / ((2 ^ (fixBits + 11) : ℕ) : ℝ) = fixR m * (2 : ℝ) ^ k * 2 ^ 149 := by
  have h : ((2 : ℝ) ^ (k + 160).toNat) = (2 : ℝ) ^ k * 2 ^ 160 := by
    rw [← zpow_natCast, Int.toNat_of_nonneg (by omega), zpow_add₀ (by norm_num)]
    norm_num
  unfold fixR fixOne
  generalize fixBits = n
  push_cast
  rw [h, pow_add]
  have e160 : (2 : ℝ) ^ 160 = 2 ^ 149 * 2 ^ 11 := by rw [← pow_add]
  rw [e160]
  field_simp

/-- The lower bound of `e^z`, before it is rounded, is one. -/
theorem expLo_le (z : ℤ) :
    fixR (taylorLo (z % (if 0 ≤ z then (ln2Hi : ℤ) else ln2Lo)).toNat expTerms 1) *
      (2 : ℝ) ^ (z / (if 0 ≤ z then (ln2Hi : ℤ) else ln2Lo)) ≤ Real.exp (fixZ z) := by
  have hp := fixOne_pos
  set l : ℤ := if 0 ≤ z then (ln2Hi : ℤ) else ln2Lo with hl
  have hlo : (0 : ℤ) < ln2Lo := by
    have := ln2Lo_ge
    have : 0 < fixOne := Nat.two_pow_pos _
    omega
  have hl0 : 0 < l := by rw [hl]; have := ln2_width.1; split <;> omega
  have hmod := Int.emod_nonneg z hl0.ne'
  rw [exp_split (fixZ z) (z / l)]
  refine mul_le_mul_of_nonneg_right (fixR_taylorLo_le_exp ?_ _) (by positivity)
  rw [← fixZ_natCast, Int.toNat_of_nonneg hmod]
  have e : z % l = z - l * (z / l) := Int.emod_def z l
  have hk : fixZ (z % l) = fixZ z - ((z / l : ℤ) : ℝ) * fixZ l := by
    rw [e]; unfold fixZ; push_cast; ring
  rw [hk]
  have hmul : ((z / l : ℤ) : ℝ) * Real.log 2 ≤ ((z / l : ℤ) : ℝ) * fixZ l := by
    by_cases hz : 0 ≤ z
    · have : (0 : ℝ) ≤ ((z / l : ℤ) : ℝ) := by exact_mod_cast Int.ediv_nonneg hz hl0.le
      refine mul_le_mul_of_nonneg_left ?_ this
      rw [hl, if_pos hz, fixZ_natCast]; exact le_ln2Hi
    · have : ((z / l : ℤ) : ℝ) ≤ 0 := by
        have : z / l ≤ 0 := (Int.ediv_neg_of_neg_of_pos (by omega) hl0).le
        exact_mod_cast this
      refine mul_le_mul_of_nonpos_left ?_ this
      rw [hl, if_neg hz, fixZ_natCast]; exact ln2Lo_le
  linarith

/-- The quotient by a number near ln 2 of a number from -105 to 90, on any scale. -/
theorem quotient_le {z l n : ℤ} (hn : 0 < n) (h1 : -105 * n ≤ z) (h2 : z ≤ 90 * n) (hl1 : 69 * n ≤ 100 * l) :
    -160 ≤ z / l ∧ (z / l).natAbs ≤ 200 := by
  have hl0 : 0 < l := by omega
  have ha : z / l < 201 := by
    rw [Int.ediv_lt_iff_lt_mul hl0]; omega
  have hb : -160 ≤ z / l := by
    rw [Int.le_ediv_iff_mul_le hl0]; omega
  omega

/-- The upper bound of `e^z`, before it is rounded, is one, in the range where it is used. -/
theorem le_expHi {z : ℤ} (h1 : -105 * (fixOne : ℤ) ≤ z) (h2 : z ≤ 90 * (fixOne : ℤ)) :
    Real.exp (fixZ z) ≤
      fixR (taylorHi ((z % (if 0 ≤ z then (ln2Hi : ℤ) else ln2Lo)).toNat +
        (z / (if 0 ≤ z then (ln2Hi : ℤ) else ln2Lo)).natAbs * (ln2Hi - ln2Lo)) expTerms 1) *
      (2 : ℝ) ^ (z / (if 0 ≤ z then (ln2Hi : ℤ) else ln2Lo)) := by
  have hp := fixOne_pos
  have hpN : 0 < fixOne := Nat.two_pow_pos _
  set l : ℤ := if 0 ≤ z then (ln2Hi : ℤ) else ln2Lo with hl
  have hge := ln2Lo_ge
  have hle := ln2Hi_le
  have hw := ln2_width
  have hl0 : 0 < l := by rw [hl]; split <;> omega
  have hl1 : 69 * (fixOne : ℤ) ≤ 100 * l := by rw [hl]; split <;> omega
  have hl2 : 100 * l ≤ 70 * (fixOne : ℤ) := by rw [hl]; split <;> omega
  have hmod := Int.emod_nonneg z hl0.ne'
  have hmodlt := Int.emod_lt_of_pos z hl0
  have e : z % l = z - l * (z / l) := Int.emod_def z l
  set k : ℤ := z / l with hk
  have hkabs : k.natAbs ≤ 200 := (quotient_le (by exact_mod_cast hpN) h1 h2 hl1).2
  rw [exp_split (fixZ z) k]
  refine mul_le_mul_of_nonneg_right ?_ (by positivity)
  have hkR : fixZ (z % l) = fixZ z - (k : ℝ) * fixZ l := by
    rw [e]; unfold fixZ; push_cast; ring
  have hmul : (k : ℝ) * Real.log 2 ≤ (k : ℝ) * fixZ l ∧ (k : ℝ) * fixZ l ≤ (k : ℝ) * Real.log 2 + (k.natAbs : ℝ) * (fixR ln2Hi - fixR ln2Lo) := by
    have hlo := ln2Lo_le
    have hhi := le_ln2Hi
    by_cases hz : 0 ≤ z
    · have hk0 : 0 ≤ k := Int.ediv_nonneg hz hl0.le
      have hk0R : (0 : ℝ) ≤ (k : ℝ) := by exact_mod_cast hk0
      have hkN : (k.natAbs : ℝ) = (k : ℝ) := by rw [Nat.cast_natAbs, abs_of_nonneg hk0]
      rw [hl, if_pos hz, fixZ_natCast, hkN]
      constructor
      · exact mul_le_mul_of_nonneg_left hhi hk0R
      · have := mul_le_mul_of_nonneg_left hlo hk0R
        rw [mul_sub]; linarith
    · have hk0 : k ≤ 0 := (Int.ediv_neg_of_neg_of_pos (by omega) hl0).le
      have hk0R : (k : ℝ) ≤ 0 := by exact_mod_cast hk0
      have hkN : (k.natAbs : ℝ) = -(k : ℝ) := by rw [Nat.cast_natAbs, abs_of_nonpos hk0]; push_cast; rfl
      rw [hl, if_neg hz, fixZ_natCast, hkN]
      constructor
      · exact mul_le_mul_of_nonpos_left hlo hk0R
      · have := mul_le_mul_of_nonpos_left hhi hk0R
        rw [neg_mul, mul_sub]; linarith
  have hr : fixR (z % l).toNat = fixZ z - (k : ℝ) * fixZ l := by
    rw [← fixZ_natCast, Int.toNat_of_nonneg hmod, hkR]
  have hsub : fixR (ln2Hi - ln2Lo) = fixR ln2Hi - fixR ln2Lo := by
    have := fixR_add (ln2Hi - ln2Lo) ln2Lo
    rw [Nat.sub_add_cancel hw.1] at this
    linarith
  have hsum : fixR ((z % l).toNat + k.natAbs * (ln2Hi - ln2Lo)) =
      (fixZ z - (k : ℝ) * fixZ l) + (k.natAbs : ℝ) * (fixR ln2Hi - fixR ln2Lo) := by
    rw [fixR_add, hr, ← hsub]; unfold fixR; push_cast; ring
  have hone : fixR ((z % l).toNat + k.natAbs * (ln2Hi - ln2Lo)) ≤ 1 := by
    have hb : (z % l).toNat + k.natAbs * (ln2Hi - ln2Lo) ≤ fixOne := by
      have h5 : k.natAbs * (ln2Hi - ln2Lo) ≤ 200 * (ln2Hi - ln2Lo) := Nat.mul_le_mul_right _ hkabs
      have h6 : ((z % l).toNat : ℤ) = z % l := Int.toNat_of_nonneg hmod
      omega
    unfold fixR
    rw [div_le_one hp]; exact_mod_cast hb
  refine exp_le_fixR_taylorHi ?_ ?_ ?_ (by decide)
  · have := fixR_nonneg (z % l).toNat
    rw [hr] at this; linarith [hmul.1]
  · rw [hsum] at hone; linarith [hmul.2]
  · rw [hsum]; linarith [hmul.2]

/-! ### What both ends of an enclosure round to -/

/-- A magnitude both ends of an interval round to is nearest to everything inside it, and the even one where two are. -/
theorem roundMag_between {n1 d1 n2 d2 b : ℕ} (hd1 : 0 < d1) (hd2 : 0 < d2)
    (h1 : roundMag n1 d1 = some b) (h2 : roundMag n2 d2 = some b) {q : ℝ}
    (hlo : (n1 : ℝ) / d1 ≤ q) (hhi : q ≤ (n2 : ℝ) / d2) (b' : ℕ) :
    |(bitsMag b : ℝ) - q| ≤ |(bitsMag b' : ℝ) - q| ∧
    (|(bitsMag b' : ℝ) - q| = |(bitsMag b : ℝ) - q| → bitsMag b' = bitsMag b ∨ b % 2 = 0) := by
  have near : ∀ {n d : ℕ}, 0 < d → roundMag n d = some b →
      |(bitsMag b : ℝ) - (n : ℝ) / d| ≤ |(bitsMag b' : ℝ) - (n : ℝ) / d| ∧
      (|(bitsMag b' : ℝ) - (n : ℝ) / d| = |(bitsMag b : ℝ) - (n : ℝ) / d| → bitsMag b' = bitsMag b ∨ b % 2 = 0) := by
    intro n d hd h
    have hd' : (0 : ℝ) < d := by exact_mod_cast hd
    have hi := roundMag_nearest hd h b'
    have hr : |(bitsMag b : ℝ) * d - n| ≤ |(bitsMag b' : ℝ) * d - n| := by exact_mod_cast hi.1
    have e : ∀ m : ℝ, |m - (n : ℝ) / d| = |m * d - n| / d := fun m => by
      rw [← abs_of_pos hd', ← abs_div, abs_of_pos hd', sub_div, mul_div_cancel_right₀ _ hd'.ne']
    rw [e, e]
    refine ⟨div_le_div_of_nonneg_right hr hd'.le, fun ht => hi.2 ?_⟩
    rw [div_left_inj' hd'.ne'] at ht
    exact_mod_cast ht
  have a1 := near hd1 h1
  have a2 := near hd2 h2
  by_cases hne : bitsMag b' = bitsMag b
  · rw [hne]; exact ⟨le_rfl, fun _ => .inl rfl⟩
  have hne' : (bitsMag b' : ℝ) ≠ (bitsMag b : ℝ) := by exact_mod_cast hne
  set x := (bitsMag b : ℝ)
  set y := (bitsMag b' : ℝ)
  rcases lt_or_gt_of_ne hne' with hyx | hyx
  · have hm : (x + y) / 2 ≤ (n1 : ℝ) / d1 := by
      have a1 := a1.1
      by_contra hc
      rw [not_le] at hc
      have e1 : |x - (n1 : ℝ) / d1| = x - (n1 : ℝ) / d1 := abs_of_nonneg (by linarith)
      rw [e1] at a1
      rcases abs_cases (y - (n1 : ℝ) / d1) with ⟨h, _⟩ | ⟨h, _⟩ <;> rw [h] at a1 <;> linarith
    rw [abs_of_nonpos (by linarith : y - q ≤ 0)]
    refine ⟨by rw [abs_le]; constructor <;> linarith, fun ht => a1.2 ?_⟩
    have hq : q = (x + y) / 2 := by
      rcases abs_cases (x - q) with ⟨h, _⟩ | ⟨h, _⟩ <;> rw [h] at ht <;> linarith
    have hn : (n1 : ℝ) / d1 = (x + y) / 2 := le_antisymm (by linarith) hm
    rw [hn, abs_of_nonpos (by linarith), abs_of_nonneg (by linarith)]; ring
  · have hm : (n2 : ℝ) / d2 ≤ (x + y) / 2 := by
      have a2 := a2.1
      by_contra hc
      rw [not_le] at hc
      have e1 : |x - (n2 : ℝ) / d2| = (n2 : ℝ) / d2 - x := by rw [abs_of_nonpos (by linarith)]; ring
      rw [e1] at a2
      rcases abs_cases (y - (n2 : ℝ) / d2) with ⟨h, _⟩ | ⟨h, _⟩ <;> rw [h] at a2 <;> linarith
    rw [abs_of_nonneg (by linarith : 0 ≤ y - q)]
    refine ⟨by rw [abs_le]; constructor <;> linarith, fun ht => a2.2 ?_⟩
    have hq : q = (x + y) / 2 := by
      rcases abs_cases (x - q) with ⟨h, _⟩ | ⟨h, _⟩ <;> rw [h] at ht <;> linarith
    have hn : (n2 : ℝ) / d2 = (x + y) / 2 := le_antisymm hm (by linarith)
    rw [hn, abs_of_nonneg (by linarith), abs_of_nonpos (by linarith)]; ring

theorem fRat_cast (x : F) : ((fRat x : ℚ) : ℝ) = (fVal x : ℝ) / 2 ^ 149 := by
  unfold fRat; push_cast; rfl

/-- Bits nearest to a non-negative real, in units of 2^-149, are those of the nearest binary32 value. -/
theorem nearestReal_of_bits {b : ℕ} (hb : b < 0x7F800000) {q : ℝ} (hq : 0 ≤ q)
    (h : ∀ b' < 0x7F800000, |(bitsMag b : ℝ) - q * 2 ^ 149| ≤ |(bitsMag b' : ℝ) - q * 2 ^ 149| ∧
      (|(bitsMag b' : ℝ) - q * 2 ^ 149| = |(bitsMag b : ℝ) - q * 2 ^ 149| → bitsMag b' = bitsMag b ∨ b % 2 = 0)) :
    NearestReal q (fPack false b) := by
  refine ⟨fFinite_fPack hb, fun z hz => ?_⟩
  have e : ∀ m : ℝ, |m / 2 ^ 149 - q| = |m - q * 2 ^ 149| / 2 ^ 149 := fun m => by
    have hp : (0 : ℝ) < 2 ^ 149 := by positivity
    rw [← abs_of_pos hp, ← abs_div, abs_of_pos hp, sub_div, mul_div_cancel_right₀ _ hp.ne']
  have hv : fVal (fPack false b) = (bitsMag b : ℤ) := by rw [fVal_fPack hb, if_neg (by simp)]
  have hn : (fPack false b).toNat = b := by rw [fPack_toNat hb]; simp
  have key : |(bitsMag b : ℝ) - q * 2 ^ 149| ≤ |(fVal z : ℝ) - q * 2 ^ 149| ∧
      (|(fVal z : ℝ) - q * 2 ^ 149| = |(bitsMag b : ℝ) - q * 2 ^ 149| → fVal z = (bitsMag b : ℤ) ∨ b % 2 = 0) := by
    have hzm := fMag_eq_bitsMag z
    have hzb := finite_bits_lt hz
    unfold fVal
    split
    · obtain ⟨h1, h2⟩ := h 0 (by norm_num)
      have h0 : bitsMag 0 = 0 := by decide
      rw [h0, Nat.cast_zero] at h1 h2
      have hqp : (0 : ℝ) ≤ q * 2 ^ 149 := by positivity
      have hm : (0 : ℝ) ≤ (fMag z : ℝ) := Nat.cast_nonneg _
      push_cast
      rw [abs_of_nonpos (by linarith : (0 : ℝ) - q * 2 ^ 149 ≤ 0)] at h1 h2
      rw [abs_of_nonpos (by linarith : -(fMag z : ℝ) - q * 2 ^ 149 ≤ 0)]
      refine ⟨by linarith, fun ht => ?_⟩
      have hz0 : (fMag z : ℝ) = 0 := by linarith
      rcases h2 (by linarith) with h3 | h3
      · left
        have : fMag z = 0 := by exact_mod_cast hz0
        rw [this, ← h3]; simp
      · exact .inr h3
    · obtain ⟨h1, h2⟩ := h _ hzb
      rw [hzm]
      refine ⟨by exact_mod_cast h1, fun ht => ?_⟩
      rcases h2 (by exact_mod_cast ht) with h3 | h3
      · left; exact_mod_cast h3
      · exact .inr h3
  rw [fRat_cast, fRat_cast, e, e, hv, hn, Int.cast_natCast]
  refine ⟨div_le_div_of_nonneg_right key.1 (by positivity), fun ht => ?_⟩
  rw [div_left_inj' (by positivity)] at ht
  refine (key.2 ht).imp_left fun h3 => ?_
  unfold fRat; rw [h3, hv]

/-- `expBetween` gives a value only where it is nearest to `e^z` for every `z` of the interval (40_numerics.md R76). -/
theorem expBetween_nearest {zlo zhi : ℤ} {z : ℝ} (hlo : fixZ zlo ≤ z) (hhi : z ≤ fixZ zhi) {v : F}
    (h : expBetween zlo zhi = some v) : NearestReal (Real.exp z) v := by
  have hp := fixOne_pos
  have hpN : (0 : ℤ) < (fixOne : ℤ) := by exact_mod_cast Nat.two_pow_pos fixBits
  have hle : zlo ≤ zhi := by
    have h1 := hlo.trans hhi
    unfold fixZ at h1
    rw [div_le_div_iff_of_pos_right hp] at h1
    exact_mod_cast h1
  unfold expBetween at h
  split at h
  · cases h
  · rename_i c1
    split at h
    · rename_i c2
      cases h
      refine nearestReal_of_bits (by norm_num) (Real.exp_pos z).le fun b' _ => ⟨?_, fun _ => .inr rfl⟩
      have h0 : bitsMag 0 = 0 := by decide
      have hz : z ≤ -105 := by
        refine hhi.trans ?_
        unfold fixZ
        rw [div_le_iff₀ hp]
        exact_mod_cast c2
      have hsmall : Real.exp z * 2 ^ 149 ≤ 1 / 4 := by
        have h1 : Real.exp z ≤ Real.exp (-(151 * Real.log 2)) := by
          refine Real.exp_le_exp.2 ?_
          have := Real.log_two_lt_d9
          linarith
        have h2 : Real.exp (-(151 * Real.log 2)) = ((2 : ℝ) ^ 151)⁻¹ := by
          rw [Real.exp_neg, mul_comm, Real.exp_mul, Real.exp_log (by norm_num)]
          norm_cast
        rw [h2] at h1
        calc Real.exp z * 2 ^ 149 ≤ ((2 : ℝ) ^ 151)⁻¹ * 2 ^ 149 := by gcongr
          _ = 1 / 4 := by norm_num
      have hpos : 0 ≤ Real.exp z * 2 ^ 149 := by positivity
      rw [h0, Nat.cast_zero, zero_sub, abs_neg, abs_of_nonneg hpos]
      rcases Nat.eq_zero_or_pos (bitsMag b') with hb | hb
      · rw [hb, Nat.cast_zero, zero_sub, abs_neg, abs_of_nonneg hpos]
      · have : (1 : ℝ) ≤ (bitsMag b' : ℝ) := by exact_mod_cast hb
        rw [abs_of_nonneg (by linarith)]; linarith
    · rename_i c2
      split at h
      · cases h
      · rename_i c3
        have hlo1 : -105 * (fixOne : ℤ) ≤ zlo := by omega
        have hhi2 : zhi ≤ 90 * (fixOne : ℤ) := by omega
        split at h
        · rename_i lo hi elo ehi
          split at h
          · rename_i e
            subst e
            cases h
            have hl1 : ∀ z : ℤ, 69 * (fixOne : ℤ) ≤ 100 * (if 0 ≤ z then (ln2Hi : ℤ) else ln2Lo) := by
              intro z
              have := ln2Lo_ge
              have := ln2_width
              split <;> omega
            have klo := (quotient_le hpN hlo1 (by omega : zlo ≤ 90 * (fixOne : ℤ)) (hl1 zlo)).1
            have khi := (quotient_le hpN (by omega : -105 * (fixOne : ℤ) ≤ zhi) hhi2 (hl1 zhi)).1
            unfold expLoBits roundScaled at elo
            unfold expHiBits roundScaled at ehi
            have hD : 0 < 2 ^ (fixBits + 11) := Nat.two_pow_pos _
            have b1 := (roundMag_some hD elo).2.1
            refine nearestReal_of_bits b1 (Real.exp_pos z).le
              fun b' _ => roundMag_between hD hD elo ehi ?_ ?_ b'
            · rw [scaled_eq _ klo]
              refine mul_le_mul_of_nonneg_right ?_ (by positivity)
              exact (expLo_le zlo).trans (Real.exp_le_exp.2 hlo)
            · rw [scaled_eq _ khi]
              refine mul_le_mul_of_nonneg_right ?_ (by positivity)
              exact (Real.exp_le_exp.2 hhi).trans (le_expHi (by omega) hhi2)
          · cases h
        · cases h

/-! ### The logarithm -/

/-- The bounds of `ln x` for a positive finite value (40_numerics.md R75). -/
theorem ln_between {x : F} (hx : 0 < fMag x) :
    fixZ (lnLo x) ≤ Real.log ((fMag x : ℝ) / 2 ^ 149) ∧ Real.log ((fMag x : ℝ) / 2 ^ 149) ≤ fixZ (lnHi x) := by
  set m := fMag x with hm
  set g := Nat.log2 m with hg
  have h1 : 2 ^ g ≤ m := Nat.log2_self_le hx.ne'
  have h2 : m < 2 ^ (g + 1) := Nat.lt_log2_self
  have hpow : 2 ^ (g + 1) = 2 * 2 ^ g := by rw [pow_succ]; ring
  have hgp : 0 < 2 ^ g := Nat.two_pow_pos g
  have hmR : (0 : ℝ) < m := by exact_mod_cast hx
  have hlog : Real.log ((m : ℝ) / 2 ^ 149) = ((g : ℤ) - 149 : ℤ) * Real.log 2 +
      Real.log ((((m + 2 ^ g : ℕ) : ℝ) + ((m - 2 ^ g : ℕ) : ℝ)) / (((m + 2 ^ g : ℕ) : ℝ) - ((m - 2 ^ g : ℕ) : ℝ))) := by
    have e1 : ((m - 2 ^ g : ℕ) : ℝ) = (m : ℝ) - 2 ^ g := by rw [Nat.cast_sub h1]; push_cast; rfl
    rw [e1]
    push_cast
    have e2 : ((m : ℝ) + 2 ^ g + (m - 2 ^ g)) / (m + 2 ^ g - (m - 2 ^ g)) = m / 2 ^ g := by
      have : (0 : ℝ) < 2 ^ g := by positivity
      field_simp; ring
    rw [e2, Real.log_div hmR.ne' (by positivity), Real.log_div hmR.ne' (by positivity), Real.log_pow, Real.log_pow]
    push_cast; ring
  have hab : m - 2 ^ g < m + 2 ^ g := by omega
  have h3 : 3 * (m - 2 ^ g) ≤ m + 2 ^ g := by omega
  have hL := lnRatioLo_le hab
  have hH := le_lnRatioHi (by omega : 0 < m + 2 ^ g) h3
  have l1 := ln2Lo_le
  have l2 := le_ln2Hi
  have cast : ∀ (e : ℤ) (a b : ℕ), fixZ (e * (a : ℤ) + (b : ℤ)) = (e : ℝ) * fixR a + fixR b := fun e a b => by
    unfold fixZ fixR; push_cast; rw [add_div, mul_div_assoc]
  rw [hlog]
  unfold lnLo lnHi
  simp only [← hm, ← hg]
  set e : ℤ := (g : ℤ) - 149
  by_cases he : 0 ≤ e
  · have heR : (0 : ℝ) ≤ (e : ℝ) := by exact_mod_cast he
    rw [if_pos he, if_pos he, cast, cast]
    have a1 := mul_le_mul_of_nonneg_left l1 heR
    have a2 := mul_le_mul_of_nonneg_left l2 heR
    constructor <;> linarith
  · have heR : (e : ℝ) ≤ 0 := by
      have : e ≤ 0 := by omega
      exact_mod_cast this
    rw [if_neg he, if_neg he, cast, cast]
    have a1 := mul_le_mul_of_nonpos_left l1 heR
    have a2 := mul_le_mul_of_nonpos_left l2 heR
    constructor <;> linarith

/-- An integer quotient by a positive integer, as fixed point, is within one unit below. -/
theorem fixZ_ediv {a d : ℤ} (hd : 0 < d) : fixZ (a / d) ≤ fixZ a / d ∧ fixZ a / d ≤ fixZ (a / d + 1) := by
  have hp := fixOne_pos
  have hdR : (0 : ℝ) < d := by exact_mod_cast hd
  have h1 : a / d * d ≤ a := Int.ediv_mul_le a hd.ne'
  have h2 : a < (a / d + 1) * d := Int.lt_ediv_add_one_mul_self a hd
  unfold fixZ
  have e : (a : ℝ) / fixOne / d = (a : ℝ) / d / fixOne := by rw [div_div, div_div, mul_comm]
  rw [e]
  constructor
  · refine div_le_div_of_nonneg_right ?_ hp.le
    rw [le_div_iff₀ hdR]; exact_mod_cast h1
  · refine div_le_div_of_nonneg_right ?_ hp.le
    rw [div_le_iff₀ hdR]; exact_mod_cast h2.le

end Sys2Proof.Machine
end

