-- ==== Sys2Proof/Laws/Numerics.lean ====
section
/-! SUPPORT. The numerics record, said once: what an operation and an expression give under each record, and that a place within a computation keeps the parameters. -/

namespace Sys2Proof.Machine

@[simp] theorem Ctx.nth_cfg (c : Ctx) (i : Nat) : (c.nth i).cfg = c.cfg := rfl

theorem numResult_reference {c : Ctx} (h : c.cfg.num = .reference) (op : NumOp) (a b : F) (exact : Option F) :
    numResult c op a b exact = exact.getD c.draw := by
  cases exact <;> simp [numResult, h]

theorem evaluated_reference {c : Ctx} (h : c.cfg.num = .reference) (e : RuleExpr) (args : List F) (written : F) :
    evaluated c e args written = written := by
  simp [evaluated, h]

theorem evaluated_other {c : Ctx} {k : Nat} (h : c.cfg.num = .other k) (e : RuleExpr) (args : List F) (written : F) :
    evaluated c e args written = written := by
  simp [evaluated, h]

/-- Another order of evaluation gives a function of the operands, or draws. -/
theorem evaluated_reordered {c : Ctx} {k : Nat} (h : c.cfg.num = .reordered k) (e : RuleExpr) (args : List F) (written : F) :
    evaluated c e args written = (if args.all fFinite then (Config.evalOrder k e args).getD c.draw else c.draw) := by
  simp [evaluated, h, reorderedValue]

theorem sampleSum_reference {c : Ctx} (h : c.cfg.num = .reference) (a b : Nat) (w t : TapQuad) :
    sampleSum c a b w t = sampleBlend (c.nth 0) w t := by
  simp [sampleSum, h]

theorem sampleSum_other {c : Ctx} {k : Nat} (h : c.cfg.num = .other k) (a b : Nat) (w t : TapQuad) :
    sampleSum c a b w t = sampleBlend (c.nth 0) w t := by
  simp [sampleSum, h]

end Sys2Proof.Machine
end

