-- ==== Sys2Proof/Laws/Nearest.lean ====
section
/-! SUPPORT. What correct rounding gives: the packed rounding of a magnitude is a nearest value, a representable value rounds to itself, and rounding keeps order and sign. -/

namespace Sys2Proof.Machine

theorem nearestEven_iff_real {q : ℚ} {v : F} : NearestEven q v ↔ NearestReal (q : ℝ) v := by
  unfold NearestEven NearestReal
  refine and_congr_right fun _ => forall_congr' fun z => imp_congr_right fun _ => ?_
  have e : ∀ w : F, |(fRat w : ℝ) - (q : ℝ)| = ((|fRat w - q| : ℚ) : ℝ) := fun w => by push_cast; rfl
  rw [e, e, Rat.cast_le, Rat.cast_inj]

/-! ### The value of a packed magnitude -/

theorem fRat_fPack {neg : Bool} {b : ℕ} (hb : b < 0x7F800000) :
    fRat (fPack neg b) = (if neg then -1 else 1) * ((bitsMag b : ℚ) / 2 ^ 149) := by
  unfold fRat
  rw [fVal_fPack hb]
  cases neg <;> simp [neg_div]

/-- Bits, with a sign, stand for every finite value. -/
theorem fRat_bits {z : F} (hz : fFinite z = true) :
    fRat z = (if fNeg z then -1 else 1) * ((bitsMag (z.toNat % 2 ^ 31) : ℚ) / 2 ^ 149) := by
  conv_lhs => rw [← fPack_self hz]
  exact fRat_fPack (finite_bits_lt hz)

theorem fPack_mod_two {neg : Bool} {b : ℕ} (hb : b < 0x7F800000) : (fPack neg b).toNat % 2 = b % 2 := by
  rw [fPack_toNat hb]; split <;> omega

theorem fRat_fPack_not {neg : Bool} {b : ℕ} (hb : b < 0x7F800000) : fRat (fPack (!neg) b) = -fRat (fPack neg b) := by
  rw [fRat_fPack hb, fRat_fPack hb]; cases neg <;> simp

/-- Rounding commutes with a change of sign. -/
theorem nearestEven_neg {q : ℚ} {neg : Bool} {b : ℕ} (hb : b < 0x7F800000) (h : NearestEven q (fPack neg b)) :
    NearestEven (-q) (fPack (!neg) b) := by
  refine ⟨fFinite_fPack hb, fun z hz => ?_⟩
  have hz' := finite_bits_lt hz
  obtain ⟨h1, h2⟩ := h.2 (fPack (!fNeg z) (z.toNat % 2 ^ 31)) (fFinite_fPack hz')
  rw [fRat_fPack_not hz', fPack_self hz] at h1 h2
  rw [fRat_fPack_not hb, fPack_mod_two hb]
  rw [fPack_mod_two hb] at h2
  have e : ∀ a : ℚ, |-a - q| = |a - -q| := fun a => by rw [← abs_neg]; congr 1; ring
  have e' : ∀ a : ℚ, |-a - -q| = |a - q| := fun a => by rw [← abs_neg]; congr 1; ring
  rw [e] at h1 h2
  rw [e']
  exact ⟨h1, fun ht => (h2 ht).imp_left fun h3 => by rw [← h3, neg_neg]⟩

/-- The rounding of a magnitude, packed with a sign, is nearest to the signed value. -/
theorem nearestEven_pack (neg : Bool) {n d b : ℕ} (hd : 0 < d) (h : roundMag n d = some b) :
    NearestEven ((if neg then -1 else 1) * ((n : ℚ) / d / 2 ^ 149)) (fPack neg b) := by
  have hb := (roundMag_some hd h).2.1
  have pos : NearestEven ((n : ℚ) / d / 2 ^ 149) (fPack false b) := by
    rw [nearestEven_iff_real]
    refine nearestReal_of_bits hb (by positivity) fun b' _ => ?_
    have e : (((n : ℚ) / d / 2 ^ 149 : ℚ) : ℝ) * 2 ^ 149 = (n : ℝ) / d := by push_cast; field_simp
    rw [e]
    exact roundMag_between hd hd h h le_rfl le_rfl b'
  cases neg with
  | false => simpa using pos
  | true => simpa using nearestEven_neg hb pos

/-! ### Laws of rounding -/

/-- A representable value rounds to itself. -/
theorem NearestEven.exact {q : ℚ} {v z : F} (h : NearestEven q v) (hz : fFinite z = true) (e : fRat z = q) : fRat v = q := by
  have := (h.2 z hz).1
  rw [e, sub_self, abs_zero] at this
  exact sub_eq_zero.1 (abs_eq_zero.1 (le_antisymm this (abs_nonneg _)))

/-- Rounding does not pass a representable value. -/
theorem NearestEven.le_of_le {q : ℚ} {v z : F} (h : NearestEven q v) (hz : fFinite z = true) (hq : q ≤ fRat z) : fRat v ≤ fRat z := by
  have := (h.2 z hz).1
  by_contra hc
  rw [not_le] at hc
  rw [abs_of_nonneg (by linarith : 0 ≤ fRat z - q), abs_of_nonneg (by linarith)] at this
  linarith

theorem NearestEven.ge_of_ge {q : ℚ} {v z : F} (h : NearestEven q v) (hz : fFinite z = true) (hq : fRat z ≤ q) : fRat z ≤ fRat v := by
  have := (h.2 z hz).1
  by_contra hc
  rw [not_le] at hc
  rw [abs_of_nonpos (by linarith : fRat z - q ≤ 0), abs_of_nonpos (by linarith)] at this
  linarith

/-- A finite value with the bits of another value's exact copy: a value rounds to itself bit for bit unless it is a zero. -/
theorem nearestEven_self {v : F} (hv : fFinite v = true) : NearestEven (fRat v) v :=
  ⟨hv, fun z _ => by rw [sub_self, abs_zero]; exact ⟨abs_nonneg _, fun h => .inl (sub_eq_zero.1 (abs_eq_zero.1 h))⟩⟩

end Sys2Proof.Machine
end

