-- ==== Sys2Proof/Laws/PerInstr.lean ====
section
/-! SUPPORT. The per-instruction family: the mode field of every instruction's word (30_encoding.md R59). -/

namespace Sys2Proof.Laws.ModeField

/-- The mode value of an instruction, by the table of 30_encoding.md R59. -/
def value : Instr → Nat
  | .prefilter _ _ _ _ => 0
  | .downsample _ _ _ _ => 1
  | .upsampleFirst _ _ _ _ => 2
  | .upsample _ _ _ _ => 3
  | .apply _ _ _ _ => 4

/-- A well-formed instruction's word has its mode value in bits 31 to 28. -/
def Statement (i : Instr) : Prop := i.wellFormed = true → (decodeFields (encode i)).mode = value i

theorem of_bounds {t : Fields} (hm : t.mode < 16) (hl : t.lod < 128) (hi : t.input < 128)
    (ho : t.output < 128) (hb : t.bloom < 128) : (decodeFields (encodeFields t)).mode = t.mode := by
  have h := encodeFields_toNat hm hl hi ho hb
  simp only [decodeFields, bitField, h]
  omega

theorem prefilter (l i o b : Nat) : Statement (.prefilter l i o b) := by
  intro h
  simp only [Instr.wellFormed, fits7, Bool.and_eq_true, decide_eq_true_eq] at h
  exact of_bounds (t := ⟨0, l, i, o, b⟩) (show 0 < 16 by decide) h.1.1.1 h.1.1.2 h.1.2 h.2

theorem downsample (l i o b : Nat) : Statement (.downsample l i o b) := by
  intro h
  simp only [Instr.wellFormed, fits7, Bool.and_eq_true, decide_eq_true_eq] at h
  exact of_bounds (t := ⟨1, l, i, o, b⟩) (show 1 < 16 by decide) h.1.1.1 h.1.1.2 h.1.2 h.2

theorem upsampleFirst (l i o b : Nat) : Statement (.upsampleFirst l i o b) := by
  intro h
  simp only [Instr.wellFormed, fits7, Bool.and_eq_true, decide_eq_true_eq] at h
  exact of_bounds (t := ⟨2, l, i, o, b⟩) (show 2 < 16 by decide) h.1.1.1 h.1.1.2 h.1.2 h.2

theorem upsample (l i o b : Nat) : Statement (.upsample l i o b) := by
  intro h
  simp only [Instr.wellFormed, fits7, Bool.and_eq_true, decide_eq_true_eq] at h
  exact of_bounds (t := ⟨3, l, i, o, b⟩) (show 3 < 16 by decide) h.1.1.1 h.1.1.2 h.1.2 h.2

theorem apply (l i o b : Nat) : Statement (.apply l i o b) := by
  intro h
  simp only [Instr.wellFormed, fits7, Bool.and_eq_true, decide_eq_true_eq] at h
  exact of_bounds (t := ⟨4, l, i, o, b⟩) (show 4 < 16 by decide) h.1.1.1 h.1.1.2 h.1.2 h.2

end Sys2Proof.Laws.ModeField
end

