-- ==== Sys2Proof/Laws/Power.lean ====
section
/-! SUPPORT. `pow` of a positive base is the exact power rounded once, ties to even, and fails exactly on overflow (40_numerics.md R75, R79). -/

namespace Sys2Proof.Machine

/-! ### Magnitudes in order -/

theorem bitsMag_step (b : ℕ) : bitsMag b < bitsMag (b + 1) := by
  have hm : b % 2 ^ 23 < 2 ^ 23 := Nat.mod_lt _ (by norm_num)
  have hd : 2 ^ 23 * (b / 2 ^ 23) + b % 2 ^ 23 = b := Nat.div_add_mod b (2 ^ 23)
  unfold bitsMag
  generalize he : b / 2 ^ 23 = e at *
  generalize hf : b % 2 ^ 23 = f at *
  by_cases hc : f + 1 < 2 ^ 23
  · have h1 : (b + 1) / 2 ^ 23 = e := by omega
    have h2 : (b + 1) % 2 ^ 23 = f + 1 := by omega
    rw [h1, h2]
    split
    · exact Nat.lt_succ_self f
    · exact Nat.mul_lt_mul_of_pos_right (by omega) (Nat.two_pow_pos _)
  · have h1 : (b + 1) / 2 ^ 23 = e + 1 := by omega
    have h2 : (b + 1) % 2 ^ 23 = 0 := by omega
    rw [h1, h2, if_neg (Nat.succ_ne_zero e), Nat.add_sub_cancel, Nat.add_zero]
    cases e with
    | zero => rw [if_pos rfl, pow_zero]; omega
    | succ k =>
      rw [if_neg (Nat.succ_ne_zero k), Nat.add_sub_cancel, pow_succ 2 k]
      have := Nat.two_pow_pos k
      nlinarith

theorem bitsMag_strictMono : StrictMono bitsMag := strictMono_nat_of_lt_succ bitsMag_step

/-! ### The search -/

/-- A descending test's greatest admitted number below the bound, or 0. -/
theorem searchBits_spec {test : ℕ → Bool} (mono : ∀ a b, 0 < a → a ≤ b → test b = true → test a = true) :
    ∀ i b, (b = 0 ∨ test b = true) → (∀ c, b + 2 ^ i ≤ c → c < 2 ^ 31 → test c = false) →
      (searchBits test i b = 0 ∨ test (searchBits test i b) = true) ∧
      ∀ c, searchBits test i b < c → c < 2 ^ 31 → test c = false := by
  intro i
  induction i with
  | zero => intro b hb hc; exact ⟨hb, fun c h1 h2 => hc c (by rw [pow_zero]; exact h1) h2⟩
  | succ i ih =>
    intro b hb hc
    have hp : 2 ^ (i + 1) = 2 ^ i + 2 ^ i := by rw [pow_succ]; ring
    have h2 := Nat.two_pow_pos i
    rw [searchBits]
    split
    · rename_i ht
      exact ih _ (.inr ht) fun c h3 h4 => hc c (by omega) h4
    · rename_i ht
      refine ih _ hb fun c h3 h4 => ?_
      by_contra hne
      exact ht (mono _ c (by omega) h3 (by simpa using hne))

/-! ### Powers compared -/

/-- The middle of the values with bits `b - 1` and `b`. -/
noncomputable def bitsMid (b : ℕ) : ℝ := ((bitsMag (b - 1) + bitsMag b : ℕ) : ℝ) / 2 ^ 150

theorem fRat_of_pos {x : F} (hx : 0 < fRat x) : 0 < fMag x ∧ ((fRat x : ℚ) : ℝ) = (fMag x : ℝ) / 2 ^ 149 := by
  have hv : 0 < fVal x := by
    have h : (0 : ℚ) < (fVal x : ℚ) := by
      unfold fRat at hx
      have hp : (0 : ℚ) < 2 ^ 149 := by positivity
      exact (div_pos_iff_of_pos_right hp).1 hx
    exact_mod_cast h
  have hm : fVal x = (fMag x : ℤ) := by
    unfold fVal at hv ⊢
    split at hv
    · have : (0 : ℤ) ≤ (fMag x : ℤ) := Int.natCast_nonneg _
      omega
    · rename_i h; rw [if_neg h]
  refine ⟨by rw [hm] at hv; exact_mod_cast hv, ?_⟩
  rw [fRat_cast, hm, Int.cast_natCast]

/-- Both sides are a common positive multiple of the `q`-th powers of what they compare. -/
theorem powSides_eq {x : F} (hx : 0 < fRat x) (y : F) (b : ℕ) : ∃ (q : ℕ) (D : ℝ), q ≠ 0 ∧ 0 < D ∧
    ((powSides x y b).1 : ℝ) = ((fRat x : ℝ) ^ (fRat y : ℝ)) ^ q * D ∧ ((powSides x y b).2 : ℝ) = bitsMid b ^ q * D := by
  obtain ⟨hX, hxr⟩ := fRat_of_pos hx
  have hXR : (0 : ℝ) < (fMag x : ℝ) := by exact_mod_cast hX
  have hg : 0 < Nat.gcd (fVal y).natAbs (2 ^ 149) := Nat.gcd_pos_of_pos_right _ (Nat.two_pow_pos _)
  have hgR : (0 : ℝ) < (Nat.gcd (fVal y).natAbs (2 ^ 149) : ℝ) := by exact_mod_cast hg
  have hp := Nat.div_mul_cancel (Nat.gcd_dvd_left (fVal y).natAbs (2 ^ 149))
  have hq := Nat.div_mul_cancel (Nat.gcd_dvd_right (fVal y).natAbs (2 ^ 149))
  unfold powSides
  simp only
  set g := Nat.gcd (fVal y).natAbs (2 ^ 149)
  set p := (fVal y).natAbs / g
  set q := 2 ^ 149 / g with hqd
  have hq0 : q ≠ 0 := by rintro h; rw [h, Nat.zero_mul] at hq; exact absurd hq.symm (Nat.two_pow_pos 149).ne'
  have hqR : (q : ℝ) * g = 2 ^ 149 := by exact_mod_cast hq
  have hpR : (p : ℝ) * g = ((fVal y).natAbs : ℝ) := by exact_mod_cast hp
  have hXY : ∀ s : ℝ, (fVal y : ℝ) = s * ((fVal y).natAbs : ℝ) →
      ((fRat x : ℝ) ^ (fRat y : ℝ)) ^ q = (fRat x : ℝ) ^ (s * p) := by
    intro s hs
    rw [← Real.rpow_natCast, ← Real.rpow_mul (by rw [hxr]; positivity), fRat_cast y, hs, ← hpR, ← hqR]
    congr 1
    have : (q : ℝ) ≠ 0 := by exact_mod_cast hq0
    field_simp
  have hmid : bitsMid b ^ q * (2 : ℝ) ^ (150 * q) = ((bitsMag (b - 1) + bitsMag b : ℕ) : ℝ) ^ q := by
    unfold bitsMid
    rw [div_pow, pow_mul, div_mul_cancel₀]; positivity
  split
  · rename_i h0
    have hr := hXY 1 (by rw [one_mul, Nat.cast_natAbs, abs_of_nonneg h0])
    rw [one_mul, Real.rpow_natCast, hxr, div_pow] at hr
    refine ⟨q, 2 ^ (150 * q) * 2 ^ (149 * p), hq0, by positivity, ?_, ?_⟩
    · rw [hxr, hr]; push_cast; rw [pow_mul 2 149 p]; field_simp
    · rw [← mul_assoc, hmid]; push_cast; ring
  · rename_i h0
    have hr := hXY (-1) (by rw [Nat.cast_natAbs, abs_of_neg (by omega)]; push_cast; ring)
    rw [neg_one_mul, Real.rpow_neg (by rw [hxr]; positivity), Real.rpow_natCast, hxr, div_pow, inv_div] at hr
    refine ⟨q, 2 ^ (150 * q) * fMag x ^ p, hq0, by positivity, ?_, ?_⟩
    · rw [hxr, hr]; push_cast; rw [pow_mul 2 149 p]; field_simp
    · rw [← mul_assoc, hmid]; push_cast; ring

theorem bitsMid_nonneg (b : ℕ) : 0 ≤ bitsMid b := by unfold bitsMid; positivity

/-- What the search tests: the power lies past the middle, or at it with `b` even. -/
theorem powReaches_iff {x : F} (hx : 0 < fRat x) (y : F) (b : ℕ) :
    powReaches x y b = true ↔ bitsMid b < (fRat x : ℝ) ^ (fRat y : ℝ) ∨ (bitsMid b = (fRat x : ℝ) ^ (fRat y : ℝ) ∧ b % 2 = 0) := by
  obtain ⟨q, D, hq, hD, h1, h2⟩ := powSides_eq hx y b
  have hR : (0 : ℝ) ≤ (fRat x : ℝ) ^ (fRat y : ℝ) := Real.rpow_nonneg (by exact_mod_cast hx.le) _
  have hM := bitsMid_nonneg b
  have hlt : (powSides x y b).2 < (powSides x y b).1 ↔ bitsMid b < (fRat x : ℝ) ^ (fRat y : ℝ) := by
    rw [← pow_lt_pow_iff_left₀ hM hR hq, ← mul_lt_mul_iff_left₀ hD, ← h1, ← h2, Nat.cast_lt]
  have heq : (powSides x y b).2 = (powSides x y b).1 ↔ bitsMid b = (fRat x : ℝ) ^ (fRat y : ℝ) := by
    rw [← pow_left_inj₀ hM hR hq, ← mul_left_inj' hD.ne', ← h1, ← h2, Nat.cast_inj]
  unfold powReaches
  rw [decide_eq_true_iff, hlt, heq]

theorem bitsMid_strictMono {a b : ℕ} (ha : 0 < a) (h : a < b) : bitsMid a < bitsMid b := by
  unfold bitsMid
  refine div_lt_div_of_pos_right ?_ (by positivity)
  have h1 : bitsMag (a - 1) < bitsMag (b - 1) := bitsMag_strictMono (by omega)
  have h2 := bitsMag_strictMono h
  exact_mod_cast Nat.add_lt_add h1 h2

theorem powReaches_mono {x : F} (hx : 0 < fRat x) (y : F) (a b : ℕ) (ha : 0 < a) (hab : a ≤ b)
    (h : powReaches x y b = true) : powReaches x y a = true := by
  rcases hab.eq_or_lt with rfl | hlt
  · exact h
  · rw [powReaches_iff hx] at h ⊢
    have := bitsMid_strictMono ha hlt
    rcases h with h | ⟨h, _⟩
    · exact .inl (this.trans h)
    · exact .inl (h ▸ this)

/-- From here on a value overflows: 2^128 - 2^103 (40_numerics.md R79). -/
def fOverflow : ℝ := 2 ^ 128 - 2 ^ 103

theorem bitsMid_overflow : bitsMid 0x7F800000 = fOverflow := by
  have h : bitsMag (0x7F800000 - 1) + bitsMag 0x7F800000 = (2 ^ 25 - 1) * 2 ^ 253 := by decide +kernel
  unfold bitsMid fOverflow
  rw [h]; norm_num

/-- The search gives the nearest value, ties to even, and nothing exactly on overflow. -/
theorem powSearch_spec {x : F} (hx : 0 < fRat x) (y : F) :
    (powSearch x y = none ↔ fOverflow ≤ (fRat x : ℝ) ^ (fRat y : ℝ)) ∧
    ∀ v, powSearch x y = some v → NearestReal ((fRat x : ℝ) ^ (fRat y : ℝ)) v := by
  have mono := powReaches_mono hx y
  obtain ⟨h1, h2⟩ := searchBits_spec mono 31 0 (.inl rfl) (fun c h3 h4 => by omega)
  have hiff := powReaches_iff hx y
  have hpos : (0 : ℝ) ≤ (fRat x : ℝ) ^ (fRat y : ℝ) := Real.rpow_nonneg (by exact_mod_cast hx.le) _
  unfold powSearch
  set r := searchBits (powReaches x y) 31 0
  set R : ℝ := (fRat x : ℝ) ^ (fRat y : ℝ)
  have top : fOverflow ≤ R ↔ powReaches x y 0x7F800000 = true := by
    rw [hiff, bitsMid_overflow, le_iff_lt_or_eq]
    simp
  constructor
  · rw [top]
    constructor
    · intro h
      split at h
      · cases h
      · rename_i hr
        exact mono _ _ (by norm_num) (not_lt.1 hr) (h1.resolve_left (by omega))
    · intro h
      refine if_neg fun hr => ?_
      rw [h2 _ hr (by norm_num)] at h
      cases h
  · intro v hv
    split at hv
    · rename_i hr
      cases hv
      refine nearestReal_of_bits hr hpos fun b' hb' => ?_
      have mid : ∀ c, bitsMid c * 2 ^ 149 = ((bitsMag (c - 1) : ℝ) + bitsMag c) / 2 := fun c => by
        unfold bitsMid; push_cast; ring
      have scale : ∀ c, (bitsMid c ≤ R ↔ ((bitsMag (c - 1) : ℝ) + bitsMag c) / 2 ≤ R * 2 ^ 149) ∧
          (R ≤ bitsMid c ↔ R * 2 ^ 149 ≤ ((bitsMag (c - 1) : ℝ) + bitsMag c) / 2) ∧
          (bitsMid c = R ↔ ((bitsMag (c - 1) : ℝ) + bitsMag c) / 2 = R * 2 ^ 149) := fun c => by
        have hp : (0 : ℝ) < 2 ^ 149 := by positivity
        rw [← mid c, mul_le_mul_iff_left₀ hp, mul_le_mul_iff_left₀ hp, mul_left_inj' hp.ne']
        simp
      set Q : ℝ := R * 2 ^ 149
      rcases lt_trichotomy b' r with hlt | rfl | hgt
      · have hreach := (hiff r).1 (h1.resolve_left (by omega))
        have hle : bitsMid r ≤ R := hreach.elim le_of_lt fun h => h.1.le
        have hQ := (scale r).1.1 hle
        have hm : (bitsMag b' : ℝ) ≤ bitsMag (r - 1) := by
          exact_mod_cast bitsMag_strictMono.monotone (by omega : b' ≤ r - 1)
        have hm2 : (bitsMag b' : ℝ) < bitsMag r := by exact_mod_cast bitsMag_strictMono hlt
        rw [abs_of_nonpos (by linarith : (bitsMag b' : ℝ) - Q ≤ 0)]
        refine ⟨by rw [abs_le]; constructor <;> linarith, fun ht => .inr ?_⟩
        have hq : Q = ((bitsMag (r - 1) : ℝ) + bitsMag r) / 2 := by
          rcases abs_cases ((bitsMag r : ℝ) - Q) with ⟨h, _⟩ | ⟨h, _⟩ <;> rw [h] at ht <;> linarith
        have he := (scale r).2.2.2 hq.symm
        rcases hreach with h | h
        · exact absurd he h.ne
        · exact h.2
      · exact ⟨le_rfl, fun _ => .inl rfl⟩
      · have hno := h2 (r + 1) (Nat.lt_succ_self r) (by omega)
        have hnr : ¬ (bitsMid (r + 1) < R ∨ (bitsMid (r + 1) = R ∧ (r + 1) % 2 = 0)) := by
          rw [← hiff, hno]; simp
        rw [not_or, not_lt, not_and] at hnr
        have hQ := (scale (r + 1)).2.1.1 hnr.1
        rw [Nat.add_sub_cancel] at hQ
        have hm : (bitsMag (r + 1) : ℝ) ≤ bitsMag b' := by
          exact_mod_cast bitsMag_strictMono.monotone (by omega : r + 1 ≤ b')
        have hm2 : (bitsMag r : ℝ) < bitsMag b' := by exact_mod_cast bitsMag_strictMono hgt
        rw [abs_of_nonneg (by linarith : 0 ≤ (bitsMag b' : ℝ) - Q)]
        refine ⟨by rw [abs_le]; constructor <;> linarith, fun ht => .inr ?_⟩
        have hq : Q = ((bitsMag r : ℝ) + bitsMag (r + 1)) / 2 := by
          rcases abs_cases ((bitsMag r : ℝ) - Q) with ⟨h, _⟩ | ⟨h, _⟩ <;> rw [h] at ht <;> linarith
        have he := (scale (r + 1)).2.2.2 (by rw [Nat.add_sub_cancel]; exact hq.symm)
        have := hnr.2 he
        omega
    · cases hv

/-! ### The enclosure, and overflow -/

theorem quotient_ge {z : ℤ} (h1 : -105 * (fixOne : ℤ) ≤ z) (h2 : z ≤ 90 * (fixOne : ℤ)) :
    -160 ≤ z / (if 0 ≤ z then (ln2Hi : ℤ) else ln2Lo) := by
  have hpN : (0 : ℤ) < (fixOne : ℤ) := by exact_mod_cast Nat.two_pow_pos fixBits
  refine (quotient_le hpN h1 h2 ?_).1
  have := ln2Lo_ge
  have := ln2_width
  split <;> omega

theorem roundScaled_none {m : ℕ} {k : ℤ} (hk : -160 ≤ k) :
    roundScaled m k = none ↔ fOverflow ≤ fixR m * (2 : ℝ) ^ k := by
  have hD : 0 < 2 ^ (fixBits + 11) := Nat.two_pow_pos _
  have hDR : (0 : ℝ) < ((2 ^ (fixBits + 11) : ℕ) : ℝ) := by exact_mod_cast hD
  unfold roundScaled
  rw [roundMag_none hD]
  have e := scaled_eq m hk
  rw [div_eq_iff hDR.ne'] at e
  have hc : ((2 ^ 25 - 1) * (2 ^ (fixBits + 11) * 2 ^ 252) ≤ m * 2 ^ (k + 160).toNat) ↔
      ((2 : ℝ) ^ 25 - 1) * (((2 ^ (fixBits + 11) : ℕ) : ℝ) * 2 ^ 252) ≤ ((m * 2 ^ (k + 160).toNat : ℕ) : ℝ) := by
    rw [← Nat.cast_le (α := ℝ)]
    have h25 : ((2 ^ 25 - 1 : ℕ) : ℝ) = (2 : ℝ) ^ 25 - 1 := by norm_num
    rw [Nat.cast_mul, h25, Nat.cast_mul (2 ^ (fixBits + 11))]
    norm_num
  rw [hc, e]
  generalize ((2 ^ (fixBits + 11) : ℕ) : ℝ) = D at hDR
  generalize fixR m * (2 : ℝ) ^ k = t
  have hthr : ((2 : ℝ) ^ 25 - 1) * (D * 2 ^ 252) = fOverflow * 2 ^ 149 * D := by unfold fOverflow; norm_num; ring
  rw [hthr, mul_le_mul_iff_left₀ hDR, mul_le_mul_iff_left₀ (by positivity)]

theorem fixZ_le {a b : ℤ} (h : a ≤ b) : fixZ a ≤ fixZ b :=
  div_le_div_of_nonneg_right (by exact_mod_cast h) fixOne_pos.le

theorem fixZ_mul_fixOne (n : ℤ) : fixZ (n * (fixOne : ℤ)) = n := by
  unfold fixZ; push_cast; exact mul_div_cancel_right₀ _ fixOne_pos.ne'

theorem exp_89 : fOverflow ≤ Real.exp 89 := by
  have h : Real.exp (128 * Real.log 2) ≤ Real.exp 89 := Real.exp_le_exp.2 (by have := Real.log_two_lt_d9; linarith)
  rw [mul_comm, Real.exp_mul, Real.exp_log (by norm_num)] at h
  have e : (2 : ℝ) ^ (128 : ℝ) = 2 ^ 128 := by norm_cast
  rw [e] at h
  unfold fOverflow
  linarith [pow_pos (show (0 : ℝ) < 2 by norm_num) 103]

theorem exp_neg_105 : Real.exp (-105) < fOverflow := by
  have h : Real.exp (-105) < Real.exp 0 := Real.exp_lt_exp.2 (by norm_num)
  rw [Real.exp_zero] at h
  have : (1 : ℝ) < fOverflow := by unfold fOverflow; norm_num
  linarith

/-- Where the lower bound says so, the exponential overflows. -/
theorem expOverflows_sound {zlo : ℤ} {z : ℝ} (hlo : fixZ zlo ≤ z) (h : expOverflows zlo = true) :
    fOverflow ≤ Real.exp z := by
  refine le_trans ?_ (Real.exp_le_exp.2 hlo)
  unfold expOverflows at h
  rw [Bool.or_eq_true, Bool.and_eq_true, decide_eq_true_iff, decide_eq_true_iff, Option.isNone_iff_eq_none] at h
  by_cases h89 : 89 * (fixOne : ℤ) ≤ zlo
  · refine exp_89.trans (Real.exp_le_exp.2 ?_)
    have := fixZ_le h89
    rw [fixZ_mul_fixOne] at this
    exact_mod_cast this
  · obtain ⟨h1, h2⟩ := h.resolve_left h89
    unfold expLoBits at h2
    exact ((roundScaled_none (quotient_ge h1 (by omega))).1 h2).trans (expLo_le zlo)

/-- Where the enclosure gives a value, the exponential does not overflow. -/
theorem expBetween_lt {zlo zhi : ℤ} {z : ℝ} (hlo : fixZ zlo ≤ z) (hhi : z ≤ fixZ zhi) {v : F}
    (h : expBetween zlo zhi = some v) : Real.exp z < fOverflow := by
  have hp := fixOne_pos
  have hle : zlo ≤ zhi := by
    have h1 := hlo.trans hhi
    unfold fixZ at h1
    rw [div_le_div_iff_of_pos_right hp] at h1
    exact_mod_cast h1
  refine (Real.exp_le_exp.2 hhi).trans_lt ?_
  unfold expBetween at h
  split at h
  · cases h
  · split at h
    · rename_i c2
      refine (Real.exp_le_exp.2 ?_).trans_lt exp_neg_105
      have := fixZ_le c2
      rw [fixZ_mul_fixOne] at this
      exact_mod_cast this
    · split at h
      · cases h
      · rename_i c3
        split at h
        · rename_i lo hi elo ehi
          have hh1 : -105 * (fixOne : ℤ) ≤ zhi := by omega
          have hh2 : zhi ≤ 90 * (fixOne : ℤ) := by omega
          refine (le_expHi hh1 hh2).trans_lt ?_
          by_contra hc
          rw [not_lt, ← roundScaled_none (quotient_ge hh1 hh2)] at hc
          unfold expHiBits at ehi
          rw [hc] at ehi
          cases ehi
        · cases h

/-! ### The power -/

/-- The bounds of `y·ln x`. -/
theorem powArg_between {x : F} (hx : 0 < fRat x) (y : F) :
    fixZ (powArgLo x y) ≤ (fRat y : ℝ) * Real.log (fRat x : ℝ) ∧ (fRat y : ℝ) * Real.log (fRat x : ℝ) ≤ fixZ (powArgHi x y) := by
  obtain ⟨hm, hr⟩ := fRat_of_pos hx
  obtain ⟨l1, l2⟩ := ln_between hm
  rw [← hr] at l1 l2
  have hd : (0 : ℤ) < ((2 ^ 149 : ℕ) : ℤ) := by positivity
  have hdR : (0 : ℝ) < (((2 ^ 149 : ℕ) : ℤ) : ℝ) := by positivity
  have cast : ∀ t : ℤ, fixZ (fVal y * t) / (((2 ^ 149 : ℕ) : ℤ) : ℝ) = (fRat y : ℝ) * fixZ t := fun t => by
    rw [fRat_cast]; unfold fixZ; push_cast; ring
  unfold powArgLo powArgHi
  set L := Real.log (fRat x : ℝ)
  by_cases h0 : 0 ≤ fVal y
  · have hy : (0 : ℝ) ≤ (fRat y : ℝ) := by rw [fRat_cast]; have : (0 : ℝ) ≤ (fVal y : ℝ) := by exact_mod_cast h0
                                           positivity
    rw [if_pos h0, if_pos h0]
    exact ⟨((fixZ_ediv hd).1.trans_eq (cast _)).trans (mul_le_mul_of_nonneg_left l1 hy),
      (mul_le_mul_of_nonneg_left l2 hy).trans ((cast _).symm.trans_le (fixZ_ediv hd).2)⟩
  · have hy : (fRat y : ℝ) ≤ 0 := by
      rw [fRat_cast]
      have : (fVal y : ℝ) ≤ 0 := by exact_mod_cast (by omega : fVal y ≤ 0)
      exact div_nonpos_of_nonpos_of_nonneg this (by positivity)
    rw [if_neg h0, if_neg h0]
    exact ⟨((fixZ_ediv hd).1.trans_eq (cast _)).trans (mul_le_mul_of_nonpos_left l2 hy),
      (mul_le_mul_of_nonpos_left l1 hy).trans ((cast _).symm.trans_le (fixZ_ediv hd).2)⟩

/-- `pow` of a positive base, said once: nearest, ties to even, and nothing exactly on overflow (40_numerics.md R75, R79). -/
theorem powExact_spec {x : F} (hx : 0 < fRat x) (y : F) :
    (powExact x y = none ↔ fOverflow ≤ (fRat x : ℝ) ^ (fRat y : ℝ)) ∧
    ∀ v, powExact x y = some v → NearestReal ((fRat x : ℝ) ^ (fRat y : ℝ)) v := by
  obtain ⟨b1, b2⟩ := powArg_between hx y
  have hxR : (0 : ℝ) < (fRat x : ℝ) := by exact_mod_cast hx
  have he : (fRat x : ℝ) ^ (fRat y : ℝ) = Real.exp ((fRat y : ℝ) * Real.log (fRat x : ℝ)) := by
    rw [Real.rpow_def_of_pos hxR, mul_comm]
  unfold powExact
  split
  · rename_i h1
    have hone : fRat fOne = 1 := by decide +kernel
    have h2 : ((fRat x : ℝ) ^ (fRat y : ℝ)) = 1 := by rw [h1, hone]; simp
    rw [h2]
    refine ⟨⟨fun h => (by cases h), fun h => ?_⟩, fun v hv => ?_⟩
    · exfalso; unfold fOverflow at h; norm_num at h
    · cases hv
      have hf : fFinite fOne = true := by decide
      refine ⟨hf, fun z _ => ?_⟩
      rw [hone]
      simp only [Rat.cast_one, sub_self, abs_zero]
      exact ⟨abs_nonneg _, fun h => .inr (by decide)⟩
  · split
    · rename_i v hv
      rw [he]
      refine ⟨⟨fun h => (by cases h), fun h => absurd h (not_le.2 (expBetween_lt b1 b2 hv))⟩, fun w hw => ?_⟩
      cases hw
      exact expBetween_nearest b1 b2 hv
    · split
      · rename_i ho
        refine ⟨⟨fun _ => ?_, fun _ => rfl⟩, fun v hv => by cases hv⟩
        rw [he]; exact expOverflows_sound b1 ho
      · exact powSearch_spec hx y

end Sys2Proof.Machine
end

