-- ==== Sys2Proof/Machine/Assembler.lean ====
section
/-! DEFINITION. The spec's written form of a descriptor (30_encoding.md R66, R67). Host tooling: no step reads it. -/

namespace Sys2Proof.Machine

/-- The operands `lod`, `in`, `out`, which every mode writes. -/
def operandText (t : Fields) : String :=
  " lod=" ++ toString t.lod ++ ", in=" ++ toString t.input ++ ", out=" ++ toString t.output

/-- The extra operand of a mode that ignores `bloom_index`, written where it is not zero. -/
def ignoredBloomText (b : Nat) : String := if b = 0 then "" else ", bloom=" ++ toString b

/-- The syntax of a descriptor (30_encoding.md R66). -/
def instrText (i : Instr) : String :=
  match i with
  | .prefilter _ _ _ b => "PREFILTER" ++ operandText i.fields ++ ignoredBloomText b
  | .downsample _ _ _ b => "DOWNSAMPLE" ++ operandText i.fields ++ ignoredBloomText b
  | .upsampleFirst _ _ _ b => "UPSAMPLE_FIRST" ++ operandText i.fields ++ ignoredBloomText b
  | .upsample _ _ _ b => "UPSAMPLE" ++ operandText i.fields ++ ", bloom=" ++ toString b
  | .apply _ _ _ b => "APPLY" ++ operandText i.fields ++ ", bloom=" ++ toString b

/-- A hexadecimal digit. -/
def hexDigit (n : Nat) : String :=
  match n with
  | 10 => "A"
  | 11 => "B"
  | 12 => "C"
  | 13 => "D"
  | 14 => "E"
  | 15 => "F"
  | n => toString n

/-- A word in hexadecimal, eight digits. -/
def hexText (w : Word) : String :=
  (List.range 8).foldl (fun t i => t ++ hexDigit (bitField w (28 - 4 * i) 4)) "0x"

/-- The written form of any descriptor word: a reserved mode's is the raw word (30_encoding.md R67). -/
def descText (w : Word) : String :=
  match decode w with
  | .ok i => instrText i
  | .error _ => ".desc " ++ hexText w

end Sys2Proof.Machine
end

