-- ==== Sys2Proof/Tests/Slice0.lean ====
section
/-! SUPPORT. The model's own tests, with expected values from spec/95_test_vectors.md (named in each comment), and a witness of the hypotheses of every obligation that has some. -/

namespace Sys2Proof.Tests

open Sys2Proof.Machine

set_option Elab.async false

/-! ## Well-formedness smoke (30_encoding.md R58, 41_decoder.md R82) -/

theorem test_wf_accepts_greatest : (Instr.apply 127 127 127 127).wellFormed = true := by decide
theorem test_wf_refuses_lod : (Instr.prefilter 128 0 0 0).wellFormed = false := by decide
theorem test_wf_refuses_input : (Instr.downsample 0 128 0 0).wellFormed = false := by decide
theorem test_wf_refuses_output : (Instr.upsampleFirst 0 0 128 0).wellFormed = false := by decide
theorem test_wf_refuses_bloom : (Instr.upsample 0 0 0 128).wellFormed = false := by decide
theorem test_wf_refuses_apply_bloom : (Instr.apply 0 0 0 128).wellFormed = false := by decide
theorem test_wf_refuses_ignored_bloom :
    (Instr.prefilter 0 0 0 128).wellFormed = false ∧ (Instr.downsample 0 0 0 128).wellFormed = false ∧
    (Instr.upsampleFirst 0 0 0 128).wellFormed = false := by decide

/-! ## Decoding: words written out bit by bit from 30_encoding.md R57 (mode, lod, input, output, bloom), values from 95 §2 -/

theorem test_decode_prefilter : decode 0b0000_1111111_1111111_1111111_1111111#32 = .ok (.prefilter 127 127 127 127) := by decide
theorem test_decode_downsample : decode 0b0001_0010001_1010001_0101100_1111000#32 = .ok (.downsample 17 81 44 120) := by decide
theorem test_decode_upsample_first : decode 0b0010_0000001_0000001_0001111_0000000#32 = .ok (.upsampleFirst 1 1 15 0) := by decide
theorem test_decode_upsample : decode 0b0011_0000000_0000001_0001110_0000011#32 = .ok (.upsample 0 1 14 3) := by decide
theorem test_decode_apply : decode 0b0100_0000000_0000000_0010101_0000011#32 = .ok (.apply 0 0 21 3) := by decide
theorem test_decode_lod_alone : decode 0x4FE00000#32 = .ok (.apply 127 0 0 0) := by decide
theorem test_decode_output_alone : decode 0x00003F80#32 = .ok (.prefilter 0 0 127 0) := by decide
theorem test_decode_reserved : decode 0xFFFFFFFF#32 = .error (.reservedMode 15) ∧ decode 0x80000000#32 = .error (.reservedMode 8) := by decide
theorem test_fields_of_reserved : decodeFields 0xFFFFFFFF#32 = ⟨15, 127, 127, 127, 127⟩ := by decide
theorem test_encode_schedule :
    encode (.downsample 5 1 6 0) = 0x10A04300#32 ∧ encode (.upsampleFirst 5 1 19 0) = 0x20A04980#32 ∧
    encode (.upsample 4 1 18 3) = 0x30804903#32 ∧ encode (.apply 0 0 21 3) = 0x40000A83#32 := by decide
theorem test_decode_bytes_little :
    decodeBytes .little [0x83#8, 0x0A#8, 0x00#8, 0x40#8, 0x55#8] = .ok (.apply 0 0 21 3, [0x55#8]) := by decide
theorem test_decode_bytes_big :
    decodeBytes .big [0x40#8, 0x00#8, 0x0A#8, 0x83#8] = .ok (.apply 0 0 21 3, []) := by decide
theorem test_decode_bytes_short : decodeBytes .little [0x83#8, 0x0A#8, 0x00#8] = .error (.truncated 3) := by decide
theorem test_decode_table_word : decodeTableWord 32 0x30004703 = some (.upsample 0 1 14 3) := by decide
theorem test_text :
    instrText (.upsample 0 1 14 3) = "UPSAMPLE lod=0, in=1, out=14, bloom=3" ∧
    descText 0xF000000A#32 = ".desc 0xF000000A" := by decide +kernel

/-! ## A small machine -/

/-- A level's texels from a grey value at each position, alpha 1. -/
def grey (image level w h : Nat) (f : Nat → Nat → F) : Memory :=
  (List.range w).flatMap fun x => (List.range h).map fun y => (⟨image, level, x, y⟩, ⟨f x y, f x y, f x y, 0x3F800000#32⟩)

/-- The registers of `PB` (spec/95): threshold 1, knee 0.5, intensity 1, combine 0.5. -/
def pbRegs : ParamRegs :=
  ⟨some 0x3F800000#32, some 0x3F000000#32, some 0x3F800000#32, some 0x3F000000#32, some 0x3F800000#32, some 0x3F000000#32⟩

/-- The reference configuration (20_memory.md R35) of a `w` by `h` scene and depth `n`, its bindings made. -/
def machine (w h n : Nat) (texels : Memory) (regs : ParamRegs) : State :=
  { State.initial (refImages w h n) texels with
    regs := regs, gridX := 8, gridY := 4
    inBind := #v[some 0, some 1, some 2, some 3], blBind := #v[some 0, some 1, some 2, some 3]
    outBind := Vector.ofFn fun i : Fin 22 =>
      if i.val = 21 then some ⟨4, 0⟩ else if i.val % 7 < n then some ⟨i.val / 7 + 1, i.val % 7⟩ else none }

/-- Texels `(image, level, x, y)` of the state an outcome holds. -/
def texels (o : Host.Outcome State Fault Refusal) (l : List TexelAddr) : Option (List (Option F4)) :=
  match o with
  | .next t => some (l.map (memRead t.texels))
  | _ => none

/-- STATUS and `k` of the state an outcome holds. -/
def statusK (o : Host.Outcome State Fault Refusal) : Option (Status × Nat) :=
  match o with
  | .next t => some (t.status, t.k)
  | _ => none

/-- A grey texel with alpha 1. -/
def greyTexel (v : F) : Option F4 := some ⟨v, v, v, 0x3F800000#32⟩

/-- A context of the reference configuration. -/
def ctx0 : Ctx := ⟨Params.reference, ⟨0, 0, 0, []⟩⟩

/-! ## One step of each mode (spec/95 §4) -/

/-- The scene of program P1: 50 at (2, 2). -/
def sceneP1 : Memory := grey 0 0 4 4 fun x y => if x = 2 ∧ y = 2 then 0x42480000#32 else 0#32
/-- `P1` level 0 after program P1. -/
def levelP1 : Memory := grey 1 0 2 2 fun x y => if x = 1 ∧ y = 1 then 0x410C4000#32 else if x = y then 0#32 else 0x3E672000#32

/-- Program P1: all four texels of the target. -/
theorem test_prefilter_p1 :
    texels (exec (.prefilter 0 0 0 0) (machine 4 4 1 sceneP1 pbRegs)) [⟨1, 0, 1, 1⟩, ⟨1, 0, 0, 1⟩, ⟨1, 0, 1, 0⟩, ⟨1, 0, 0, 0⟩] =
      some [greyTexel 0x410C4000#32, greyTexel 0x3E672000#32, greyTexel 0x3E672000#32, greyTexel 0#32] := by decide +kernel
/-- Program P3, second dispatch. -/
theorem test_downsample_p3 :
    texels (exec (.downsample 0 1 1 0) (machine 4 4 2 levelP1 pbRegs)) [⟨1, 1, 0, 0⟩] = some [greyTexel 0x40137900#32] := by
  decide +kernel
/-- §3.3: 50 at (2, 2) gives 9.765625 at (1, 1); a grid of one column leaves (1, 1) unwritten. -/
theorem test_downsample_grid :
    texels (exec (.downsample 0 0 0 0) { machine 4 4 1 sceneP1 pbRegs with gridX := 1 }) [⟨1, 0, 0, 1⟩, ⟨1, 0, 1, 1⟩] =
      some [greyTexel 0x3F960000#32, none] := by decide +kernel
/-- Program P3, third dispatch. -/
theorem test_upsample_first_p3 :
    texels (exec (.upsampleFirst 0 1 14 0) (machine 4 4 2 (levelP1 ++ grey 1 1 1 1 fun _ _ => 0x40137900#32) pbRegs))
      [⟨3, 0, 0, 0⟩, ⟨3, 0, 0, 1⟩, ⟨3, 0, 1, 1⟩] =
      some [greyTexel 0x3F937900#32, greyTexel 0x3FA1EB00#32, greyTexel 0x40B11E40#32] := by decide +kernel
/-- R106 on UPSAMPLE: existing 3 from the input image, new 1 from the bloom image; c = 0.5 gives 2. -/
theorem test_upsample_half :
    texels (exec (.upsample 0 1 14 3) { machine 4 4 2
      (grey 1 0 2 2 (fun _ _ => 0x40400000#32) ++ grey 3 1 1 1 fun _ _ => 0x3F800000#32) pbRegs with gridX := 1, gridY := 1 })
      [⟨3, 0, 0, 0⟩] = some [greyTexel 0x40000000#32] := by decide +kernel
/-- R106 on UPSAMPLE: c = 1 gives the existing 3, so the roles are not swapped. -/
theorem test_upsample_existing :
    texels (exec (.upsample 0 1 14 3) { machine 4 4 2
      (grey 1 0 2 2 (fun _ _ => 0x40400000#32) ++ grey 3 1 1 1 fun _ _ => 0x3F800000#32)
      { pbRegs with combineC := some 0x3F800000#32 } with gridX := 1, gridY := 1 })
      [⟨3, 0, 0, 0⟩] = some [greyTexel 0x40400000#32] := by decide +kernel
/-- Program P2, last dispatch, on a 2 by 2 scene: `Gamma(GT(1.5))`. -/
theorem test_apply_p2 :
    texels (exec (.apply 0 0 21 3) { machine 2 2 1
      (grey 0 0 2 2 (fun _ _ => 0x40000000#32) ++ grey 3 0 1 1 fun _ _ => 0x3F800000#32) pbRegs with gridX := 1, gridY := 1 })
      [⟨4, 0, 0, 0⟩] = some [greyTexel 0x3F7B9736#32] := by decide +kernel
/-- §1.7: INTENSITY = 0 and COMBINE_C = 1 give the scene tonemapped. -/
theorem test_apply_no_bloom :
    texels (exec (.apply 0 0 21 3) { machine 2 2 1
      (grey 0 0 2 2 (fun _ _ => 0x40000000#32) ++ grey 3 0 1 1 fun _ _ => 0x3F800000#32)
      { pbRegs with intensity := some 0#32, combineC := some 0x3F800000#32 } with gridX := 1, gridY := 1 })
      [⟨4, 0, 0, 0⟩] = some [greyTexel 0x3F7ED37D#32] := by decide +kernel

/-! ## Faults (spec/95 §3.8, §3.9) -/

/-- The start state of §3.8, on which every row is run. -/
def start38 : State := machine 4 4 2 (grey 0 0 4 4 fun _ _ => 0x3F800000#32) pbRegs
/-- A word dispatched from the start state of §3.8. -/
def run38 (w : Word) (s : State) : Option (Status × Nat) :=
  statusK (step { s with program := [.dispatch w 8 4] })

theorem test_fault_reserved :
    run38 0x50000000#32 start38 = some (.fault (.reservedMode 5), 0) ∧
    run38 0xFFFFFFFF#32 start38 = some (.fault (.reservedMode 15), 0) := by decide +kernel
theorem test_fault_index :
    run38 0x00010000#32 start38 = some (.fault (.badIndex .input 4), 0) ∧
    run38 0x00000B00#32 start38 = some (.fault (.badIndex .output 22), 0) ∧
    run38 0x00000480#32 start38 = some (.fault (.badIndex .output 9), 0) ∧
    run38 0x30004704#32 start38 = some (.fault (.badIndex .bloom 4), 0) := by decide +kernel
theorem test_fault_level :
    run38 0x10A04080#32 start38 = some (.fault (.badLevel .read 1 5), 0) ∧
    run38 0x20204780#32 start38 = some (.fault (.badLevel .read 1 2), 0) := by decide +kernel
theorem test_fault_alias :
    run38 0x00004000#32 start38 = some (.fault (.aliased 1 0), 0) ∧
    run38 0x10004000#32 start38 = some (.fault (.aliased 1 0), 0) := by decide +kernel
theorem test_fault_uninit :
    run38 0x00000000#32 { start38 with regs := { pbRegs with tc2 := none } } = some (.fault (.uninitParam 2), 0) ∧
    run38 0x40000A83#32 { start38 with regs := { pbRegs with intensity := none, combineC := none } } =
      some (.fault (.uninitParam 4), 0) := by decide +kernel
theorem test_done_rows :
    run38 0x00000380#32 start38 = some (.done, 1) ∧ run38 0x00000700#32 start38 = some (.done, 1) := by decide +kernel
/-- §3.9: under REFERENCE the invocation (0, 3) of a 3 by 3 target stores out of bounds; under CORRECT it does nothing. -/
theorem test_oob :
    invoke (passDownsample ⟨0, 0⟩ ⟨1, 0⟩) (invocationAt
      { machine 6 6 2 (grey 0 0 6 6 fun _ _ => 0x3F000000#32) pbRegs with cfg := { Params.reference with guardMode := .reference } }
      ⟨1, 0⟩ (0, 3)) = .faults (.oobWrite 0 3) ∧
    invoke (passDownsample ⟨0, 0⟩ ⟨1, 0⟩) (invocationAt
      (machine 6 6 2 (grey 0 0 6 6 fun _ _ => 0x3F000000#32) pbRegs) ⟨1, 0⟩ (0, 3)) = .skipped := by decide +kernel
/-- §3.1: a footprint with an unwritten texel of weight 0 counts. -/
theorem test_unwritten_weight_zero :
    unwrittenIn [⟨2, 2, 1⟩] (grey 0 0 2 1 fun _ _ => 0#32) ⟨⟨0, 0⟩, 0x3E800000#32, 0x3E800000#32⟩ = [⟨0, 0, 0, 1⟩, ⟨0, 0, 1, 1⟩] := by
  decide +kernel
theorem test_refusals :
    exec (.downsample 0 0 0 0) { start38 with status := .busy } = .refused .whileBusy ∧
    step { start38 with status := .fault (.reservedMode 5), program := [.setReg .tc0 0#32] } = .refused .afterFault := by
  constructor <;> rfl
theorem test_first_after_reset :
    statusK (step (State.reset.withFetchWord 32 0x10004080)) = some (.fault (.badIndex .input 1), 0) := by decide +kernel

/-! ## Sampling, curves (spec/95 §3.1–§3.6) -/

/-- The level of §3.1: 0, 4, 8, 12. -/
def level31 : Memory := grey 0 0 2 2 fun x y =>
  if y = 0 then (if x = 0 then 0#32 else 0x40800000#32) else (if x = 0 then 0x41000000#32 else 0x41400000#32)
/-- The red channel of a sample of that level. -/
def sample31 (u v : F) : F := (sampleTexel ctx0 [⟨2, 2, 1⟩] level31 ⟨⟨0, 0⟩, u, v⟩).r

theorem test_sample_inside :
    sample31 0x3F000000#32 0x3F000000#32 = 0x40C00000#32 ∧ sample31 0x3EC00000#32 0x3F000000#32 = 0x40A00000#32 ∧
    sample31 0x3F400000#32 0x3E800000#32 = 0x40800000#32 := by decide +kernel
theorem test_sample_clamps :
    sample31 0#32 0#32 = 0#32 ∧ sample31 0x3F800000#32 0x3F800000#32 = 0x41400000#32 ∧
    sample31 0x3F000000#32 0x3FC00000#32 = 0x41200000#32 := by decide +kernel
/-- §3.2: colours (0.75, 0.25, 0.5) and grey 20. -/
theorem test_threshold :
    quadraticThreshold ctx0 ⟨0x3F400000#32, 0x3E800000#32, 0x3F000000#32⟩ 0x3F800000#32 ⟨0x3F000000#32, 0x3F800000#32, 0x3F000000#32⟩ =
      ⟨0x3D000000#32, 0x3C2AAAAB#32, 0x3CAAAAAB#32⟩ ∧
    thresholdScale ctx0 0x41A00000#32 0x3F800000#32 ⟨0x3F000000#32, 0x3F800000#32, 0x3F000000#32⟩ = 0x3F733333#32 := by decide +kernel
/-- §3.2: the prefilter of (-5, 0, 30) is (-4.75, 0, 19). -/
theorem test_prefilter_negative :
    prefilter ctx0 ⟨0xC0A00000#32, 0#32, 0x41F00000#32⟩ 0x3F800000#32 0x3F000000#32 0x3F800000#32 0x3F000000#32 =
      ⟨0xC0980000#32, 0#32, 0x41980000#32⟩ := by decide +kernel
/-- §1.3: without `k ≤ t` the scale is not bounded. -/
theorem test_scale_unbounded :
    thresholdScale ctx0 0x38D1B717#32 0x3DCCCCCD#32 ⟨0xBF666666#32, 0x40000000#32, 0x3E800000#32⟩ = 0x44FD2E67#32 := by decide +kernel
/-- §3.5. -/
theorem test_combine :
    combineChannel ctx0 0x3F800000#32 0x4CBEBC20#32 0x3F800000#32 = 0#32 ∧
    combineChannel ctx0 0x3DCCCCCD#32 0x3E4CCCCD#32 0x3E99999A#32 = 0x3E2E147B#32 ∧
    combineChannel ctx0 0#32 0x40800000#32 0x40000000#32 = 0xC0800000#32 ∧
    combineChannel ctx0 0#32 0x40800000#32 0xBF800000#32 = 0x41000000#32 := by decide +kernel
/-- §3.6: the derived constants. -/
theorem test_gt_constants :
    gtS0 .reference = 0x3F1EB852#32 ∧ gtS1 .reference = 0x3F1EB852#32 ∧ gtPS1 .reference = 0x3EC28F5C#32 ∧
    gtC2 .reference = 0x40286BCA#32 ∧ gtCP .reference = 0xC0286BCA#32 := by decide +kernel
/-- §1.5, §3.6. -/
theorem test_gt :
    gtTonemap ctx0 0#32 = 0#32 ∧ gtTonemap ctx0 0x3E4CCCCD#32 = 0x3E4CA6FE#32 ∧ gtTonemap ctx0 0x3E6147AE#32 = 0x3E6147AE#32 ∧
    gtTonemap ctx0 0x3F1EB850#32 = 0x3F1EB850#32 ∧ gtTonemap ctx0 0x3F2147AE#32 = 0x3F213F22#32 ∧
    gtTonemap ctx0 0x41200000#32 = 0x3F800000#32 := by decide +kernel
/-- §1.5: the published `l0`. -/
theorem test_gt_published :
    gtTonemap ⟨{ Params.reference with gtL0 := 0x3E9FBE77#32 }, ⟨0, 0, 0, []⟩⟩ 0x3F1EB852#32 = 0x3F1CBA8E#32 := by decide +kernel
/-- §3.6. -/
theorem test_aces :
    acesTonemap ctx0 0x3DCCCCCD#32 = 0x3E00DC1E#32 ∧ acesTonemap ctx0 0x3F800000#32 = 0x3F4DC5AB#32 ∧
    acesTonemap ctx0 0x40000000#32 = 0x3F6A33F0#32 ∧ acesTonemap ctx0 0x41200000#32 = 0x3F800000#32 := by decide +kernel
/-- §3.6. -/
theorem test_gamma :
    gammaCorrect ctx0 0#32 = 0#32 ∧ gammaCorrect ctx0 0x3E800000#32 = 0x3F085344#32 ∧ gammaCorrect ctx0 0x3F000000#32 = 0x3F3AD03E#32 ∧
    gammaCorrect ctx0 0x3F1EB852#32 = 0x3F4E00A6#32 ∧ gammaCorrect ctx0 0x3F800000#32 = 0x3F800000#32 := by decide +kernel
/-- §1.4: the constant 0.3 comes back from box and tent one unit apart and back again. -/
theorem test_energy :
    (boxDownsample13 ctx0 [⟨8, 8, 1⟩] (grey 0 0 8 8 fun _ _ => 0x3E99999A#32) ⟨0, 0⟩ (0x3E000000#32, 0x3E000000#32)).r = 0x3E999999#32 ∧
    (tentUpsample9 ctx0 [⟨4, 4, 1⟩] (grey 0 0 4 4 fun _ _ => 0x3E999999#32) ⟨0, 0⟩ (0x3D800000#32, 0x3D800000#32)).r = 0x3E99999A#32 := by
  decide +kernel
/-- `pow` at exact ties, `(1 + 2^-12)^2` and `2^-150`, at the ends of the format, and past them (40_numerics.md R75, by hand). -/
theorem test_pow_ends :
    powExact 0x3F800800#32 0x40000000#32 = some 0x3F801000#32 ∧ powExact 0x40000000#32 0xC3160000#32 = some 0#32 ∧
    powExact 0x40000000#32 0xC3150000#32 = some 0x00000001#32 ∧ powExact 0x40000000#32 0x43000000#32 = none := by decide +kernel
/-- Rounding: ties to even, subnormals kept, overflow gives none (40_numerics.md R69, R79, R80). -/
theorem test_rounding :
    addExact 0x3F800000#32 0x33800000#32 = some 0x3F800000#32 ∧ addExact 0x3F800001#32 0x33800000#32 = some 0x3F800002#32 ∧
    mulExact 0x00800000#32 0x3F000000#32 = some 0x00400000#32 ∧ addExact 0x7F7FFFFF#32 0x7F7FFFFF#32 = none := by decide +kernel
theorem test_param_block :
    paramBlockWrites .little [0x00#8, 0x00#8, 0x80#8, 0x3F#8] = [.setReg .tc0 0x3F800000#32] := by decide

/-! ## Witnesses: states and operands that meet the hypotheses of each obligation -/

/-- Two images, the first a 2 by 2 pyramid of two levels, the second one texel. -/
def tinyImages : List Image := [⟨2, 2, 2⟩, ⟨1, 1, 1⟩]
/-- Every texel of the first image is grey 1. -/
def tinyTexels : Memory := (grey 0 0 2 2 fun _ _ => 0x3F800000#32) ++ grey 0 1 1 1 fun _ _ => 0x3F800000#32
/-- Slots 0 to 2 of the tables read the first image; output slot 0 is the second image, 1 a level that is read, 2 an absent one, 3 unbound. -/
def tiny : State :=
  { State.initial tinyImages tinyTexels with
    regs := pbRegs, gridX := 1, gridY := 1
    inBind := #v[some 0, some 0, some 0, none], blBind := #v[some 0, some 0, some 0, none]
    outBind := Vector.ofFn fun i : Fin 22 =>
      if i.val = 0 then some ⟨1, 0⟩ else if i.val = 1 then some ⟨0, 0⟩ else if i.val = 2 then some ⟨1, 5⟩
      else if i.val = 21 then some ⟨1, 0⟩ else none }

/-- Whether a pass is ready, as a computation. -/
def readyB (p : Pass) (s : State) : Bool :=
  decide (s.status = .idle ∨ s.status = .done) && (texSize s.images p.target).isSome &&
  (p.reads.all fun r => (texSize s.images r).isSome) && decide (p.target ∉ p.reads) &&
  (p.regs.all fun r => (readReg s.regs r).isSome) &&
  ((gridPoints s.gridX s.gridY).all fun q => (p.samples (invocationAt s p.target q)).all fun r =>
    (footprint s.images r).all fun a => (memRead s.texels a).isSome) &&
  decide (s.cfg.guardMode = .correct)

theorem readyB_sound {p : Pass} {s : State} (h : readyB p s = true) : PassReady p s := by
  simp only [readyB, Bool.and_eq_true, decide_eq_true_eq, List.all_eq_true] at h
  obtain ⟨⟨⟨⟨⟨⟨h1, h2⟩, h3⟩, h4⟩, h5⟩, h6⟩, h7⟩ := h
  refine ⟨h1, h2, h3, h4, h5, fun x y hx hy _ q hq a ha => h6 (x, y) ?_ q hq a ha, fun hr => ?_⟩
  · rw [gridPoints, List.mem_flatMap]
    exact ⟨y, List.mem_range.2 hy, List.mem_map.2 ⟨x, List.mem_range.2 hx, rfl⟩⟩
  · rw [h7] at hr; cases hr

theorem nearestEven_exact {q : ℚ} {v : F} (h : fFinite v = true) (e : fRat v = q) : NearestEven q v :=
  ⟨h, fun z _ => by rw [e, sub_self, abs_zero]; exact ⟨abs_nonneg _, fun h0 => .inl (sub_eq_zero.1 (abs_eq_zero.1 h0))⟩⟩

/-- A next state is answered. -/
def isNext (o : Host.Outcome State Fault Refusal) : Bool :=
  match o with
  | .next _ => true
  | _ => false

theorem isNext_sound {o : Host.Outcome State Fault Refusal} (h : isNext o = true) : ∃ t, o = .next t := by
  cases o <;> simp_all [isNext]

/-- A dispatch that ends DONE. -/
def endsDone (o : Host.Outcome State Fault Refusal) : Bool :=
  match o with
  | .next t => decide (t.status = .done)
  | _ => false

theorem endsDone_sound {o : Host.Outcome State Fault Refusal} (h : endsDone o = true) : ∃ t, o = .next t ∧ t.status = .done := by
  cases o <;> simp_all [endsDone]

theorem tiny_admits : tiny.Admits := .inl rfl

theorem witness_FieldsRoundTrip :
    (⟨15, 127, 127, 127, 127⟩ : Fields).mode < 16 ∧ (⟨15, 127, 127, 127, 127⟩ : Fields).lod < 128 ∧
    (⟨15, 127, 127, 127, 127⟩ : Fields).input < 128 ∧ (⟨15, 127, 127, 127, 127⟩ : Fields).output < 128 ∧
    (⟨15, 127, 127, 127, 127⟩ : Fields).bloom < 128 := by decide

theorem witness_InstructionsRoundTrip :
    (Instr.apply 127 127 127 127).wellFormed = true ∧ decode 0x4FFFFFFF#32 = .ok (.apply 127 127 127 127) := by decide

theorem witness_StepRunsDecodedDescriptor :
    { tiny with program := [.dispatch 0x10000000#32 1 1] }.program = .dispatch 0x10000000#32 1 1 :: [] ∧
    decode 0x10000000#32 = .ok (.downsample 0 0 0 0) := ⟨rfl, by decide⟩

theorem witness_ReservedModeFaults :
    { tiny with program := [.dispatch 0x50000000#32 1 1] }.program = .dispatch 0x50000000#32 1 1 :: [] ∧
    { tiny with program := [.dispatch 0x50000000#32 1 1] }.Admits ∧ 5 ≤ (0x50000000#32 >>> 28).toNat ∧
    5 ≤ (0xF0000000#32 >>> 28).toNat := ⟨rfl, tiny_admits, by decide, by decide⟩

theorem witness_RegisterWriteSetsOneRegister :
    { tiny with program := [.setReg .combineC 0#32] }.program = .setReg .combineC 0#32 :: [] ∧
    { tiny with program := [.setReg .combineC 0#32] }.Admits := ⟨rfl, tiny_admits⟩

theorem witness_BindingSetsOneSlot :
    { tiny with program := [.bindIn 3 1] }.program = .bindIn 3 1 :: [] ∧
    { tiny with program := [.bindBl 0 1] }.program = .bindBl 0 1 :: [] ∧
    { tiny with program := [.bindOut 21 1 0] }.program = .bindOut 21 1 0 :: [] ∧ tiny.Admits := ⟨rfl, rfl, rfl, tiny_admits⟩

theorem witness_RefusedWhileBusyOrFaulted :
    ({ tiny with status := .busy, program := [.setReg .tc0 0#32] }.program = .setReg .tc0 0#32 :: [] ∧
      { tiny with status := .busy }.status = .busy ∧ { tiny with status := .fault (.reservedMode 5) }.status = .fault (.reservedMode 5)) ∧
    tiny.status ≠ .busy ∧ ∃ t, step { tiny with program := [.dispatch 0x10000000#32 1 1] } = .next t :=
  ⟨⟨rfl, rfl, rfl⟩, by decide, isNext_sound (by decide +kernel)⟩

theorem witness_DispatchEndsDoneOrFault :
    tiny.Admits ∧ ¬ { tiny with status := .busy }.Admits ∧
    ∃ t, step { tiny with status := .fault (.reservedMode 5) } = .next t :=
  ⟨tiny_admits, (by rintro (h | h) <;> cases h), isNext_sound (by decide +kernel)⟩

theorem witness_DispatchIndexCountsDone :
    (∃ t, step { tiny with program := [.dispatch 0x10000000#32 1 1] } = .next t ∧ isDispatch (.dispatch 0x10000000#32 1 1) = true ∧
      t.status = .done) ∧
    (∃ t, step { tiny with program := [.setReg .tc0 0#32] } = .next t ∧ ¬ (isDispatch (.setReg .tc0 0#32) = true ∧ t.status = .done)) ∧
    { tiny with status := .fault (.reservedMode 5), program := [.setReg .tc0 0#32] }.status = .fault (.reservedMode 5) := by
  refine ⟨?_, ⟨_, rfl, by decide⟩, rfl⟩
  obtain ⟨t, h, hd⟩ := endsDone_sound (o := step { tiny with program := [.dispatch 0x10000000#32 1 1] }) (by decide +kernel)
  exact ⟨t, h, rfl, hd⟩

theorem witness_StepTakesOneAction :
    (∃ t, step { tiny with program := [.setReg .tc0 0#32] } = .next t) ∧ tiny.program = [] := ⟨⟨_, rfl⟩, rfl⟩

theorem witness_InvariantAtReset :
    Memory.wf tinyTexels = true ∧ (∀ im ∈ tinyImages, 1 ≤ im.levels) ∧
    (∀ p ∈ tinyTexels, p.1.x < (levelSize tinyImages p.1.ref).1 ∧ p.1.y < (levelSize tinyImages p.1.ref).2) := by decide +kernel

theorem tiny_inv : tiny.Inv where
  memory := by decide +kernel
  inside := by decide +kernel
  levels := by decide
  idle := fun _ => ⟨rfl, rfl⟩
  done := by intro h; cases h
  faulted := by intro f h; cases h
  settled := by decide

theorem witness_StepKeepsInvariant : tiny.Inv ∧ ∃ t, step tiny = .next t := ⟨tiny_inv, _, rfl⟩

/-- Each clause: a bad slot at the capacity (4) and an unbound one (3), after bound ones, and every slot bound. -/
theorem witness_FirstBadSlotFaults :
    tiny.Admits ∧ usedSlots (.upsample 0 0 0 4) = [(.input, 0)] ++ (.bloom, 4) :: [(.output, 0)] ∧
    SlotBound tiny (.input, 0) ∧ ¬ SlotBound tiny (.bloom, 4) ∧ ¬ SlotBound tiny (.input, 3) ∧
    ¬ SlotBound tiny (.output, 22) ∧ SlotBound tiny (.output, 21) ∧
    ((∀ q ∈ usedSlots (.upsample 0 0 0 0), SlotBound tiny q) ∧ ∃ t, exec (.upsample 0 0 0 0) tiny = .next t) := by
  refine ⟨tiny_admits, rfl, ⟨0, rfl⟩, ?_, ?_, ?_, ⟨⟨1, 0⟩, rfl⟩, ?_, isNext_sound (by decide +kernel)⟩
  · rintro ⟨t, h⟩; simp [tiny] at h
  · rintro ⟨t, h⟩; simp [tiny] at h
  · rintro ⟨t, h⟩; simp [tiny] at h
  · intro q hq
    simp only [usedSlots, List.mem_cons, List.not_mem_nil, or_false] at hq
    rcases hq with rfl | rfl | rfl
    · exact ⟨0, rfl⟩
    · exact ⟨0, rfl⟩
    · exact ⟨⟨1, 0⟩, rfl⟩

/-- Each clause: an absent target; a present one with the first pair present and the second absent, and with the first absent. -/
theorem witness_FirstAbsentLevelFaults :
    tiny.Admits ∧
    (Resolved (.downsample 0 0 2 0) tiny 0 0 ⟨1, 5⟩ ∧ ¬ LevelPresent tiny ⟨1, 5⟩) ∧
    (Resolved (.upsample 1 0 0 0) tiny 0 0 ⟨1, 0⟩ ∧ LevelPresent tiny ⟨1, 0⟩ ∧
      readSet (.upsample 1 0 0 0) 0 0 = [] ++ ⟨0, 2⟩ :: [⟨0, 1⟩] ∧ ¬ LevelPresent tiny ⟨0, 2⟩) ∧
    (Resolved (.apply 1 0 0 0) { tiny with inBind := #v[some 7, none, none, none] } 7 0 ⟨1, 0⟩ ∧
      readSet (.apply 1 0 0 0) 7 0 = [⟨0, 1⟩] ++ ⟨7, 0⟩ :: [] ∧ LevelPresent tiny ⟨0, 1⟩ ∧ ¬ LevelPresent tiny ⟨7, 0⟩) :=
  ⟨tiny_admits, ⟨⟨rfl, fun _ => rfl, rfl⟩, by unfold LevelPresent; decide⟩,
    ⟨⟨rfl, fun _ => rfl, rfl⟩, by unfold LevelPresent; decide, rfl, by unfold LevelPresent; decide⟩,
    ⟨rfl, fun _ => rfl, rfl⟩, rfl, by unfold LevelPresent; decide, by unfold LevelPresent; decide⟩

theorem witness_AliasedTargetFaults :
    tiny.Admits ∧ (∀ r ∈ readSet (.downsample 0 0 1 0) 0 0, LevelPresent tiny r) ∧
    (Resolved (.downsample 0 0 1 0) tiny 0 0 ⟨0, 0⟩ ∧ LevelPresent tiny ⟨0, 0⟩ ∧ ⟨0, 0⟩ ∈ readSet (.downsample 0 0 1 0) 0 0) ∧
    (Resolved (.downsample 0 0 0 0) tiny 0 0 ⟨1, 0⟩ ∧ LevelPresent tiny ⟨1, 0⟩ ∧ ⟨1, 0⟩ ∉ readSet (.downsample 0 0 0 0) 0 0 ∧
      ∃ t, exec (.downsample 0 0 0 0) tiny = .next t) := by
  unfold LevelPresent
  exact ⟨tiny_admits, by decide, ⟨⟨rfl, fun _ => rfl, rfl⟩, by decide, by decide⟩, ⟨rfl, fun _ => rfl, rfl⟩, by decide, by decide,
    isNext_sound (by decide +kernel)⟩

theorem witness_FirstUnwrittenRegisterFaults :
    tiny.Admits ∧ Resolved (.prefilter 0 0 0 0) tiny 0 0 ⟨1, 0⟩ ∧ LevelPresent tiny ⟨1, 0⟩ ∧
    (∀ r ∈ readSet (.prefilter 0 0 0 0) 0 0, LevelPresent tiny r) ∧ ⟨1, 0⟩ ∉ readSet (.prefilter 0 0 0 0) 0 0 ∧
    (regsRead (.prefilter 0 0 0 0) = [.tc0, .tc1, .tc2] ++ .tc3 :: [] ∧
      (∀ p ∈ [ParamReg.tc0, .tc1, .tc2], (readReg { pbRegs with tc3 := none } p).isSome = true) ∧
      readReg { pbRegs with tc3 := none } .tc3 = none) ∧
    ((∀ r ∈ regsRead (.prefilter 0 0 0 0), (readReg tiny.regs r).isSome = true) ∧
      ∃ t, exec (.prefilter 0 0 0 0) tiny = .next t) := by
  unfold LevelPresent
  exact ⟨tiny_admits, ⟨rfl, fun _ => rfl, rfl⟩, by decide, by decide, by decide, ⟨rfl, by decide, rfl⟩, by decide,
    isNext_sound (by decide +kernel)⟩

theorem witness_DispatchFaultsArePrecise :
    ∃ t f, exec (.downsample 0 3 0 0) tiny = .next t ∧ t.status = .fault f ∧ f.code ≤ 5 :=
  ⟨_, .badIndex .input 3, rfl, rfl, by decide⟩

theorem tiny_checks : ChecksPass (.downsample 0 0 0 0) tiny 0 0 ⟨1, 0⟩ where
  present := by unfold LevelPresent; decide
  reads := by unfold LevelPresent; decide
  apart := by decide
  regs := by decide

/-- The tiny machine with one texel of the level it reads unwritten. -/
def holed : State := { tiny with texels := tiny.texels.drop 1 }

theorem holed_checks : ChecksPass (.downsample 0 0 0 0) holed 0 0 ⟨1, 0⟩ := ⟨tiny_checks.1, tiny_checks.2, tiny_checks.3, tiny_checks.4⟩

/-- An invocation of the holed machine samples the hole: both clauses have a case. -/
theorem holed_raises : RaisesFault (passOf (.downsample 0 0 0 0) 0 0 ⟨1, 0⟩) holed 0 0 (.unwrittenRead ⟨0, 0, 0, 0⟩) := by
  refine ⟨by decide, .inl ⟨⟨⟨0, 0⟩, 0x3F000000#32, 0x3F000000#32⟩, ?_, ⟨0, 0, 0, 0⟩, ?_, ?_, rfl⟩⟩ <;> decide +kernel

/-- The dispatch ends in a fault. -/
theorem holed_faults : ∃ t f, exec (.downsample 0 0 0 0) holed = .next t ∧ t.status = .fault f := by
  have hp : preflight (startDispatch (encode (.downsample 0 0 0 0)) holed) [⟨0, 0⟩] [] ⟨1, 0⟩ = none := by decide +kernel
  have hf : ((invoke (passDownsample ⟨0, 0⟩ ⟨1, 0⟩)
      (invocationAt (startDispatch (encode (.downsample 0 0 0 0)) holed) ⟨1, 0⟩ (0, 0))).fault?).isSome = true := by decide +kernel
  have e : exec (.downsample 0 0 0 0) holed =
      .next (runPass (passDownsample ⟨0, 0⟩ ⟨1, 0⟩) (startDispatch (encode (.downsample 0 0 0 0)) holed)) := rfl
  rcases runPass_cases (passDownsample ⟨0, 0⟩ ⟨1, 0⟩) (startDispatch (encode (.downsample 0 0 0 0)) holed) with ⟨f, h, _⟩ | ⟨_, e2⟩
  · rw [show preflight (startDispatch (encode (.downsample 0 0 0 0)) holed) (passDownsample ⟨0, 0⟩ ⟨1, 0⟩).reads
      (passDownsample ⟨0, 0⟩ ⟨1, 0⟩).regs (passDownsample ⟨0, 0⟩ ⟨1, 0⟩).target = none from hp] at h
    cases h
  · rcases runGrid_cases (passDownsample ⟨0, 0⟩ ⟨1, 0⟩) (startDispatch (encode (.downsample 0 0 0 0)) holed) with ⟨hn, _⟩ | ⟨f, _, e3⟩
    · have h0 := hn (0, 0) (show (0, 0) ∈ gridPoints 1 1 by decide)
      change ∀ f, invoke (passDownsample ⟨0, 0⟩ ⟨1, 0⟩) (invocationAt (startDispatch (encode (.downsample 0 0 0 0)) holed) ⟨1, 0⟩ (0, 0)) ≠ .faults f at h0
      revert hf h0
      generalize invoke _ _ = r
      cases r <;> simp [InvResult.fault?]
    · exact ⟨_, f, by rw [e, e2, e3], rfl⟩

theorem witness_InvocationFaultIsReported :
    Resolved (.downsample 0 0 0 0) holed 0 0 ⟨1, 0⟩ ∧ ChecksPass (.downsample 0 0 0 0) holed 0 0 ⟨1, 0⟩ ∧
    (∃ t f, exec (.downsample 0 0 0 0) holed = .next t ∧ t.status = .fault f) ∧
    ∃ x y f, x < holed.gridX ∧ y < holed.gridY ∧ RaisesFault (passOf (.downsample 0 0 0 0) 0 0 ⟨1, 0⟩) holed x y f :=
  ⟨⟨rfl, fun _ => rfl, rfl⟩, holed_checks, holed_faults, 0, 0, _, by decide, by decide, holed_raises⟩

theorem witness_InvocationFaultSpoilsTargetOnly :
    Resolved (.downsample 0 0 0 0) holed 0 0 ⟨1, 0⟩ ∧
    (∃ t f, exec (.downsample 0 0 0 0) holed = .next t ∧ t.status = .fault f) ∧
    ¬ ((⟨0, 0, 1, 1⟩ : TexelAddr).ref = ⟨1, 0⟩ ∧ 1 < (levelSize holed.images ⟨1, 0⟩).1 ∧ 1 < (levelSize holed.images ⟨1, 0⟩).2) :=
  ⟨⟨rfl, fun _ => rfl, rfl⟩, holed_faults, by decide⟩

theorem witness_PrefilterWritesThresholdedBox :
    tiny.inBind[0]? = some (some 0) ∧ tiny.outBind[0]? = some (some ⟨1, 0⟩) ∧
    readReg tiny.regs .tc0 = some 0x3F800000#32 ∧ readReg tiny.regs .tc1 = some 0x3F000000#32 ∧
    readReg tiny.regs .tc2 = some 0x3F800000#32 ∧ readReg tiny.regs .tc3 = some 0x3F000000#32 ∧
    PassReady (passPrefilter ⟨0, 0⟩ ⟨1, 0⟩) tiny := ⟨rfl, rfl, rfl, rfl, rfl, rfl, readyB_sound (by decide +kernel)⟩

theorem witness_DownsampleWritesBox :
    tiny.inBind[0]? = some (some 0) ∧ tiny.outBind[0]? = some (some ⟨1, 0⟩) ∧
    PassReady (passDownsample ⟨0, 0⟩ ⟨1, 0⟩) tiny := ⟨rfl, rfl, readyB_sound (by decide +kernel)⟩

theorem witness_UpsampleFirstWritesBlend :
    tiny.inBind[0]? = some (some 0) ∧ tiny.outBind[0]? = some (some ⟨1, 0⟩) ∧ readReg tiny.regs .combineC = some 0x3F000000#32 ∧
    PassReady (passUpsampleFirst ⟨0, 1⟩ ⟨0, 0⟩ ⟨1, 0⟩) tiny := ⟨rfl, rfl, rfl, readyB_sound (by decide +kernel)⟩

theorem witness_UpsampleWritesBlend :
    tiny.inBind[0]? = some (some 0) ∧ tiny.blBind[0]? = some (some 0) ∧ tiny.outBind[0]? = some (some ⟨1, 0⟩) ∧
    readReg tiny.regs .combineC = some 0x3F000000#32 ∧
    PassReady (passUpsample ⟨0, 1⟩ ⟨0, 0⟩ ⟨1, 0⟩) tiny := ⟨rfl, rfl, rfl, rfl, readyB_sound (by decide +kernel)⟩

theorem witness_ApplyWritesTonemappedBlend :
    tiny.inBind[0]? = some (some 0) ∧ tiny.blBind[0]? = some (some 0) ∧ tiny.outBind[0]? = some (some ⟨1, 0⟩) ∧
    readReg tiny.regs .intensity = some 0x3F800000#32 ∧ readReg tiny.regs .combineC = some 0x3F000000#32 ∧
    PassReady (passApply ⟨0, 0⟩ ⟨0, 0⟩ ⟨1, 0⟩) tiny := ⟨rfl, rfl, rfl, rfl, rfl, readyB_sound (by decide +kernel)⟩

theorem witness_EmptyGridWritesNothing :
    { tiny with gridX := 0 }.Admits ∧ Resolved (.downsample 0 0 0 0) { tiny with gridX := 0 } 0 0 ⟨1, 0⟩ ∧
    ChecksPass (.downsample 0 0 0 0) { tiny with gridX := 0 } 0 0 ⟨1, 0⟩ ∧ ({ tiny with gridX := 0 }.gridX = 0 ∨ { tiny with gridX := 0 }.gridY = 0) :=
  ⟨tiny_admits, ⟨rfl, fun _ => rfl, rfl⟩, ⟨tiny_checks.1, tiny_checks.2, tiny_checks.3, tiny_checks.4⟩, .inl rfl⟩

theorem tiny_level_written : EveryTexel tiny.images tiny.texels ⟨0, 0⟩ fun _ => True := by
  have h : ∀ x < 2, ∀ y < 2, (memRead tiny.texels ⟨0, 0, x, y⟩).isSome = true := by decide +kernel
  intro x y hx hy
  obtain ⟨v, hv⟩ := Option.isSome_iff_exists.1 (h x hx y hy)
  exact ⟨v, hv, trivial⟩

theorem witness_WrittenLevelsLetItComplete :
    tiny.Admits ∧ Resolved (.downsample 0 0 0 0) tiny 0 0 ⟨1, 0⟩ ∧ ChecksPass (.downsample 0 0 0 0) tiny 0 0 ⟨1, 0⟩ ∧
    tiny.cfg.guardMode = .correct ∧ (∀ r ∈ readSet (.downsample 0 0 0 0) 0 0, EveryTexel tiny.images tiny.texels r fun _ => True) ∧
    (levelSize tiny.images ⟨1, 0⟩).1 ≤ tiny.gridX ∧ (levelSize tiny.images ⟨1, 0⟩).2 ≤ tiny.gridY := by
  refine ⟨tiny_admits, ⟨rfl, fun _ => rfl, rfl⟩, tiny_checks, rfl, ?_, by decide, by decide⟩
  intro r hr
  simp only [readSet, List.mem_singleton] at hr
  subst hr
  exact tiny_level_written

/-- Both parts: an instruction; a step of a word that decodes, and of a reserved one, at a texel of a bound level. -/
theorem witness_DispatchWritesTargetOnly :
    ((∃ t, exec (.downsample 0 0 0 0) tiny = .next t) ∧ tiny.outBind[0]? ≠ some (some (⟨0, 0, 0, 0⟩ : TexelAddr).ref)) ∧
    ((∃ t, step { tiny with program := [.dispatch 0x10000000#32 1 1] } = .next t) ∧
      ∀ i, decode 0x10000000#32 = .ok i → tiny.outBind[i.fields.output]? ≠ some (some (⟨0, 0, 0, 0⟩ : TexelAddr).ref)) ∧
    ((∃ t, step { tiny with program := [.dispatch 0x50000000#32 1 1] } = .next t) ∧
      ∀ i, decode 0x50000000#32 = .ok i → tiny.outBind[i.fields.output]? ≠ some (some (⟨1, 0, 0, 0⟩ : TexelAddr).ref)) := by
  refine ⟨⟨isNext_sound (by decide +kernel), by decide⟩, ⟨isNext_sound (by decide +kernel), fun i h => ?_⟩,
    ⟨isNext_sound (by decide +kernel), fun i h => ?_⟩⟩
  · rw [show decode 0x10000000#32 = .ok (.downsample 0 0 0 0) by decide] at h
    cases h
    decide
  · rw [show decode 0x50000000#32 = .error (.reservedMode 5) by decide] at h
    cases h

theorem witness_ModesReadTheirTable :
    tiny.Admits ∧ Resolved (.upsample 0 0 0 1) tiny 0 0 ⟨1, 0⟩ ∧
    (∃ q, q ∈ (passOf (.upsample 0 0 0 1) 0 0 ⟨1, 0⟩).samples (invocationAt tiny ⟨1, 0⟩ (0, 0))) ∧
    ∃ r, r ∈ readSet (.upsample 0 0 0 1) 0 0 :=
  ⟨tiny_admits, ⟨rfl, fun _ => rfl, rfl⟩, ⟨_, List.mem_append_right _ (List.mem_singleton.2 rfl)⟩, ⟨0, 1⟩, by decide⟩

/-- Other texels in the target and in a level that is not read. -/
theorem witness_OnlyTheReadSetIsRead :
    Resolved (.downsample 0 0 0 0) tiny 0 0 ⟨1, 0⟩ ∧
    (∀ a : TexelAddr, a.ref ∈ readSet (.downsample 0 0 0 0) 0 0 →
      memRead (tiny.texels ++ grey 1 0 1 1 fun _ _ => 0#32) a = memRead tiny.texels a) ∧
    (∃ t, exec (.downsample 0 0 0 0) tiny = .next t ∧ t.status = .done) ∧
    ∃ t, exec (.downsample 0 0 0 0) { tiny with texels := tiny.texels ++ grey 1 0 1 1 fun _ _ => 0#32 } = .next t := by
  refine ⟨⟨rfl, fun _ => rfl, rfl⟩, fun a ha => ?_, endsDone_sound (by decide +kernel), isNext_sound (by decide +kernel)⟩
  have app : ∀ (m n : Memory), (∀ p ∈ n, p.1 ≠ a) → memRead (m ++ n) a = memRead m a := by
    intro m n hn
    induction m with
    | nil =>
      induction n with
      | nil => rfl
      | cons p n ih =>
        simp only [List.mem_cons, forall_eq_or_imp] at hn
        simp only [List.nil_append, memRead] at ih ⊢
        rw [if_neg (Ne.symm hn.1)]; exact ih hn.2
    | cons p m ih => simp only [List.cons_append, memRead]; rw [ih]
  refine app _ _ fun p hp he => ?_
  simp only [readSet, List.mem_singleton] at ha
  have : p.1.image = 1 := by
    have h : ∀ p ∈ grey 1 0 1 1 (fun _ _ => 0#32), p.1.image = 1 := by decide
    exact h p hp
  rw [he] at this
  rw [TexelAddr.ref, LevelRef.mk.injEq] at ha
  omega

/-- The grid in reverse order. -/
theorem witness_AnyInvocationOrderGivesTheSame :
    Resolved (.downsample 0 0 0 0) { tiny with gridX := 3 } 0 0 ⟨1, 0⟩ ∧
    (∃ t, exec (.downsample 0 0 0 0) { tiny with gridX := 3 } = .next t ∧ t.status = .done) ∧
    (gridPoints 3 1).reverse.Perm (gridPoints 3 1) ∧ (gridPoints 3 1).reverse ≠ gridPoints 3 1 :=
  ⟨⟨rfl, fun _ => rfl, rfl⟩, endsDone_sound (by decide +kernel), List.reverse_perm _, by decide⟩

theorem witness_ModeSelectionIsStateless :
    tiny.Admits ∧ ((Status.done = .idle) ∨ (Status.done = .done)) ∧ ∃ t, exec (.downsample 0 0 0 0) tiny = .next t :=
  ⟨tiny_admits, .inr rfl, isNext_sound (by decide +kernel)⟩

theorem witness_IgnoredBloomHasNoEffect :
    (∃ t, exec (.prefilter 0 0 0 0) tiny = .next t) ∧ (∃ t, exec (.downsample 0 0 0 0) tiny = .next t) ∧
    ∃ t, exec (.upsampleFirst 0 0 0 0) tiny = .next t :=
  ⟨isNext_sound (by decide +kernel), isNext_sound (by decide +kernel), isNext_sound (by decide +kernel)⟩

theorem witness_LevelSizesHalve :
    tinyImages[0]? = some ⟨2, 2, 2⟩ ∧ 1 ≤ (⟨2, 2, 2⟩ : Image).levels ∧ 0 + 1 < (⟨2, 2, 2⟩ : Image).levels := ⟨rfl, by decide, by decide⟩

theorem witness_FootprintStaysInside :
    (texSize tinyImages ⟨0, 0⟩).isSome = true ∧
    (⟨0, 0, 1, 0⟩ : TexelAddr) ∈ footprint tinyImages ⟨⟨0, 0⟩, 0x40A00000#32, 0xC0A00000#32⟩ := by decide +kernel

/-- The last texel of a row, whose right neighbour clamps onto it, and the first of a column. -/
theorem witness_SampleAtCentreIsTheTexel :
    ctx0.cfg = Params.reference ∧ (texSize tinyImages ⟨0, 0⟩).isSome = true ∧
    1 < (levelSize tinyImages ⟨0, 0⟩).1 ∧ 0 < (levelSize tinyImages ⟨0, 0⟩).2 ∧
    fFinite 0x3F400000#32 = true ∧ fFinite 0x3E800000#32 = true ∧
    fRat 0x3F400000#32 * (levelSize tinyImages ⟨0, 0⟩).1 = (1 : ℕ) + 1 / 2 ∧
    fRat 0x3E800000#32 * (levelSize tinyImages ⟨0, 0⟩).2 = (0 : ℕ) + 1 / 2 ∧
    ∀ a ∈ sampleTaps tinyImages ⟨⟨0, 0⟩, 0x3F400000#32, 0x3E800000#32⟩, ∃ v, memRead tinyTexels a = some v ∧
      fFinite v.r = true ∧ fFinite v.g = true ∧ fFinite v.b = true ∧ fFinite v.a = true := by
  refine ⟨rfl, by decide, by decide, by decide, by decide, by decide, by decide +kernel, by decide +kernel, ?_⟩
  have h : ∀ a ∈ sampleTaps tinyImages ⟨⟨0, 0⟩, 0x3F400000#32, 0x3E800000#32⟩,
      memRead tinyTexels a = some ⟨0x3F800000#32, 0x3F800000#32, 0x3F800000#32, 0x3F800000#32⟩ := by decide +kernel
  exact fun a ha => ⟨_, h a ha, by decide, by decide, by decide, by decide⟩

theorem witness_SamplePositionIsPixelCentre :
    tiny.cfg.num = .reference ∧ 0 < (levelSize tiny.images ⟨0, 0⟩).1 ∧ (levelSize tiny.images ⟨0, 0⟩).1 ≤ 2 ^ 24 ∧
    0 < (levelSize tiny.images ⟨0, 0⟩).2 ∧ (levelSize tiny.images ⟨0, 0⟩).2 ≤ 2 ^ 24 ∧ 2 ^ 23 - 1 < 2 ^ 23 ∧ 0 < 2 ^ 23 :=
  ⟨rfl, by decide, by decide, by decide, by decide, by decide, by decide⟩

/-- Within the format, and past it: the greatest finite value doubled; its sum with half a unit of its last place, the least that overflows. -/
theorem witness_AddSubRoundOnce :
    ctx0.cfg.num = .reference ∧ fFinite 0x7F7FFFFF#32 = true ∧ fFinite 0x73000000#32 = true ∧ fFinite 0x72FFFFFF#32 = true ∧
    ¬ Overflows (fRat 0x7F7FFFFF#32 + fRat 0x72FFFFFF#32) ∧ Overflows (fRat 0x7F7FFFFF#32 + fRat 0x73000000#32) ∧
    ¬ Overflows (fRat 0x7F7FFFFF#32 - fRat 0x7F7FFFFF#32) ∧ Overflows (fRat 0x7F7FFFFF#32 - fRat 0xFF7FFFFF#32) := by
  unfold Overflows; decide +kernel

theorem witness_MulDivRoundOnce :
    ctx0.cfg.num = .reference ∧ fFinite 0x7F7FFFFF#32 = true ∧ fFinite 0x3F000000#32 = true ∧ fRat 0x3F000000#32 ≠ 0 ∧
    ¬ Overflows (fRat 0x7F7FFFFF#32 * fRat 0x3F000000#32) ∧ Overflows (fRat 0x7F7FFFFF#32 * fRat 0x7F7FFFFF#32) ∧
    ¬ Overflows (fRat 0x3F000000#32 / fRat 0x3F000000#32) ∧ Overflows (fRat 0x7F7FFFFF#32 / fRat 0x3F000000#32) := by
  unfold Overflows; decide +kernel

theorem witness_NonFiniteOperandsDraw : fFinite 0x7F800000#32 = false ∧ fFinite 0x7FC00000#32 = false := by decide

/-- Each clause: an operand the enclosure decides, 88 itself, and 89, which overflows. -/
theorem witness_ExpIsNearest :
    ctx0.cfg.num = .reference ∧
    (fFinite 0xC2C80000#32 = true ∧ expBetween (expArg 0xC2C80000#32) (expArg 0xC2C80000#32) = some 0x0000001B#32) ∧
    (fFinite 0x42B00000#32 = true ∧ fRat 0x42B00000#32 = 88) ∧
    (fFinite 0x42B20000#32 = true ∧ 2 ^ 128 - 2 ^ 103 ≤ Real.exp (fRat 0x42B20000#32 : ℝ)) := by
  refine ⟨rfl, by decide +kernel, by decide +kernel, by decide, ?_⟩
  rw [show fRat 0x42B20000#32 = 89 by decide +kernel]
  have h := exp_89
  unfold fOverflow at h
  rwa [show ((89 : ℚ) : ℝ) = 89 by norm_num]

/-- Each clause, at the end of the format: `2^127` and `2^128`. -/
theorem witness_PowIsNearest :
    ctx0.cfg.num = .reference ∧ fFinite 0x40000000#32 = true ∧ 0 < fRat 0x40000000#32 ∧
    (fFinite 0x42FE0000#32 = true ∧ (fRat 0x40000000#32 : ℝ) ^ (fRat 0x42FE0000#32 : ℝ) < 2 ^ 128 - 2 ^ 103) ∧
    (fFinite 0x43000000#32 = true ∧ 2 ^ 128 - 2 ^ 103 ≤ (fRat 0x40000000#32 : ℝ) ^ (fRat 0x43000000#32 : ℝ)) := by
  have h2 : fRat 0x40000000#32 = 2 := by decide +kernel
  have ha : fRat 0x42FE0000#32 = 127 := by decide +kernel
  have hb : fRat 0x43000000#32 = 128 := by decide +kernel
  have pa : ((2 : ℚ) : ℝ) ^ ((127 : ℚ) : ℝ) = 2 ^ 127 := by
    rw [show ((127 : ℚ) : ℝ) = ((127 : ℕ) : ℝ) by norm_num, Real.rpow_natCast]; norm_num
  have pb : ((2 : ℚ) : ℝ) ^ ((128 : ℚ) : ℝ) = 2 ^ 128 := by
    rw [show ((128 : ℚ) : ℝ) = ((128 : ℕ) : ℝ) by norm_num, Real.rpow_natCast]; norm_num
  refine ⟨rfl, by decide, by decide +kernel, ⟨by decide, ?_⟩, by decide, ?_⟩
  · rw [h2, ha, pa]; norm_num
  · rw [h2, hb, pb]; norm_num

theorem witness_PowOutsidePositiveBases :
    fFinite 0x80000000#32 = true ∧ fRat 0x80000000#32 = 0 ∧ fFinite 0x00000001#32 = true ∧ 0 < fRat 0x00000001#32 ∧
    fRat 0#32 ≤ 0 ∧ fFinite 0x80000001#32 = true ∧ fRat 0x80000001#32 < 0 := by decide +kernel

theorem witness_NaturalsConvertExactly :
    16777216 ≤ 2 ^ 24 ∧ 8388607 < 2 ^ 23 ∧ ctx0.cfg.num = .reference := by decide

/-- Equal bounds, crossed bounds, the two zeros. -/
theorem witness_OrderFunctions :
    fFinite 0x7FC00000#32 = false ∧ fFinite 0x80000000#32 = true ∧ fFinite 0#32 = true ∧ fFinite fOne = true ∧
    fRat 0x80000000#32 ≤ fRat 0#32 ∧ fRat 0#32 < fRat fOne := by decide +kernel

theorem witness_BelowKneeIsBlack :
    ctx0.cfg.num = .reference ∧ fFinite 0x3F000000#32 = true ∧ fFinite fOne = true ∧ fFinite 0#32 = true ∧
    fRat 0x3F000000#32 ≤ fRat fOne ∧ 0 ≤ fRat fOne ∧
    0 ≤ max (max (fRat 0x3F000000#32) (fRat 0#32)) (fRat 0xBF000000#32) ∧
    max (max (fRat 0x3F000000#32) (fRat 0#32)) (fRat 0xBF000000#32) ≤ fRat 0x3F000000#32 := by decide +kernel

theorem witness_BlackStaysBlack :
    ctx0.cfg.num = .reference ∧ fFinite 0#32 = true ∧ fRat 0x80000000#32 = 0 ∧ fRat 0#32 = 0 ∧
    (∀ p ∈ [0x3DCCCCCD#32, 0xBF666666#32, 0x4E800000#32, 0x3E800000#32], fFinite p = true ∧ |fRat p| ≤ 2 ^ 30) ∧
    0 ≤ fRat 0x4E800000#32 := by
  simp only [List.forall_mem_cons, List.not_mem_nil, false_imp_iff, forall_const]
  decide +kernel

/-- Threshold 1, knee 0.5, brightness at the threshold; and knee equal to the threshold. -/
theorem witness_ScaleBoundedUpToThreshold :
    ctx0.cfg.num = .reference ∧ fFinite fOne = true ∧ fFinite 0x3F000000#32 = true ∧ 0 < fRat 0x3F000000#32 ∧
    fRat 0x3F000000#32 ≤ fRat fOne ∧ fRat fOne ≤ 2 ^ 60 ∧ 0 ≤ fRat fOne ∧ fRat fOne ≤ fRat fOne ∧
    NearestEven (fRat fOne - fRat 0x3F000000#32) 0x3F000000#32 ∧ NearestEven (2 * fRat 0x3F000000#32) 0x3F800000#32 ∧
    NearestEven (1 / 4 / fRat 0x3F000000#32) 0x3F000000#32 :=
  ⟨rfl, by decide, by decide, by decide +kernel, by decide +kernel, by decide +kernel, by decide +kernel, le_refl _,
    nearestEven_exact (by decide) (by decide +kernel), nearestEven_exact (by decide) (by decide +kernel),
    nearestEven_exact (by decide) (by decide +kernel)⟩

theorem witness_PrefilterCutsAtTwenty :
    fFinite 0xC0A00000#32 = true ∧ fFinite 0x41A00000#32 = true ∧ fFinite 0x41A00001#32 = true ∧ 20 < fRat 0x41A00001#32 ∧
    ¬ 20 < fRat 0x41A00000#32 := by decide +kernel

/-- The greatest tap values; the level and the coordinates of the tap positions, at the ends of their range. -/
theorem witness_BoxWeights :
    ctx0.cfg.num = .reference ∧
    (∀ _t : BoxTap, 65535 < 65536 ∧ fFinite 0x477FFF00#32 = true ∧ fRat 0x477FFF00#32 = (65535 : ℕ)) ∧
    LevelConverts tinyImages ⟨0, 0⟩ ∧ fFinite 0x71800000#32 = true ∧ fRat 0x71800000#32 = 2 ^ 100 ∧
    fFinite 0xF1800000#32 = true ∧ fRat 0xF1800000#32 = -2 ^ 100 :=
  ⟨rfl, fun _ => by decide +kernel, ⟨by decide, by decide, by decide⟩, by decide, by decide +kernel, by decide, by decide +kernel⟩

theorem witness_TentWeights :
    ctx0.cfg.num = .reference ∧
    (∀ _dx _dy : TentOff, 65535 < 65536 ∧ fFinite 0x477FFF00#32 = true ∧ fRat 0x477FFF00#32 = (65535 : ℕ)) ∧
    LevelConverts tinyImages ⟨0, 0⟩ ∧ fFinite 0x71800000#32 = true ∧ fRat 0x71800000#32 = 2 ^ 100 ∧
    fFinite 0xF1800000#32 = true ∧ fRat 0xF1800000#32 = -2 ^ 100 ∧
    fFinite ctx0.cfg.tentRadius = true ∧ |fRat ctx0.cfg.tentRadius| ≤ 2 ^ 60 :=
  ⟨rfl, fun _ _ => by decide +kernel, ⟨by decide, by decide, by decide⟩, by decide, by decide +kernel, by decide, by decide +kernel,
    by decide, by decide +kernel⟩

theorem unit_one : InUnit fOne := ⟨by decide, by decide +kernel, by decide +kernel⟩
theorem unit_half : InUnit 0x3F000000#32 := ⟨by decide, by decide +kernel, by decide +kernel⟩

theorem witness_ConstantSurvivesBoxThenTent :
    ctx0.cfg = Params.reference ∧ LevelConverts tinyImages ⟨0, 0⟩ ∧ LevelConverts tinyImages ⟨1, 0⟩ ∧
    InUnit fOne ∧ InUnit 0x3F000000#32 ∧ EveryTexel tinyImages tinyTexels ⟨0, 0⟩ (fun v => v = ⟨fOne, fOne, fOne⟩) ∧
    EveryTexel tinyImages (grey 1 0 1 1 fun _ _ => fOne) ⟨1, 0⟩ (fun v => ∃ (c' : Ctx) (uv' : F × F),
      c'.cfg = Params.reference ∧ InUnit uv'.1 ∧ InUnit uv'.2 ∧ v = boxDownsample13 c' tinyImages tinyTexels ⟨0, 0⟩ uv') := by
  refine ⟨rfl, ⟨by decide, by decide, by decide⟩, ⟨by decide, by decide, by decide⟩, unit_one, unit_half, ?_, ?_⟩
  · have h : ∀ x < 2, ∀ y < 2, memRead tinyTexels ⟨0, 0, x, y⟩ = some ⟨fOne, fOne, fOne, fOne⟩ := by decide +kernel
    exact fun x y hx hy => ⟨_, h x hx y hy, rfl⟩
  · have h : ∀ x < 1, ∀ y < 1, memRead (grey 1 0 1 1 fun _ _ => fOne) ⟨1, 0, x, y⟩ = some ⟨fOne, fOne, fOne, fOne⟩ := by decide +kernel
    exact fun x y hx hy => ⟨_, h x hx y hy, ctx0, (0x3F000000#32, 0x3F000000#32), rfl, unit_half, unit_half, by decide +kernel⟩

theorem witness_CombineEndPoints :
    ctx0.cfg.num = .reference ∧ fFinite 0x40000000#32 = true ∧ fFinite fOne = true ∧ fFinite 0x80000000#32 = true ∧
    fRat 0x80000000#32 = 0 ∧ ¬ Overflows (fRat 0x40000000#32 - fRat fOne) ∧ fRat fOne = 1 ∧
    fRat fOne = fRat 0x40000000#32 - fRat fOne := by unfold Overflows; decide +kernel

/-- Each clause, at the ends of its range: -0, the least positive value, `m`, the value below `S0`, `S0`. -/
theorem witness_GtWeightsSelectThePiece :
    ctx0.cfg = Params.reference ∧
    (∀ x ∈ [0x80000000#32, 0x00000001#32, gtM, 0x3F1EB851#32, 0x3F1EB852#32, 0x71800000#32], fFinite x = true ∧ |fRat x| ≤ 2 ^ 100) ∧
    fRat 0x80000000#32 ≤ 0 ∧ (0 < fRat 0x00000001#32 ∧ fRat 0x00000001#32 < fRat gtM) ∧
    (fRat gtM ≤ fRat 0x3F1EB851#32 ∧ fRat 0x3F1EB851#32 < fRat 0x3F1EB852#32) ∧ fRat 0x3F1EB852#32 ≤ fRat 0x71800000#32 := by
  simp only [List.forall_mem_cons, List.not_mem_nil, false_imp_iff, forall_const]
  decide +kernel

theorem witness_AcesStaysInUnit :
    ctx0.cfg.num = .reference ∧ fFinite 0x5D800000#32 = true ∧ 0 ≤ fRat 0x5D800000#32 ∧ fRat 0x5D800000#32 ≤ 2 ^ 60 ∧
    fFinite 0x80000000#32 = true ∧ fRat 0x80000000#32 = 0 := by decide +kernel

/-- Each clause, at the ends of its range: 0, the least positive value, `m`, the value below `S0`, `S0`, 2^60. -/
theorem witness_GtFollowsItsPieces :
    ctx0.cfg = Params.reference ∧
    (∀ x ∈ [0#32, 0x00000001#32, gtM, 0x3F1EB851#32, 0x3F1EB852#32, 0x5D800000#32], fFinite x = true ∧ 0 ≤ fRat x ∧ fRat x ≤ 2 ^ 60) ∧
    fRat 0#32 = 0 ∧ (0 < fRat 0x00000001#32 ∧ fRat 0x00000001#32 < fRat gtM) ∧
    (fRat gtM ≤ fRat 0x3F1EB851#32 ∧ fRat 0x3F1EB851#32 < fRat 0x3F1EB852#32) ∧ fRat 0x3F1EB852#32 ≤ fRat 0x5D800000#32 := by
  simp only [List.forall_mem_cons, List.not_mem_nil, false_imp_iff, forall_const]
  decide +kernel

end Sys2Proof.Tests
end

/-! What no action of the host can change: the rest of the host program, the parameters and the images. -/

namespace Sys2Proof.Machine

/-- What every host action leaves as it is, once it is taken from the program: the rest of the program, the open parameters and the images. -/
structure SameSetup (s t : State) : Prop where
  program : t.program = s.program
  cfg : t.cfg = s.cfg
  images : t.images = s.images

/-! ### What an answered next state is -/

/-- The write of a host action that is no dispatch (10_state.md R22, R23). -/
def hostWrite : HostAction → State → State
  | .setReg r v, s => { s with regs := writeReg s.regs r v }
  | .bindIn slot image, s => { s with inBind := s.inBind.set slot (some image) }
  | .bindBl slot image, s => { s with blBind := s.blBind.set slot (some image) }
  | .bindOut slot image level, s => { s with outBind := s.outBind.set slot (some ⟨image, level⟩) }
  | .dispatch .., s => s

theorem perform_eq_cfgWrite {a : HostAction} {s : State} (h : isDispatch a = false) :
    perform a s = cfgWrite (hostWrite a) s := by
  cases a with
  | dispatch w gx gy => cases h
  | setReg | bindIn | bindBl | bindOut => rfl

theorem cfgWrite_next {f : State → State} {s t : State} (h : cfgWrite f s = .next t) :
    refusesIn s.status = none ∧ t = f s := by
  rcases cfgWrite_cases f s with ⟨r, _, h'⟩ | ⟨hr, h'⟩
  · rw [h] at h'; cases h'
  · rw [h] at h'; exact ⟨hr, by injection h'⟩

theorem dispatchReserved_next {w : Word} {s t : State} (h : dispatchReserved w s = .next t) :
    refusesIn s.status = none ∧ t = raiseFault (.reservedMode (decodeFields w).mode) (startDispatch w s) := by
  unfold dispatchReserved at h
  cases hr : refusesIn s.status with
  | some r => rw [hr] at h; cases h
  | none => rw [hr] at h; injection h with h; exact ⟨rfl, h.symm⟩

/-! ### The setup is kept -/

theorem runGrid_sameSetup (p : Pass) (s : State) : SameSetup s (runGrid p s) := by
  rcases runGrid_cases p s with ⟨_, h⟩ | ⟨f, _, h⟩
  · rw [h]; exact ⟨finishDispatch_program _ s, finishDispatch_cfg _ s, finishDispatch_images _ s⟩
  · rw [h]
    exact ⟨raiseInvocationFault_program f _ s, raiseInvocationFault_cfg f _ s, raiseInvocationFault_images f _ s⟩

/-- A fault before any invocation, raised once the word is loaded, keeps the setup. -/
theorem raiseFault_startDispatch_sameSetup (f : FaultRecord) (w : Word) (s : State) :
    SameSetup s (raiseFault f (startDispatch w s)) :=
  ⟨by simp, by simp, by simp⟩

theorem exec_sameSetup {i : Instr} {s t : State} (h : exec i s = .next t) : SameSetup s t := by
  obtain ⟨_, ⟨f, _, rfl⟩ | ⟨p, _, ⟨f, _, rfl⟩ | ⟨_, rfl⟩⟩⟩ := exec_next_cases h
  · exact raiseFault_startDispatch_sameSetup f _ s
  · exact raiseFault_startDispatch_sameSetup f _ s
  · obtain ⟨hp, hc, hi⟩ := runGrid_sameSetup p (startDispatch (encode i) s)
    exact ⟨by rw [hp, startDispatch_program], by rw [hc, startDispatch_cfg], by rw [hi, startDispatch_images]⟩

/-- A dispatch keeps the setup, whether its word decodes or is reserved. -/
theorem stepDispatch_sameSetup {w : Word} {gx gy : Nat} {s t : State} (h : stepDispatch w gx gy s = .next t) :
    SameSetup s t := by
  have hkeep : SameSetup (presentGrid gx gy s) t := by
    unfold stepDispatch at h
    split at h
    · exact exec_sameSetup h
    · obtain ⟨_, rfl⟩ := dispatchReserved_next h
      exact raiseFault_startDispatch_sameSetup _ _ _
  obtain ⟨hp, hc, hi⟩ := hkeep
  exact ⟨by rw [hp, presentGrid_program], by rw [hc, presentGrid_cfg], by rw [hi, presentGrid_images]⟩

theorem hostWrite_sameSetup (a : HostAction) (s : State) : SameSetup s (hostWrite a s) := by
  cases a <;> exact ⟨rfl, rfl, rfl⟩

theorem perform_sameSetup {a : HostAction} {s t : State} (h : perform a s = .next t) : SameSetup s t := by
  cases a with
  | dispatch w gx gy => exact stepDispatch_sameSetup h
  | setReg | bindIn | bindBl | bindOut =>
    rw [perform_eq_cfgWrite rfl] at h
    obtain ⟨_, rfl⟩ := cfgWrite_next h
    exact hostWrite_sameSetup _ s

/-- Settles O14: the action is taken from the program before it is performed, and no action changes the setup. -/
theorem stepTakesOneAction : Obligations.StepTakesOneAction := by
  refine ⟨fun s t a rest hprog hstep => ?_, fun s => step_nil⟩
  rw [step_cons hprog] at hstep
  obtain ⟨hp, hc, hi⟩ := perform_sameSetup hstep
  exact ⟨hp, hc, hi⟩

end Sys2Proof.Machine

/-! How a dispatch ends, and what it does to the dispatch index (10_state.md R15, R25). -/

namespace Sys2Proof.Machine

/-- The end of a dispatch that started with dispatch index `k`: DONE with the index one higher, or FAULT with the index as it was. -/
inductive DispatchEnd (k : Nat) (t : State) : Prop where
  | done (status : t.status = .done) (index : t.k = k + 1)
  | faulted (f : FaultRecord) (status : t.status = .fault f) (index : t.k = k)

theorem DispatchEnd.settled {k : Nat} {t : State} (h : DispatchEnd k t) : t.status = .done ∨ ∃ f, t.status = .fault f := by
  cases h with
  | done hs => exact .inl hs
  | faulted f hs => exact .inr ⟨f, hs⟩

theorem DispatchEnd.index_of_done {k : Nat} {t : State} (h : DispatchEnd k t) (hd : t.status = .done) : t.k = k + 1 := by
  cases h with
  | done _ hk => exact hk
  | faulted f hs => rw [hd] at hs; cases hs

theorem DispatchEnd.index_of_not_done {k : Nat} {t : State} (h : DispatchEnd k t) (hd : t.status ≠ .done) : t.k = k := by
  cases h with
  | done hs => exact absurd hs hd
  | faulted _ _ hk => exact hk

/-! ### Admitted or refused -/

theorem admits_iff_refusesIn {s : State} : s.Admits ↔ refusesIn s.status = none := refusesIn_eq_none.symm

theorem exec_refused {i : Instr} {s : State} {r : Refusal} (h : refusesIn s.status = some r) : exec i s = .refused r := by
  simp [exec_eq_runDispatch, runDispatch, h]

theorem cfgWrite_refused {f : State → State} {s : State} {r : Refusal} (h : refusesIn s.status = some r) :
    cfgWrite f s = .refused r := by
  simp [cfgWrite, h]

theorem cfgWrite_admitted {f : State → State} {s : State} (h : s.Admits) : cfgWrite f s = .next (f s) := by
  simp [cfgWrite, admits_iff_refusesIn.1 h]

theorem stepDispatch_refused {w : Word} {gx gy : Nat} {s : State} {r : Refusal} (h : refusesIn s.status = some r) :
    stepDispatch w gx gy s = .refused r := by
  unfold stepDispatch
  split
  · exact exec_refused h
  · simp [dispatchReserved, h]

/-- A STATUS that refuses a host action refuses every one (70_reset_and_hazards.md R167). -/
theorem perform_refused {a : HostAction} {s : State} {r : Refusal} (h : refusesIn s.status = some r) :
    perform a s = .refused r := by
  cases a with
  | dispatch => exact stepDispatch_refused h
  | setReg | bindIn | bindBl | bindOut => rw [perform_eq_cfgWrite rfl, cfgWrite_refused h]

theorem step_afterFault {s : State} {f : FaultRecord} {a : HostAction} {rest : List HostAction}
    (hf : s.status = .fault f) (hprog : s.program = a :: rest) : step s = .refused .afterFault := by
  rw [step_cons hprog]
  exact perform_refused (by simp [hf])

/-! ### Ends -/

theorem raiseFault_startDispatch_end (f : FaultRecord) (w : Word) (s : State) :
    DispatchEnd s.k (raiseFault f (startDispatch w s)) :=
  .faulted f (raiseFault_status f _) (raiseFault_k f _)

theorem runGrid_end (p : Pass) (s : State) : DispatchEnd s.k (runGrid p s) := by
  rcases runGrid_cases p s with ⟨_, h⟩ | ⟨f, _, h⟩
  · rw [h]; exact .done (finishDispatch_status _ s) (finishDispatch_k _ s)
  · rw [h]; exact .faulted f (raiseInvocationFault_status f _ s) (raiseInvocationFault_k f _ s)

theorem exec_end {i : Instr} {s t : State} (h : exec i s = .next t) : DispatchEnd s.k t := by
  obtain ⟨_, ⟨f, _, rfl⟩ | ⟨p, _, ⟨f, _, rfl⟩ | ⟨_, rfl⟩⟩⟩ := exec_next_cases h
  · exact raiseFault_startDispatch_end f _ s
  · exact raiseFault_startDispatch_end f _ s
  · exact runGrid_end p (startDispatch (encode i) s)

theorem stepDispatch_end {w : Word} {gx gy : Nat} {s t : State} (h : stepDispatch w gx gy s = .next t) :
    DispatchEnd s.k t := by
  unfold stepDispatch at h
  split at h
  · exact exec_end (s := presentGrid gx gy s) h
  · obtain ⟨_, rfl⟩ := dispatchReserved_next h
    exact raiseFault_startDispatch_end _ w (presentGrid gx gy s)

/-- Settles O12: the end of a dispatch from IDLE or DONE, the refusal of one in any other STATUS, and a step after FAULT, which idles or is refused. -/
theorem dispatchEndsDoneOrFault : Obligations.DispatchEndsDoneOrFault := by
  refine ⟨fun i s ha => ?_, fun i s ha => ?_, fun s t f hf hstep => ?_⟩
  · obtain ⟨t, ht⟩ := exec_answers (i := i) (admits_iff_refusesIn.1 ha)
    exact ⟨t, ht, (exec_end ht).settled⟩
  · rw [admits_iff_refusesIn, ← ne_eq, Option.ne_none_iff_exists'] at ha
    obtain ⟨r, hr⟩ := ha
    exact ⟨r, exec_refused hr⟩
  · cases hprog : s.program with
    | nil => rw [step_nil hprog] at hstep; cases hstep; rfl
    | cons a rest => rw [step_afterFault hf hprog] at hstep; cases hstep

/-! ### The dispatch index -/

theorem hostWrite_k (a : HostAction) (s : State) : (hostWrite a s).k = s.k := by
  cases a <;> rfl

/-- What a host action does to the dispatch index: a dispatch counts when it ends DONE, a configuration write never. -/
theorem perform_index {a : HostAction} {s t : State} (h : perform a s = .next t) :
    (isDispatch a = true ∧ t.status = .done → t.k = s.k + 1) ∧
    (¬ (isDispatch a = true ∧ t.status = .done) → t.k = s.k) := by
  cases a with
  | dispatch w gx gy =>
    have hend : DispatchEnd s.k t := stepDispatch_end h
    exact ⟨fun hd => hend.index_of_done hd.2, fun hd => hend.index_of_not_done fun hdone => hd ⟨rfl, hdone⟩⟩
  | setReg | bindIn | bindBl | bindOut =>
    rw [perform_eq_cfgWrite rfl] at h
    obtain ⟨_, rfl⟩ := cfgWrite_next h
    exact ⟨fun hd => (nomatch hd.1), fun _ => hostWrite_k _ s⟩

/-- Settles O13: the index starts at 0, the action taken counts or does not, and after FAULT no action is performed. -/
theorem dispatchIndexCountsDone : Obligations.DispatchIndexCountsDone := by
  refine ⟨fun _ _ => rfl, fun s t a rest hprog hstep => ?_, fun s a rest f hprog hf t hstep => ?_⟩
  · rw [step_cons hprog] at hstep
    exact perform_index (s := { s with program := rest }) hstep
  · rw [step_afterFault hf hprog] at hstep; cases hstep

end Sys2Proof.Machine

/-! Nothing of an earlier dispatch is remembered: its start overwrites STATUS and DESC, and no check, sample or colour reads the dispatch index (10_state.md R28). -/

namespace Sys2Proof.Machine

/-- The state with another dispatch index. -/
def State.withIndex (s : State) (n : Nat) : State := { s with k := n }

/-- `t` with its dispatch index counted on from `n` by what it has advanced since `s`. -/
def countedFrom (n : Nat) (s t : State) : State := t.withIndex (n + (t.k - s.k))

/-- The state a dispatch of `i` leaves, once it has started (47_modes.md R118). -/
def runStarted (i : Instr) (s : State) : State :=
  match planOf i s with
  | .error f => raiseFault f s
  | .ok p => runPass p s

theorem exec_admitted {i : Instr} {s : State} (h : s.Admits) :
    exec i s = .next (runStarted i (startDispatch (encode i) s)) := by
  rw [exec_eq_runDispatch, runDispatch, admits_iff_refusesIn.1 h, runStarted]
  cases planOf i (startDispatch (encode i) s) <;> rfl

/-! ### Resolved slots -/

theorem inputSlot_ok {s : State} {n t : Nat} : inputSlot s n = .ok t ↔ s.inBind[n]? = some (some t) := by
  unfold inputSlot; split <;> simp_all

theorem bloomSlot_ok {s : State} {n t : Nat} : bloomSlot s n = .ok t ↔ s.blBind[n]? = some (some t) := by
  unfold bloomSlot; split <;> simp_all

theorem outputSlot_ok {s : State} {n : Nat} {t : LevelRef} : outputSlot s n = .ok t ↔ s.outBind[n]? = some (some t) := by
  unfold outputSlot; split <;> simp_all

theorem exceptBind_eq_ok {α β ε : Type} {x : Except ε α} {f : α → Except ε β} {b : β} :
    x.bind f = .ok b ↔ ∃ a, x = .ok a ∧ f a = .ok b := by
  cases x <;> simp [Except.bind]

/-- A plan succeeds only with the slots resolved, and gives the mode's pass over them. -/
theorem planOf_ok {i : Instr} {s : State} {p : Pass} (h : planOf i s = .ok p) :
    ∃ src blm target, Resolved i s src blm target ∧ p = passOf i src blm target := by
  cases i with
  | prefilter l i o b | downsample l i o b | upsampleFirst l i o b =>
    obtain ⟨src, hsrc, h⟩ := exceptBind_eq_ok.1 h
    obtain ⟨target, htarget, h⟩ := exceptBind_eq_ok.1 h
    exact ⟨src, 0, target, ⟨inputSlot_ok.1 hsrc, (nomatch ·), outputSlot_ok.1 htarget⟩, by cases h; rfl⟩
  | upsample l i o b | apply l i o b =>
    obtain ⟨src, hsrc, h⟩ := exceptBind_eq_ok.1 h
    obtain ⟨blm, hblm, h⟩ := exceptBind_eq_ok.1 h
    obtain ⟨target, htarget, h⟩ := exceptBind_eq_ok.1 h
    exact ⟨src, blm, target, ⟨inputSlot_ok.1 hsrc, fun _ => bloomSlot_ok.1 hblm, outputSlot_ok.1 htarget⟩, by cases h; rfl⟩

/-! ### The dispatch index is not read -/

theorem planOf_withIndex (i : Instr) (s : State) (n : Nat) : planOf i (s.withIndex n) = planOf i s := by
  cases i <;> rfl

theorem passOf_samples_withIndex (i : Instr) (src blm : Nat) (target t : LevelRef) (s : State) (n : Nat) (q : Nat × Nat) :
    (passOf i src blm target).samples (invocationAt (s.withIndex n) t q) =
      (passOf i src blm target).samples (invocationAt s t q) := by
  cases i <;> rfl

theorem passOf_color_withIndex (i : Instr) (src blm : Nat) (target t : LevelRef) (s : State) (n : Nat) (q : Nat × Nat) :
    (passOf i src blm target).color (invocationAt (s.withIndex n) t q) =
      (passOf i src blm target).color (invocationAt s t q) := by
  cases i <;> rfl

theorem passOf_unwritten_withIndex (i : Instr) (src blm : Nat) (target t : LevelRef) (s : State) (n : Nat) (q : Nat × Nat) :
    (passOf i src blm target).unwritten (invocationAt (s.withIndex n) t q) =
      (passOf i src blm target).unwritten (invocationAt s t q) := by
  unfold Pass.unwritten
  rw [passOf_samples_withIndex]
  rfl

theorem invoke_passOf_withIndex (i : Instr) (src blm : Nat) (target t : LevelRef) (s : State) (n : Nat) (q : Nat × Nat) :
    invoke (passOf i src blm target) (invocationAt (s.withIndex n) t q) =
      invoke (passOf i src blm target) (invocationAt s t q) := by
  unfold invoke
  rw [passOf_unwritten_withIndex, passOf_color_withIndex]
  rfl

theorem gridResults_passOf_withIndex (i : Instr) (src blm : Nat) (target : LevelRef) (s : State) (n : Nat) :
    gridResults (passOf i src blm target) (s.withIndex n) = gridResults (passOf i src blm target) s := by
  simp only [gridResults, invoke_passOf_withIndex]
  rfl

theorem raiseFault_withIndex (f : FaultRecord) (s : State) (n : Nat) :
    raiseFault f (s.withIndex n) = countedFrom n s (raiseFault f s) := by
  simp [countedFrom, State.withIndex, raiseFault]

theorem runGrid_passOf_withIndex (i : Instr) (src blm : Nat) (target : LevelRef) (s : State) (n : Nat) :
    runGrid (passOf i src blm target) (s.withIndex n) = countedFrom n s (runGrid (passOf i src blm target) s) := by
  unfold runGrid
  rw [gridResults_passOf_withIndex]
  cases (gridResults (passOf i src blm target) s).filterMap fun q => q.2.fault? with
  | nil => simp [countedFrom, State.withIndex, finishDispatch]
  | cons f rest => simp [countedFrom, State.withIndex, raiseInvocationFault, raiseFault, drawLevel]

theorem runPass_passOf_withIndex (i : Instr) (src blm : Nat) (target : LevelRef) (s : State) (n : Nat) :
    runPass (passOf i src blm target) (s.withIndex n) = countedFrom n s (runPass (passOf i src blm target) s) := by
  have hchecks : ∀ reads regs t, preflight (s.withIndex n) reads regs t = preflight s reads regs t := fun _ _ _ => rfl
  unfold runPass
  rw [hchecks]
  split
  · exact raiseFault_withIndex _ s n
  · exact runGrid_passOf_withIndex i src blm target s n

/-- From another dispatch index a started dispatch does the same. -/
theorem runStarted_withIndex (i : Instr) (s : State) (n : Nat) :
    runStarted i (s.withIndex n) = countedFrom n s (runStarted i s) := by
  unfold runStarted
  rw [planOf_withIndex]
  cases hplan : planOf i s with
  | error f => exact raiseFault_withIndex f s n
  | ok p =>
    obtain ⟨src, blm, target, _, rfl⟩ := planOf_ok hplan
    exact runPass_passOf_withIndex i src blm target s n

/-- Settles O36: started, the two dispatches differ in the dispatch index alone. -/
theorem modeSelectionIsStateless : Obligations.ModeSelectionIsStateless := by
  intro i s t desc status n ha hstatus h
  have hother : { s with desc := desc, status := status, k := n }.Admits := hstatus
  rw [exec_admitted ha] at h
  cases h
  rw [exec_admitted hother]
  exact congrArg _ (runStarted_withIndex i (startDispatch (encode i) s) n)

end Sys2Proof.Machine

/-! The host's ports: a step that takes a dispatch or a configuration write, and the parameter block in bytes (10_state.md R17, R22–R24). -/

namespace Sys2Proof.Machine

/-- Settles O7: the step takes the action and decodes its word. -/
theorem stepRunsDecodedDescriptor : Obligations.StepRunsDecodedDescriptor := by
  intro s w gx gy rest i hprog hdecode
  rw [step_cons hprog]
  simp [perform, stepDispatch, hdecode, presentGrid]

/-! ### Configuration writes -/

/-- A configuration write that STATUS admits: the action is taken and its write made, and nothing else. -/
theorem step_hostWrite {s : State} {a : HostAction} {rest : List HostAction} (hprog : s.program = a :: rest)
    (ha : s.Admits) (hd : isDispatch a = false) : step s = .next (hostWrite a { s with program := rest }) := by
  rw [step_cons hprog, perform_eq_cfgWrite hd]
  exact cfgWrite_admitted ha

/-- A register read after a register write. -/
theorem readReg_writeReg (g : ParamRegs) (r r' : ParamReg) (v : F) :
    readReg (writeReg g r v) r' = if r' = r then some v else readReg g r' := by
  cases r <;> cases r' <;> rfl

/-- Settles O9: the write, and what a register read gives after it. -/
theorem registerWriteSetsOneRegister : Obligations.RegisterWriteSetsOneRegister := by
  intro s r v rest hprog ha
  exact ⟨_, step_hostWrite hprog ha rfl, (readReg_writeReg s.regs r r v).trans (if_pos rfl),
    fun r' hne => (readReg_writeReg s.regs r r' v).trans (if_neg hne), rfl⟩

/-- A table with one slot set: that slot holds the value, the others are as before. -/
theorem bindingSet_getElem? {α : Type} {n : Nat} (table : Vector α n) (j : Fin n) (v : α) :
    (table.set j v)[j.1]? = some v ∧ ∀ m, m ≠ j.1 → (table.set j v)[m]? = table[m]? :=
  ⟨by simp, fun m hne => Vector.getElem?_set_ne j.2 hne.symm⟩

/-- Settles O10: for each table, the write and what its slots hold after it. -/
theorem bindingSetsOneSlot : Obligations.BindingSetsOneSlot := by
  refine fun s rest ha => ⟨fun j im hprog => ?_, fun j im hprog => ?_, fun j im lv hprog => ?_⟩
  · obtain ⟨hset, hother⟩ := bindingSet_getElem? s.inBind j (some im)
    exact ⟨_, step_hostWrite hprog ha rfl, hset, hother, rfl⟩
  · obtain ⟨hset, hother⟩ := bindingSet_getElem? s.blBind j (some im)
    exact ⟨_, step_hostWrite hprog ha rfl, hset, hother, rfl⟩
  · obtain ⟨hset, hother⟩ := bindingSet_getElem? s.outBind j (some ⟨im, lv⟩)
    exact ⟨_, step_hostWrite hprog ha rfl, hset, hother, rfl⟩

/-! ### The parameter block -/

/-- A word is laid out in four bytes, which make the word again (20_memory.md R44). -/
theorem bytesOfWord_eq (o : ByteOrder) (w : Word) :
    ∃ b0 b1 b2 b3, bytesOfWord o w = [b0, b1, b2, b3] ∧ wordOfBytes o b0 b1 b2 b3 = w := by
  have hsplit : w.extractLsb' 24 8 ++ w.extractLsb' 16 8 ++ w.extractLsb' 8 8 ++ w.extractLsb' 0 8 = w := by
    repeat rw [BitVec.extractLsb'_append_extractLsb'_eq_extractLsb' (by decide)]
    exact BitVec.extractLsb'_eq_self
  cases o <;> exact ⟨_, _, _, _, rfl, hsplit⟩

/-- Settles O6: each register's offset leaves its word's four bytes at the head. -/
theorem parameterBlockSetsRegisters : Obligations.ParameterBlockSetsRegisters := by
  intro o t0 t1 t2 t3 n c rest
  obtain ⟨_, _, _, _, e0, rfl⟩ := bytesOfWord_eq o t0
  obtain ⟨_, _, _, _, e1, rfl⟩ := bytesOfWord_eq o t1
  obtain ⟨_, _, _, _, e2, rfl⟩ := bytesOfWord_eq o t2
  obtain ⟨_, _, _, _, e3, rfl⟩ := bytesOfWord_eq o t3
  obtain ⟨_, _, _, _, en, rfl⟩ := bytesOfWord_eq o n
  obtain ⟨_, _, _, _, ec, rfl⟩ := bytesOfWord_eq o c
  rw [e0, e1, e2, e3, en, ec]
  rfl

end Sys2Proof.Machine

/-! What a dispatch may change: texels of its target level, and nothing of the registers, the tables or the images (20_memory.md R42, R49). -/

namespace Sys2Proof.Machine

/-! ### Memory after the invocations -/

/-- `n` is `m` with texels of one level written or erased, each inside the level. -/
structure ChangesLevelOnly (images : List Image) (target : LevelRef) (m n : Memory) : Prop where
  canonical : Memory.wf m = true → Memory.wf n = true
  listed : ∀ p ∈ n, p ∈ m ∨
    (p.1.ref = target ∧ p.1.x < (levelSize images target).1 ∧ p.1.y < (levelSize images target).2)
  others : ∀ a : TexelAddr, a.ref ≠ target → memRead n a = memRead m a

theorem ne_storeAddr {a : TexelAddr} {target : LevelRef} (h : a.ref ≠ target) (x y : Nat) : a ≠ storeAddr target x y := by
  rintro rfl
  exact h rfl

theorem gridStores_changesLevelOnly (p : Pass) (s : State) :
    ChangesLevelOnly s.images p.target s.texels ((gridResults p s).foldl (storeResult p.target) s.texels) where
  canonical := storeFold_wf _
  listed := by
    intro r hr
    obtain hm | ⟨q, v, hq, rfl⟩ := mem_storeFold _ hr
    · exact .inl hm
    · obtain ⟨hx, hy, _⟩ := invoke_stores (mem_gridResults.1 hq).2.symm
      exact .inr ⟨rfl, hx, hy⟩
  others := fun _ ha => memRead_storeFold_other _ _ _ fun q _ _ _ => ne_storeAddr ha q.1.1 q.1.2

theorem drawLevel_changesLevelOnly (s : State) (target : LevelRef) :
    ChangesLevelOnly s.images target s.texels (drawLevel s target) where
  canonical := fun h => drawLevel_wf h target
  listed := fun _ => mem_drawLevel
  others := fun _ ha => memRead_drawLevel_other s target (.inl ha)

theorem runGrid_changesLevelOnly (p : Pass) (s : State) :
    ChangesLevelOnly s.images p.target s.texels (runGrid p s).texels := by
  obtain ⟨_, h⟩ | ⟨f, _, h⟩ := runGrid_cases p s
  · rw [h, finishDispatch_texels]; exact gridStores_changesLevelOnly p s
  · rw [h, raiseInvocationFault_texels]; exact drawLevel_changesLevelOnly s p.target

@[simp] theorem passOf_target (i : Instr) (src blm : Nat) (target : LevelRef) : (passOf i src blm target).target = target := by
  cases i <;> rfl

/-- A dispatch changes texels of the level bound to its output slot, or none. -/
theorem exec_texels {i : Instr} {s t : State} (h : exec i s = .next t) :
    t.texels = s.texels ∨ ∃ target, s.outBind[i.fields.output]? = some (some target) ∧
      ChangesLevelOnly s.images target s.texels t.texels := by
  obtain ⟨_, ⟨f, _, rfl⟩ | ⟨p, hplan, ⟨f, _, rfl⟩ | ⟨_, rfl⟩⟩⟩ := exec_next_cases h
  · exact .inl rfl
  · exact .inl rfl
  · obtain ⟨src, blm, target, hslots, rfl⟩ := planOf_ok hplan
    have hchange := runGrid_changesLevelOnly (passOf i src blm target) (startDispatch (encode i) s)
    rw [passOf_target] at hchange
    exact .inr ⟨target, hslots.output, hchange⟩

/-! ### Registers, tables and DESC -/

/-- What a dispatch leaves of the host's configuration, the registers and the tables, and the word it leaves in DESC. -/
structure DispatchFrame (w : Word) (s t : State) : Prop where
  regs : t.regs = s.regs
  inBind : t.inBind = s.inBind
  blBind : t.blBind = s.blBind
  outBind : t.outBind = s.outBind
  desc : t.desc = some w

theorem raiseFault_startDispatch_frame (f : FaultRecord) (w : Word) (s : State) :
    DispatchFrame w s (raiseFault f (startDispatch w s)) :=
  ⟨rfl, rfl, rfl, rfl, rfl⟩

theorem runGrid_startDispatch_frame (p : Pass) (w : Word) (s : State) :
    DispatchFrame w s (runGrid p (startDispatch w s)) := by
  obtain ⟨_, h⟩ | ⟨f, _, h⟩ := runGrid_cases p (startDispatch w s)
  · rw [h]; exact ⟨rfl, rfl, rfl, rfl, rfl⟩
  · rw [h]; exact ⟨rfl, rfl, rfl, rfl, rfl⟩

theorem exec_frame {i : Instr} {s t : State} (h : exec i s = .next t) : DispatchFrame (encode i) s t := by
  obtain ⟨_, ⟨f, _, rfl⟩ | ⟨p, _, ⟨f, _, rfl⟩ | ⟨_, rfl⟩⟩⟩ := exec_next_cases h
  · exact raiseFault_startDispatch_frame f _ s
  · exact raiseFault_startDispatch_frame f _ s
  · exact runGrid_startDispatch_frame p _ s

/-! ### A dispatch as a step -/

/-- A dispatch answered runs a decoded instruction, or faults as a reserved mode. -/
theorem stepDispatch_next {w : Word} {gx gy : Nat} {s t : State} (h : stepDispatch w gx gy s = .next t) :
    (∃ i, decode w = .ok i ∧ exec i (presentGrid gx gy s) = .next t) ∨
    (∃ f, t = raiseFault f (startDispatch w (presentGrid gx gy s))) := by
  unfold stepDispatch at h
  split at h
  · exact .inl ⟨_, ‹_›, h⟩
  · exact .inr ⟨_, (dispatchReserved_next h).2⟩

theorem stepDispatch_frame {w : Word} {gx gy : Nat} {s t : State} (h : stepDispatch w gx gy s = .next t) :
    ∃ w', DispatchFrame w' s t := by
  obtain ⟨i, _, hexec⟩ | ⟨f, rfl⟩ := stepDispatch_next h
  · obtain ⟨hregs, hin, hbl, hout, hdesc⟩ := exec_frame hexec
    exact ⟨encode i, hregs, hin, hbl, hout, hdesc⟩
  · exact ⟨w, rfl, rfl, rfl, rfl, rfl⟩

/-- A step's dispatch changes texels of the level bound to the output slot of its instruction, or none. -/
theorem stepDispatch_texels {w : Word} {gx gy : Nat} {s t : State} (h : stepDispatch w gx gy s = .next t) :
    t.texels = s.texels ∨ ∃ i target, decode w = .ok i ∧ s.outBind[i.fields.output]? = some (some target) ∧
      ChangesLevelOnly s.images target s.texels t.texels := by
  obtain ⟨i, hdecode, hexec⟩ | ⟨f, rfl⟩ := stepDispatch_next h
  · obtain hsame | ⟨target, hout, hchange⟩ := exec_texels hexec
    · exact .inl hsame
    · exact .inr ⟨i, target, hdecode, hout, hchange⟩
  · exact .inl rfl

/-- Settles O33: only a level bound to the output slot changes, and a level read at an address of another is not it. -/
theorem dispatchWritesTargetOnly : Obligations.DispatchWritesTargetOnly := by
  refine ⟨fun i s t h => ?_, fun s t w gx gy rest hprog hstep => ?_⟩
  · obtain ⟨hregs, hin, hbl, hout, _⟩ := exec_frame h
    refine ⟨hregs, hin, hbl, hout, (exec_sameSetup h).images, fun a ha => ?_⟩
    obtain hsame | ⟨target, hbound, hchange⟩ := exec_texels h
    · rw [hsame]
    · exact hchange.others a fun hlevel => ha (hlevel ▸ hbound)
  · rw [step_cons hprog] at hstep
    have h : stepDispatch w gx gy { s with program := rest } = .next t := hstep
    obtain ⟨_, hregs, hin, hbl, hout, _⟩ := stepDispatch_frame h
    refine ⟨hregs, hin, hbl, hout, (stepDispatch_sameSetup h).images, fun a ha => ?_⟩
    obtain hsame | ⟨i, target, hdecode, hbound, hchange⟩ := stepDispatch_texels h
    · rw [hsame]
    · exact hchange.others a fun hlevel => ha i hdecode (hlevel ▸ hbound)

end Sys2Proof.Machine

/-! The invariant of the state: memory, images, and STATUS in step with the dispatch index and DESC (20_memory.md R31; 10_state.md R15, R18, R25). -/

namespace Sys2Proof.Machine

/-- Settles O16: the initial state is IDLE with nothing dispatched, and its memory is the host's. -/
theorem invariantAtReset : Obligations.InvariantAtReset := by
  have hinitial : ∀ (images : List Image) (texels : Memory), Memory.wf texels = true → (∀ im ∈ images, 1 ≤ im.levels) →
      (∀ p ∈ texels, p.1.x < (levelSize images p.1.ref).1 ∧ p.1.y < (levelSize images p.1.ref).2) →
      (State.initial images texels).Inv := fun images texels hwf hlevels hinside =>
    { memory := hwf
      inside := hinside
      levels := hlevels
      idle := fun _ => ⟨rfl, rfl⟩
      done := nofun
      faulted := nofun
      settled := nofun }
  exact ⟨hinitial [] [] wf_nil nofun nofun, rfl, hinitial⟩

/-- Texels inside their levels stay so when those of one level change inside it. -/
theorem ChangesLevelOnly.inside {images : List Image} {target : LevelRef} {m n : Memory}
    (h : ChangesLevelOnly images target m n)
    (hm : ∀ p ∈ m, p.1.x < (levelSize images p.1.ref).1 ∧ p.1.y < (levelSize images p.1.ref).2) :
    ∀ p ∈ n, p.1.x < (levelSize images p.1.ref).1 ∧ p.1.y < (levelSize images p.1.ref).2 := by
  intro p hp
  obtain hold | ⟨hlevel, hx, hy⟩ := h.listed p hp
  · exact hm p hold
  · rw [hlevel]; exact ⟨hx, hy⟩

/-- Where a dispatch has ended, with DESC loaded, the images kept and its memory still canonical and inside them, the invariant holds. -/
theorem State.Inv.of_dispatchEnd {s t : State} (hs : s.Inv) (hend : DispatchEnd s.k t) (hdesc : t.desc.isSome = true)
    (himages : t.images = s.images) (hmemory : Memory.wf t.texels = true)
    (hinside : ∀ p ∈ t.texels, p.1.x < (levelSize s.images p.1.ref).1 ∧ p.1.y < (levelSize s.images p.1.ref).2) :
    t.Inv where
  memory := hmemory
  inside := by rw [himages]; exact hinside
  levels := by rw [himages]; exact hs.levels
  idle := fun hidle => by obtain h | ⟨f, h⟩ := hend.settled <;> rw [hidle] at h <;> cases h
  done := fun hdone => ⟨by rw [hend.index_of_done hdone]; omega, hdesc⟩
  faulted := fun _ _ => hdesc
  settled := fun hbusy => by obtain h | ⟨f, h⟩ := hend.settled <;> rw [hbusy] at h <;> cases h

theorem stepDispatch_inv {w : Word} {gx gy : Nat} {s t : State} (hs : s.Inv) (h : stepDispatch w gx gy s = .next t) :
    t.Inv := by
  obtain ⟨_, hframe⟩ := stepDispatch_frame h
  have hdesc : t.desc.isSome = true := by rw [hframe.desc]; rfl
  have hinv := hs.of_dispatchEnd (stepDispatch_end h) hdesc (stepDispatch_sameSetup h).images
  obtain hsame | ⟨_, _, _, _, hchange⟩ := stepDispatch_texels h
  · rw [hsame] at hinv; exact hinv hs.memory hs.inside
  · exact hinv (hchange.canonical hs.memory) (hchange.inside hs.inside)

/-- A configuration write touches nothing the invariant speaks of. -/
theorem hostWrite_inv {s : State} (hs : s.Inv) (a : HostAction) : (hostWrite a s).Inv := by
  obtain ⟨hmemory, hinside, hlevels, hidle, hdone, hfaulted, hsettled⟩ := hs
  cases a <;> exact ⟨hmemory, hinside, hlevels, hidle, hdone, hfaulted, hsettled⟩

theorem perform_inv {a : HostAction} {s t : State} (hs : s.Inv) (h : perform a s = .next t) : t.Inv := by
  cases a with
  | dispatch w gx gy => exact stepDispatch_inv hs h
  | setReg | bindIn | bindBl | bindOut =>
    rw [perform_eq_cfgWrite rfl] at h
    obtain ⟨_, rfl⟩ := cfgWrite_next h
    exact hostWrite_inv hs _

/-- The host program is no part of the invariant. -/
theorem State.Inv.withProgram {s : State} (hs : s.Inv) (program : List HostAction) : { s with program := program }.Inv := by
  obtain ⟨hmemory, hinside, hlevels, hidle, hdone, hfaulted, hsettled⟩ := hs
  exact ⟨hmemory, hinside, hlevels, hidle, hdone, hfaulted, hsettled⟩

/-- Settles O17: an idle step changes nothing, and every host action performed keeps the invariant. -/
theorem stepKeepsInvariant : Obligations.StepKeepsInvariant := by
  intro s t hs hstep
  cases hprog : s.program with
  | nil => rw [step_nil hprog] at hstep; cases hstep; exact hs
  | cons a rest => rw [step_cons hprog] at hstep; exact perform_inv (hs.withProgram rest) hstep

end Sys2Proof.Machine

/-! Level sizes, and the footprint of a sample: inside its level, and in the read set of the mode that makes it (20_memory.md R32, R36, R38, R40). -/

namespace Sys2Proof.Machine

/-! ### Level sizes -/

theorem levelSize_of_image {images : List Image} {t : Nat} {im : Image} (h : images[t]? = some im) (l : Nat) :
    levelSize images ⟨t, l⟩ = if l < im.levels then (im.width / 2 ^ l, im.height / 2 ^ l) else (0, 0) := by
  simp [levelSize, h]

/-- An image has no texels at a level at or above its level count. -/
theorem lt_levels_of_levelSize_ne_zero {images : List Image} {t : Nat} {im : Image} (h : images[t]? = some im) {l : Nat}
    (hw : (levelSize images ⟨t, l⟩).1 ≠ 0) : l < im.levels := by
  by_contra hl
  rw [levelSize_of_image h, if_neg hl] at hw
  exact hw rfl

theorem texSize_eq_none {images : List Image} {r : LevelRef} :
    texSize images r = none ↔ (levelSize images r).1 = 0 ∨ (levelSize images r).2 = 0 := by
  simp [texSize, or_iff_not_imp_left]

theorem texSize_eq_some {images : List Image} {r : LevelRef} :
    texSize images r = some (levelSize images r) ↔ (levelSize images r).1 ≠ 0 ∧ (levelSize images r).2 ≠ 0 := by
  simp [texSize]

/-- Settles O38: the two levels' sizes from the image's, and presence from the size, which is zero at a level the image has not. -/
theorem levelSizesHalve : Obligations.LevelSizesHalve := by
  intro images t im him
  have hpresent : ∀ l, (l < im.levels ∧ (levelSize images ⟨t, l⟩).1 ≠ 0 ∧ (levelSize images ⟨t, l⟩).2 ≠ 0) ↔
      ((levelSize images ⟨t, l⟩).1 ≠ 0 ∧ (levelSize images ⟨t, l⟩).2 ≠ 0) := fun l =>
    and_iff_right_of_imp fun hsize => lt_levels_of_levelSize_ne_zero him hsize.1
  refine ⟨fun hlevels => ?_, fun l hl => ?_, fun l => ?_, fun l => ?_⟩
  · rw [levelSize_of_image him, if_pos (by omega)]
    simp
  · rw [levelSize_of_image him, levelSize_of_image him, if_pos hl, if_pos (by omega)]
    simp [pow_succ, Nat.div_div_eq_div_mul]
  · rw [hpresent, texSize_eq_some]
  · rw [hpresent, texSize_eq_none]
    tauto

/-! ### Footprints -/

theorem clampIndex_lt (i : Int) {n : Nat} (hn : 0 < n) : clampIndex i n < n := by
  unfold clampIndex
  omega

@[simp] theorem sampleTap_ref (images : List Image) (q : SampleReq) (dx dy : Nat) : (sampleTap images q dx dy).ref = q.ref := rfl

/-- The texels of a footprint are taps of the sample. -/
theorem footprint_tap {images : List Image} {q : SampleReq} {a : TexelAddr} (h : a ∈ footprint images q) :
    ∃ dx dy, a = sampleTap images q dx dy := by
  unfold footprint at h
  split at h
  · simp only [sampleTaps, List.mem_cons, List.not_mem_nil, or_false] at h
    obtain rfl | rfl | rfl | rfl := h <;> exact ⟨_, _, rfl⟩
  · cases h

/-- Settles O39: each tap's coordinates are clamped to the level. -/
theorem footprintStaysInside : Obligations.FootprintStaysInside := by
  intro images q hlevel a ha
  obtain ⟨hw, hh⟩ := texSize_isSome.1 hlevel
  obtain ⟨dx, dy, rfl⟩ := footprint_tap ha
  exact ⟨rfl, clampIndex_lt _ hw, clampIndex_lt _ hh⟩

/-- Where a level is present and all its texels are written, so is the footprint of every sample of it. -/
theorem footprint_written {images : List Image} {m : Memory} {q : SampleReq} (hlevel : (texSize images q.ref).isSome = true)
    (hwritten : EveryTexel images m q.ref fun _ => True) : ∀ a ∈ footprint images q, (memRead m a).isSome = true := by
  intro a ha
  obtain ⟨href, hx, hy⟩ := footprintStaysInside images q hlevel a ha
  obtain ⟨v, hv, _⟩ := hwritten a.x a.y hx hy
  rw [← href] at hv
  exact Option.isSome_of_eq_some hv

/-! ### The levels a mode samples -/

theorem boxSample_ref (c : Ctx) (images : List Image) (r : LevelRef) (uv : F × F) (t : BoxTap) :
    (boxSample c images r uv t).ref = r := by
  unfold boxSample
  split <;> rfl

theorem tentSample_ref (c : Ctx) (images : List Image) (r : LevelRef) (uv : F × F) (dx dy : TentOff) :
    (tentSample c images r uv dx dy).ref = r := by
  unfold tentSample
  split <;> rfl

theorem boxSamples_ref {c : Ctx} {images : List Image} {r : LevelRef} {uv : F × F} {q : SampleReq}
    (h : q ∈ boxSamples c images r uv) : q.ref = r := by
  obtain ⟨t, _, rfl⟩ := List.mem_map.1 h
  exact boxSample_ref c images r uv t

theorem blendSamples_ref {tent existing : LevelRef} {e : Invocation} {q : SampleReq} (h : q ∈ blendSamples tent existing e) :
    q.ref = tent ∨ q.ref = existing := by
  obtain h | h := List.mem_append.1 h
  · obtain ⟨d, _, rfl⟩ := List.mem_map.1 h
    exact .inl (tentSample_ref _ _ tent _ d.1 d.2)
  · rw [List.mem_singleton.1 h]
    exact .inr rfl

/-- A mode samples levels of its read set only (47_modes.md R119). -/
theorem passOf_samples_ref {i : Instr} {src blm : Nat} {target : LevelRef} {e : Invocation} {q : SampleReq}
    (h : q ∈ (passOf i src blm target).samples e) : q.ref ∈ readSet i src blm := by
  cases i with
  | prefilter | downsample => exact List.mem_singleton.2 (boxSamples_ref h)
  | upsampleFirst | upsample | apply =>
    obtain h | h := blendSamples_ref h
    · exact h ▸ List.mem_cons_self
    · exact h ▸ List.mem_cons_of_mem _ List.mem_cons_self

end Sys2Proof.Machine

/-! A dispatch whose slots resolve runs its mode's pass; where that completes, every texel of the target that the grid covers is stored (47_modes.md R118, 41_decoder.md R89). -/

namespace Sys2Proof.Machine

/-! ### The pass of a resolved dispatch -/

theorem planOf_resolved {i : Instr} {s : State} {src blm : Nat} {target : LevelRef} (h : Resolved i s src blm target) :
    planOf i s = .ok (passOf i src blm target) := by
  cases i with
  | prefilter l i o b | downsample l i o b | upsampleFirst l i o b =>
    exact exceptBind_eq_ok.2 ⟨src, inputSlot_ok.2 h.input, exceptBind_eq_ok.2 ⟨target, outputSlot_ok.2 h.output, rfl⟩⟩
  | upsample l i o b | apply l i o b =>
    exact exceptBind_eq_ok.2 ⟨src, inputSlot_ok.2 h.input, exceptBind_eq_ok.2 ⟨blm, bloomSlot_ok.2 (h.bloom rfl),
      exceptBind_eq_ok.2 ⟨target, outputSlot_ok.2 h.output, rfl⟩⟩⟩

theorem Resolved.startDispatch {i : Instr} {s : State} {src blm : Nat} {target : LevelRef} (h : Resolved i s src blm target)
    (w : Word) : Resolved i (startDispatch w s) src blm target :=
  ⟨h.input, h.bloom, h.output⟩

theorem exec_resolved {i : Instr} {s : State} {src blm : Nat} {target : LevelRef} (ha : s.Admits)
    (h : Resolved i s src blm target) :
    exec i s = .next (runPass (passOf i src blm target) (startDispatch (encode i) s)) := by
  rw [exec_admitted ha, runStarted, planOf_resolved (h.startDispatch _)]

/-- A resolved dispatch that answers has run its mode's pass. -/
theorem exec_resolved_next {i : Instr} {s t : State} {src blm : Nat} {target : LevelRef}
    (hslots : Resolved i s src blm target) (h : exec i s = .next t) :
    t = runPass (passOf i src blm target) (startDispatch (encode i) s) := by
  rw [exec_resolved (admits_iff_refusesIn.2 (exec_next_cases h).1) hslots] at h
  cases h
  rfl

@[simp] theorem passOf_reads (i : Instr) (src blm : Nat) (target : LevelRef) :
    (passOf i src blm target).reads = readSet i src blm := by
  cases i <;> rfl

@[simp] theorem passOf_regs (i : Instr) (src blm : Nat) (target : LevelRef) :
    (passOf i src blm target).regs = regsRead i := by
  cases i <;> rfl

/-- Checks that pass raise no fault: the invocations run. -/
theorem runPass_of_checksPass {i : Instr} {s : State} {src blm : Nat} {target : LevelRef} (h : ChecksPass i s src blm target) :
    runPass (passOf i src blm target) s = runGrid (passOf i src blm target) s := by
  have hpre : preflight s (readSet i src blm) (regsRead i) target = none :=
    preflight_none.2 ⟨h.present, h.reads, h.apart, h.regs⟩
  simp [runPass, hpre]

theorem ChecksPass.startDispatch {i : Instr} {s : State} {src blm : Nat} {target : LevelRef} (h : ChecksPass i s src blm target)
    (w : Word) : ChecksPass i (startDispatch w s) src blm target :=
  ⟨h.present, h.reads, h.apart, h.regs⟩

/-- A pass that ends DONE does not read its target, and has run its grid. -/
theorem runPass_done {p : Pass} {s : State} (h : (runPass p s).status = .done) :
    p.target ∉ p.reads ∧ runPass p s = runGrid p s := by
  obtain ⟨f, _, hrun⟩ | ⟨hpre, hrun⟩ := runPass_cases p s
  · rw [hrun, raiseFault_status] at h
    cases h
  · obtain ⟨_, _, hapart, _⟩ := preflight_none.1 hpre
    exact ⟨hapart, hrun⟩

/-! ### What a completed grid has stored -/

theorem guardPasses_inside (mode : GuardMode) {w h x y : Nat} (hx : x < w) (hy : y < h) : guardPasses mode w h x y = true := by
  cases mode <;> simp [guardPasses, hx, hy]

/-- An invocation inside the target level that raises no fault stores its colour. -/
theorem invoke_inside {p : Pass} {e : Invocation} (hx : e.x < e.width) (hy : e.y < e.height)
    (hfault : ∀ f, invoke p e ≠ .faults f) : invoke p e = .stores (storedTexel e.start.cfg (p.color e)) := by
  obtain ⟨hguard, _⟩ | ⟨_, _, h⟩ | ⟨_, a, _, h⟩ := invoke_cases p e
  · rw [guardPasses_inside _ hx hy] at hguard
    cases hguard
  · obtain ⟨_, _, hstore⟩ | ⟨hout, _⟩ := imageStore_cases e (p.color e)
    · rw [h, hstore]
    · exact absurd ⟨hx, hy⟩ hout
  · exact absurd h (hfault _)

/-- A grid that ends DONE has raised no fault, and memory holds its stores. -/
theorem runGrid_done {p : Pass} {s : State} (h : (runGrid p s).status = .done) :
    (∀ q ∈ gridPoints s.gridX s.gridY, ∀ f, invoke p (invocationAt s p.target q) ≠ .faults f) ∧
    (runGrid p s).texels = (gridResults p s).foldl (storeResult p.target) s.texels := by
  obtain ⟨hfault, hrun⟩ | ⟨f, _, hrun⟩ := runGrid_cases p s
  · exact ⟨hfault, by rw [hrun, finishDispatch_texels]⟩
  · rw [hrun, raiseInvocationFault_status] at h
    cases h

/-- A completed grid has stored the colour of every position of it inside the target. -/
theorem runGrid_stored {p : Pass} {s : State} (h : (runGrid p s).status = .done) {x y : Nat}
    (hgx : x < s.gridX) (hgy : y < s.gridY) (hx : x < (levelSize s.images p.target).1)
    (hy : y < (levelSize s.images p.target).2) :
    memRead (runGrid p s).texels (storeAddr p.target x y) =
      some (storedTexel s.cfg (p.color (invocationAt s p.target (x, y)))) := by
  obtain ⟨hfault, htexels⟩ := runGrid_done h
  have hgrid : (x, y) ∈ gridPoints s.gridX s.gridY := mem_gridPoints.2 ⟨hgx, hgy⟩
  have hstores := invoke_inside (e := invocationAt s p.target (x, y)) hx hy (hfault _ hgrid)
  rw [htexels]
  refine memRead_storeFold_same (q := (x, y)) ?_ _ (mem_gridResults.2 ⟨hgrid, hstores.symm⟩)
  rw [gridResults_fst]
  exact gridPoints_nodup _ _

/-! ### Completion -/

/-- Under the CORRECT guard an invocation whose samples are all of written texels raises no fault. -/
theorem invoke_ne_faults {p : Pass} {e : Invocation} (hguard : e.start.cfg.guardMode = .correct)
    (hwritten : ∀ q ∈ p.samples e, ∀ a ∈ footprint e.start.images q, (memRead e.start.texels a).isSome = true)
    (f : FaultRecord) : invoke p e ≠ .faults f := by
  obtain ⟨_, h⟩ | ⟨hpass, _, h⟩ | ⟨_, a, ha, _⟩ := invoke_cases p e
  · rw [h]; nofun
  · rw [hguard, guardPasses, Bool.and_eq_true, decide_eq_true_eq, decide_eq_true_eq] at hpass
    obtain ⟨_, _, hstore⟩ | ⟨hout, _⟩ := imageStore_cases e (p.color e)
    · rw [h, hstore]; nofun
    · exact absurd hpass hout
  · obtain ⟨q, hq, ha⟩ := List.mem_flatMap.1 ha
    obtain ⟨ha, hnone⟩ := List.mem_filter.1 ha
    rw [Option.isNone_iff_eq_none] at hnone
    have hsome := hwritten q hq a ha
    rw [hnone] at hsome
    cases hsome

/-- A grid none of whose invocations faults completes. -/
theorem runGrid_status_done {p : Pass} {s : State}
    (h : ∀ q ∈ gridPoints s.gridX s.gridY, ∀ f, invoke p (invocationAt s p.target q) ≠ .faults f) :
    (runGrid p s).status = .done := by
  obtain ⟨_, hrun⟩ | ⟨f, ⟨q, hq, hf⟩, _⟩ := runGrid_cases p s
  · rw [hrun, finishDispatch_status]
  · exact absurd hf (h q hq f)

/-- Settles O32: every sample is of a level in the read set, hence written, and a completed grid has stored all it covers. -/
theorem writtenLevelsLetItComplete : Obligations.WrittenLevelsLetItComplete := by
  intro i s src blm target ha hslots hchecks hguard hwritten
  have hrun := runPass_of_checksPass (hchecks.startDispatch (encode i))
  have hexec := exec_resolved ha hslots
  rw [hrun] at hexec
  have hdone : (runGrid (passOf i src blm target) (startDispatch (encode i) s)).status = .done :=
    runGrid_status_done fun _ _ => invoke_ne_faults hguard fun q hq =>
      footprint_written (hchecks.reads _ (passOf_samples_ref hq)) (hwritten _ (passOf_samples_ref hq))
  refine ⟨_, hexec, hdone, fun hgx hgy x y hx hy => ?_⟩
  rw [(exec_sameSetup hexec).images] at hx hy
  have hstored := runGrid_stored hdone (x := x) (y := y) (hx.trans_le hgx) (hy.trans_le hgy)
    (by rw [passOf_target]; exact hx) (by rw [passOf_target]; exact hy)
  rw [passOf_target] at hstored
  exact ⟨_, hstored, trivial⟩

end Sys2Proof.Machine

/-! What an invocation depends on: the parameters, the registers, the images, the draw counter and the texels of its read set, and nothing else of the state (20_memory.md R50, R51). -/

namespace Sys2Proof.Machine

/-- Two memories hold the same texels of a level. -/
def SameLevel (r : LevelRef) (m n : Memory) : Prop := ∀ a : TexelAddr, a.ref = r → memRead m a = memRead n a

/-- Two states that agree on all an invocation can depend on, the levels of `reads` in their memories among it. -/
structure SameInputs (reads : List LevelRef) (s s' : State) : Prop where
  cfg : s'.cfg = s.cfg
  regs : s'.regs = s.regs
  images : s'.images = s.images
  draws : s'.draws = s.draws
  levels : ∀ r ∈ reads, SameLevel r s'.texels s.texels

theorem sameInputs_startDispatch (reads : List LevelRef) (w : Word) (s : State) : SameInputs reads s (startDispatch w s) :=
  ⟨rfl, rfl, rfl, rfl, fun _ _ _ _ => rfl⟩

/-! ### Samples and filters -/

section
variable {images : List Image} {m n : Memory}

theorem unwrittenIn_sameLevel {q : SampleReq} (h : SameLevel q.ref m n) : unwrittenIn images m q = unwrittenIn images n q := by
  refine List.filter_congr fun a ha => ?_
  obtain ⟨dx, dy, rfl⟩ := footprint_tap ha
  rw [h _ (sampleTap_ref images q dx dy)]

theorem sampleTexel_sameLevel {q : SampleReq} (h : SameLevel q.ref m n) (c : Ctx) :
    sampleTexel c images m q = sampleTexel c images n q := by
  simp only [sampleTexel, sampleChannel, tapChannel, memTexel, h _ (sampleTap_ref images q _ _)]

theorem boxDownsample13_sameLevel {r : LevelRef} (h : SameLevel r m n) (c : Ctx) (uv : F × F) :
    boxDownsample13 c images m r uv = boxDownsample13 c images n r uv := by
  have hvalue : ∀ t, boxValue c images m r uv t = boxValue c images n r uv t := fun t =>
    sampleTexel_sameLevel (by rw [boxSample_ref]; exact h) _
  simp only [boxDownsample13, hvalue]

theorem tentUpsample9_sameLevel {r : LevelRef} (h : SameLevel r m n) (c : Ctx) (uv : F × F) :
    tentUpsample9 c images m r uv = tentUpsample9 c images n r uv := by
  have hvalue : ∀ dx dy, tentValue c images m r uv dx dy = tentValue c images n r uv dx dy := fun dx dy =>
    sampleTexel_sameLevel (by rw [tentSample_ref]; exact h) _
  simp only [tentUpsample9, hvalue]

end

/-! ### Invocations -/

section
variable {reads : List LevelRef} {s s' : State} (h : SameInputs reads s s') (target : LevelRef) (q : Nat × Nat)
include h

theorem SameInputs.startCfg : (invocationAt s' target q).start.cfg = (invocationAt s target q).start.cfg := h.cfg

theorem SameInputs.width : (invocationAt s' target q).width = (invocationAt s target q).width := by
  simp [h.images]

theorem SameInputs.height : (invocationAt s' target q).height = (invocationAt s target q).height := by
  simp [h.images]

theorem SameInputs.ctx : (invocationAt s' target q).ctx = (invocationAt s target q).ctx := by
  simp [Invocation.ctx, h.cfg, h.draws]

theorem SameInputs.bodyCtx : (invocationAt s' target q).bodyCtx = (invocationAt s target q).bodyCtx := by
  simp only [Invocation.bodyCtx, h.ctx target q]

theorem SameInputs.uv : (invocationAt s' target q).uv = (invocationAt s target q).uv := by
  simp [Invocation.uv, Invocation.posCtx, h.ctx target q, h.images]

theorem SameInputs.blendSamples (tent existing : LevelRef) :
    blendSamples tent existing (invocationAt s' target q) = blendSamples tent existing (invocationAt s target q) := by
  simp [Machine.blendSamples, h.bodyCtx target q, h.uv target q, h.images]

theorem SameInputs.tentColor {tent : LevelRef} (htent : tent ∈ reads) :
    tentColor tent (invocationAt s' target q) = tentColor tent (invocationAt s target q) := by
  simp [Machine.tentColor, h.bodyCtx target q, h.uv target q, h.images, tentUpsample9_sameLevel (h.levels _ htent)]

theorem SameInputs.existingColor {existing : LevelRef} (hexisting : existing ∈ reads) :
    existingColor existing (invocationAt s' target q) = existingColor existing (invocationAt s target q) := by
  have hsample : SameLevel existing s'.texels s.texels := h.levels _ hexisting
  simp [Machine.existingColor, h.bodyCtx target q, h.uv target q, h.images,
    sampleTexel_sameLevel (q := ⟨existing, _, _⟩) hsample]

end

section
variable {i : Instr} {src blm : Nat} {s s' : State} (h : SameInputs (readSet i src blm) s s')
  (dst target : LevelRef) (q : Nat × Nat)
include h

theorem SameInputs.samples : (passOf i src blm dst).samples (invocationAt s' target q) =
    (passOf i src blm dst).samples (invocationAt s target q) := by
  cases i with
  | prefilter | downsample =>
    simp [passOf, passPrefilter, passDownsample, h.bodyCtx target q, h.uv target q, h.images]
  | upsampleFirst | upsample | apply => exact h.blendSamples target q _ _

theorem SameInputs.color : (passOf i src blm dst).color (invocationAt s' target q) =
    (passOf i src blm dst).color (invocationAt s target q) := by
  have hctx := h.bodyCtx target q
  have huv := h.uv target q
  cases i with
  | prefilter l =>
    have hbox := h.levels ⟨src, l⟩ (by simp [readSet])
    simp [passOf, passPrefilter, bodyPrefilter, hctx, huv, h.regs, h.images, boxDownsample13_sameLevel hbox]
  | downsample l =>
    have hbox := h.levels ⟨src, l⟩ (by simp [readSet])
    simp [passOf, passDownsample, bodyDownsample, hctx, huv, h.images, boxDownsample13_sameLevel hbox]
  | upsampleFirst l =>
    have htent := h.tentColor target q (tent := ⟨src, l + 1⟩) (by simp [readSet])
    have hexisting := h.existingColor target q (existing := ⟨src, l⟩) (by simp [readSet])
    simp [passOf, passUpsampleFirst, bodyUpsampleFirst, hctx, h.regs, htent, hexisting]
  | upsample l =>
    have htent := h.tentColor target q (tent := ⟨blm, l + 1⟩) (by simp [readSet])
    have hexisting := h.existingColor target q (existing := ⟨src, l⟩) (by simp [readSet])
    simp [passOf, passUpsample, bodyUpsample, hctx, h.regs, htent, hexisting]
  | apply l =>
    have htent := h.tentColor target q (tent := ⟨blm, l⟩) (by simp [readSet])
    have hexisting := h.existingColor target q (existing := ⟨src, 0⟩) (by simp [readSet])
    simp [passOf, passApply, bodyApply, hctx, h.regs, htent, hexisting]

theorem SameInputs.unwritten : (passOf i src blm dst).unwritten (invocationAt s' target q) =
    (passOf i src blm dst).unwritten (invocationAt s target q) := by
  unfold Pass.unwritten
  rw [h.samples dst target q, invocationAt_start, invocationAt_start, h.images]
  exact List.flatMap_congr fun r hr => unwrittenIn_sameLevel (h.levels _ (passOf_samples_ref hr))

/-- From states that agree on its inputs an invocation ends the same. -/
theorem SameInputs.invoke : invoke (passOf i src blm dst) (invocationAt s' target q) =
    invoke (passOf i src blm dst) (invocationAt s target q) := by
  unfold Machine.invoke imageStore
  rw [h.unwritten dst target q, h.color dst target q, h.ctx target q, h.startCfg target q, h.width target q,
    h.height target q]
  rfl

end

end Sys2Proof.Machine

/-! A dispatch from a state with other texels outside its read set (20_memory.md R50). -/

namespace Sys2Proof.Machine

/-- The state with another memory. -/
def State.withTexels (s : State) (m : Memory) : State := { s with texels := m }

theorem sameInputs_withTexels {reads : List LevelRef} {s : State} {m : Memory}
    (h : ∀ a : TexelAddr, a.ref ∈ reads → memRead m a = memRead s.texels a) : SameInputs reads s (s.withTexels m) :=
  ⟨rfl, rfl, rfl, rfl, fun _ hr a ha => h a (ha ▸ hr)⟩

section
variable {i : Instr} {src blm : Nat} {s : State} {m : Memory} (h : SameInputs (readSet i src blm) s (s.withTexels m))
  (target : LevelRef)
include h

theorem gridResults_passOf_withTexels :
    gridResults (passOf i src blm target) (s.withTexels m) = gridResults (passOf i src blm target) s := by
  simp only [gridResults, h.invoke]
  rfl

/-- The two grids end with the same STATUS and the same dispatch index. -/
theorem runGrid_passOf_withTexels :
    (runGrid (passOf i src blm target) (s.withTexels m)).status = (runGrid (passOf i src blm target) s).status ∧
    (runGrid (passOf i src blm target) (s.withTexels m)).k = (runGrid (passOf i src blm target) s).k := by
  unfold runGrid
  rw [gridResults_passOf_withTexels h]
  cases (gridResults (passOf i src blm target) s).filterMap fun q => q.2.fault? with
  | nil => exact ⟨rfl, rfl⟩
  | cons f rest => exact ⟨rfl, rfl⟩

theorem runPass_passOf_withTexels :
    (runPass (passOf i src blm target) (s.withTexels m)).status = (runPass (passOf i src blm target) s).status ∧
    (runPass (passOf i src blm target) (s.withTexels m)).k = (runPass (passOf i src blm target) s).k := by
  have hchecks : ∀ reads regs t, preflight (s.withTexels m) reads regs t = preflight s reads regs t := fun _ _ _ => rfl
  unfold runPass
  rw [hchecks]
  split
  · exact ⟨rfl, rfl⟩
  · exact runGrid_passOf_withTexels h target

/-- Where they complete, the texels they cover are the same. -/
theorem runPass_passOf_withTexels_stored (hdone : (runPass (passOf i src blm target) s).status = .done) {x y : Nat}
    (hgx : x < s.gridX) (hgy : y < s.gridY) (hx : x < (levelSize s.images target).1) (hy : y < (levelSize s.images target).2) :
    memRead (runPass (passOf i src blm target) (s.withTexels m)).texels (storeAddr target x y) =
      memRead (runPass (passOf i src blm target) s).texels (storeAddr target x y) := by
  have hdone' := hdone
  rw [← (runPass_passOf_withTexels h target).1] at hdone'
  obtain ⟨_, hgrid⟩ := runPass_done hdone
  obtain ⟨_, hgrid'⟩ := runPass_done hdone'
  rw [hgrid] at hdone ⊢
  rw [hgrid'] at hdone' ⊢
  rw [← passOf_target i src blm target] at hx hy
  have hstored := runGrid_stored hdone hgx hgy hx hy
  have hstored' := runGrid_stored hdone' hgx hgy hx hy
  rw [h.color] at hstored'
  rw [passOf_target] at hstored hstored'
  exact hstored'.trans hstored.symm

end

/-- Settles O34: both runs are of the mode's pass, from states that agree on its inputs. -/
theorem onlyTheReadSetIsRead : Obligations.OnlyTheReadSetIsRead := by
  intro i s t t' m src blm target hslots hagree hexec hexec'
  have hslots' : Resolved i { s with texels := m } src blm target := ⟨hslots.input, hslots.bloom, hslots.output⟩
  obtain rfl := exec_resolved_next hslots hexec
  obtain rfl := exec_resolved_next hslots' hexec'
  have hinputs : SameInputs (readSet i src blm) (startDispatch (encode i) s) ((startDispatch (encode i) s).withTexels m) :=
    sameInputs_withTexels hagree
  obtain ⟨hstatus, hindex⟩ := runPass_passOf_withTexels hinputs target
  exact ⟨hstatus, hindex, fun hdone _ _ => runPass_passOf_withTexels_stored hinputs target hdone⟩

end Sys2Proof.Machine

/-! The invocations of a dispatch one after another, in any order (20_memory.md R46, R51; 41_decoder.md R89). -/

namespace Sys2Proof.Machine

/-- The results of the invocations at a list of positions, all from one state. -/
def resultsAt (p : Pass) (s : State) (order : List (Nat × Nat)) : List ((Nat × Nat) × InvResult) :=
  order.map fun q => (q, invoke p (invocationAt s p.target q))

theorem resultsAt_fst (p : Pass) (s : State) (order : List (Nat × Nat)) : (resultsAt p s order).map Prod.fst = order := by
  simp [resultsAt, Function.comp_def]

theorem resultsAt_perm (p : Pass) (s : State) {order order' : List (Nat × Nat)} (h : order.Perm order') :
    (resultsAt p s order).Perm (resultsAt p s order') :=
  h.map _

theorem memRead_storeResult_other (target : LevelRef) (m : Memory) (r : (Nat × Nat) × InvResult) {a : TexelAddr}
    (h : a.ref ≠ target) : memRead (storeResult target m r) a = memRead m a :=
  memRead_storeFold_other [r] m a fun _ _ _ _ => ne_storeAddr h _ _

/-- An invocation that sees the stores of the ones before it ends as it would have from the start, because they are in a level it does not read. -/
theorem runInOrder_passOf {i : Instr} {src blm : Nat} {target : LevelRef} (hapart : target ∉ readSet i src blm) (s : State)
    (order : List (Nat × Nat)) {m : Memory}
    (hm : ∀ a : TexelAddr, a.ref ∈ readSet i src blm → memRead m a = memRead s.texels a) :
    runInOrder (passOf i src blm target) s order m =
      (resultsAt (passOf i src blm target) s order).foldl (storeResult target) m := by
  induction order generalizing m with
  | nil => rfl
  | cons q order ih =>
    have hresult := (sameInputs_withTexels hm).invoke target target q
    unfold State.withTexels at hresult
    rw [runInOrder, passOf_target, hresult, ih]
    · simp [resultsAt]
    · intro a ha
      rw [memRead_storeResult_other target m _ fun hlevel => hapart (hlevel ▸ ha), hm a ha]

/-- Stores at distinct positions leave the same memory in any order. -/
theorem memRead_storeFold_perm {target : LevelRef} {l l' : List ((Nat × Nat) × InvResult)} (hperm : l.Perm l')
    (hdistinct : (l.map Prod.fst).Nodup) (m : Memory) (a : TexelAddr) :
    memRead (l.foldl (storeResult target) m) a = memRead (l'.foldl (storeResult target) m) a := by
  by_cases h : ∃ q v, (q, InvResult.stores v) ∈ l ∧ a = storeAddr target q.1 q.2
  · obtain ⟨q, v, hq, rfl⟩ := h
    rw [memRead_storeFold_same hdistinct m hq,
      memRead_storeFold_same ((hperm.map Prod.fst).nodup_iff.1 hdistinct) m (hperm.mem_iff.1 hq)]
  · have hother : ∀ r ∈ l, ∀ v, r.2 = .stores v → a ≠ storeAddr target r.1.1 r.1.2 := by
      rintro ⟨q, _⟩ hr v rfl ha
      exact h ⟨q, v, hr, ha⟩
    rw [memRead_storeFold_other l m a hother,
      memRead_storeFold_other l' m a fun r hr => hother r (hperm.mem_iff.2 hr)]

/-- Settles O35: in order or at once, the invocations make the same stores, at distinct positions. -/
theorem anyInvocationOrderGivesTheSame : Obligations.AnyInvocationOrderGivesTheSame := by
  intro i s t src blm target order hslots hexec hdone hperm a
  obtain rfl := exec_resolved_next hslots hexec
  obtain ⟨hapart, hgrid⟩ := runPass_done hdone
  rw [passOf_target, passOf_reads] at hapart
  rw [hgrid] at hdone ⊢
  have hstart : gridResults (passOf i src blm target) (startDispatch (encode i) s) =
      resultsAt (passOf i src blm target) s (gridPoints s.gridX s.gridY) := by
    simp only [gridResults, (sameInputs_startDispatch (readSet i src blm) (encode i) s).invoke]
    rfl
  rw [(runGrid_done hdone).2, hstart, passOf_target, runInOrder_passOf hapart s order fun _ _ => rfl]
  refine memRead_storeFold_perm (resultsAt_perm _ s hperm) ?_ _ a
  rw [resultsAt_fst, hperm.nodup_iff]
  exact gridPoints_nodup _ _

end Sys2Proof.Machine

/-! A sample at a texel's centre: the position has no fraction, the weights are 1, 0, 0, 0, and every operation of the sum is exact (20_memory.md R38, 40_numerics.md R69). -/

namespace Sys2Proof.Machine

/-! ### Exact operations -/

/-- A finite value that stands for a rational. -/
def HasValue (x : F) (q : ℚ) : Prop := fFinite x = true ∧ fRat x = q

/-- A value is its magnitude with its sign. -/
theorem fRat_eq_sign_mul (x : F) : fRat x = (if fNeg x then -1 else 1) * ((fMag x : ℚ) / 2 ^ 149) := by
  unfold fRat fVal
  cases fNeg x <;> simp [neg_div]

theorem natAbs_fVal (x : F) : (fVal x).natAbs = fMag x := by
  unfold fVal
  split <;> simp

/-- A quotient not above a finite magnitude does not overflow. -/
theorem roundMag_isSome_of_le {n d : Nat} {z : F} (hd : 0 < d) (hz : fFinite z = true) (h : n ≤ fMag z * d) :
    ∃ b, roundMag n d = some b := by
  have hbits : bitsMag (z.toNat % 2 ^ 31) ≤ bitsMag 0x7F7FFFFF :=
    bitsMag_strictMono.monotone (Nat.le_of_lt_succ (finite_bits_lt hz))
  have hgreatest : bitsMag 0x7F7FFFFF < (2 ^ 25 - 1) * 2 ^ 252 := by decide +kernel
  rw [fMag_eq_bitsMag] at h
  rw [← Option.ne_none_iff_exists', ne_eq, roundMag_none hd, not_le]
  calc n ≤ bitsMag (z.toNat % 2 ^ 31) * d := h
    _ < (2 ^ 25 - 1) * 2 ^ 252 * d := Nat.mul_lt_mul_of_pos_right (hbits.trans_lt hgreatest) hd
    _ = (2 ^ 25 - 1) * (d * 2 ^ 252) := by rw [mul_assoc, mul_comm d]

theorem mulExact_nearest {a b v : F} (h : mulExact a b = some v) : NearestEven (fRat a * fRat b) v := by
  obtain ⟨r, hr, rfl⟩ := Option.map_eq_some_iff.1 h
  have hnear := nearestEven_pack (fNeg a != fNeg b) (Nat.two_pow_pos 149) hr
  have hvalue : fRat a * fRat b =
      (if fNeg a != fNeg b then -1 else 1) * (((fMag a * fMag b : ℕ) : ℚ) / (2 ^ 149 : ℕ) / 2 ^ 149) := by
    rw [fRat_eq_sign_mul a, fRat_eq_sign_mul b]
    cases fNeg a <;> cases fNeg b <;> (push_cast; simp; ring)
  rwa [hvalue]

theorem addExact_nearest {a b v : F} (h : addExact a b = some v) : NearestEven (fRat a + fRat b) v := by
  have hsum : fRat a + fRat b = ((fVal a + fVal b : ℤ) : ℚ) / 2 ^ 149 := by
    unfold fRat
    push_cast
    ring
  rw [hsum]
  unfold addExact at h
  simp only at h
  split at h
  · rename_i hzero
    cases h
    rw [hzero]
    have hvalue : fRat (fPack (fNeg a && fNeg b) 0) = ((0 : ℤ) : ℚ) / 2 ^ 149 := by
      rw [fRat_fPack (by norm_num)]
      simp [bitsMag]
    exact hvalue ▸ nearestEven_self (fFinite_fPack (by norm_num))
  · obtain ⟨r, hr, rfl⟩ := Option.map_eq_some_iff.1 h
    have hnear := nearestEven_pack (decide (fVal a + fVal b < 0)) Nat.one_pos hr
    generalize fVal a + fVal b = s at hnear ⊢
    have hvalue : ((s : ℤ) : ℚ) / 2 ^ 149 =
        (if decide (s < 0) then -1 else 1) * ((s.natAbs : ℚ) / (1 : ℕ) / 2 ^ 149) := by
      rw [Nat.cast_natAbs, Int.cast_abs]
      by_cases hs : s < 0
      · rw [abs_of_neg (by exact_mod_cast hs)]; simp [hs, neg_div]
      · rw [abs_of_nonneg (by exact_mod_cast not_lt.1 hs)]; simp [hs]
    rwa [hvalue]

/-- An operation of the reference record whose exact result is a finite value gives it, once that result is rounded. -/
theorem numApply_hasValue {c : Ctx} (hc : c.cfg.num = .reference) {op : NumOp} {a b z v : F} {q : ℚ}
    (ha : fFinite a = true) (hb : fFinite b = true) (hz : HasValue z q) {exact : Option F} (hv : exact = some v)
    (hnear : NearestEven q v) : HasValue (numApply c op a b exact) q := by
  have hresult : numApply c op a b exact = v := by
    simp [numApply, ha, hb, numResult_reference hc, hv]
  rw [hresult]
  exact ⟨hnear.1, hnear.exact hz.1 hz.2⟩

theorem numMul_hasValue {c : Ctx} (hc : c.cfg.num = .reference) {a b z : F} {p q : ℚ} (ha : HasValue a p)
    (hb : HasValue b q) (hz : HasValue z (p * q)) : HasValue (numMul c a b) (p * q) := by
  have hval : fVal a * fVal b = fVal z * 2 ^ 149 := by
    have hrat : fRat a * fRat b = fRat z := by rw [ha.2, hb.2, hz.2]
    unfold fRat at hrat
    have : ((fVal a * fVal b : ℤ) : ℚ) = ((fVal z * 2 ^ 149 : ℤ) : ℚ) := by
      push_cast
      norm_num at hrat ⊢
      linarith
    exact_mod_cast this
  have hmag : fMag a * fMag b = fMag z * 2 ^ 149 := by
    simpa [Int.natAbs_mul, Int.natAbs_pow, natAbs_fVal] using congrArg Int.natAbs hval
  obtain ⟨r, hr⟩ := roundMag_isSome_of_le (Nat.two_pow_pos 149) hz.1 hmag.le
  have hv : mulExact a b = some (fPack (fNeg a != fNeg b) r) := by simp only [mulExact, hr, Option.map_some]
  exact numApply_hasValue hc ha.1 hb.1 hz hv (ha.2 ▸ hb.2 ▸ mulExact_nearest hv)

theorem numAdd_hasValue {c : Ctx} (hc : c.cfg.num = .reference) {a b z : F} {p q : ℚ} (ha : HasValue a p)
    (hb : HasValue b q) (hz : HasValue z (p + q)) : HasValue (numAdd c a b) (p + q) := by
  have hsum : fVal a + fVal b = fVal z := by
    have hrat : fRat a + fRat b = fRat z := by rw [ha.2, hb.2, hz.2]
    unfold fRat at hrat
    have : ((fVal a + fVal b : ℤ) : ℚ) = (fVal z : ℚ) := by
      push_cast
      norm_num at hrat
      linarith
    exact_mod_cast this
  have hmag : (fVal a + fVal b).natAbs ≤ fMag z * 1 := by
    rw [hsum, natAbs_fVal, mul_one]
  obtain ⟨r, hr⟩ := roundMag_isSome_of_le Nat.one_pos hz.1 hmag
  obtain ⟨v, hv⟩ : ∃ v, addExact a b = some v := by
    unfold addExact
    simp only [hr]
    split <;> exact ⟨_, rfl⟩
  exact numApply_hasValue hc ha.1 hb.1 hz hv (ha.2 ▸ hb.2 ▸ addExact_nearest hv)

theorem hasValue_zero : HasValue 0#32 0 := ⟨by decide, by decide +kernel⟩

theorem hasValue_one : HasValue fOne 1 := ⟨by decide, by decide +kernel⟩

section
variable {c : Ctx} (hc : c.cfg.num = .reference)
include hc

theorem numMul_one_left {a : F} {q : ℚ} (ha : HasValue a q) : HasValue (numMul c fOne a) q := by
  simpa using numMul_hasValue hc hasValue_one ha (by simpa using ha)

theorem numMul_zero_left {a : F} (ha : fFinite a = true) : HasValue (numMul c 0#32 a) 0 := by
  simpa using numMul_hasValue hc hasValue_zero (⟨ha, rfl⟩ : HasValue a (fRat a)) (by simpa using hasValue_zero)

theorem numAdd_zero_right {a b : F} {q : ℚ} (ha : HasValue a q) (hb : HasValue b 0) : HasValue (numAdd c a b) q := by
  simpa using numAdd_hasValue hc ha hb (by simpa using ha)

/-! ### The sum of the four taps -/

/-- With the first tap's weight 1 and the others' 0 the sum is the first tap's texel. -/
theorem sampleBlend_first {t : TapQuad} (h00 : fFinite t.t00 = true) (h10 : fFinite t.t10 = true)
    (h01 : fFinite t.t01 = true) (h11 : fFinite t.t11 = true) :
    HasValue (sampleBlend c ⟨fOne, 0#32, 0#32, 0#32⟩ t) (fRat t.t00) := by
  have hnth : ∀ i, (c.nth i).cfg.num = .reference := fun _ => hc
  have hfirst := numAdd_zero_right (hnth 1) (numMul_one_left (hnth 2) (⟨h00, rfl⟩ : HasValue t.t00 (fRat t.t00)))
    (numMul_zero_left (hnth 3) h10)
  have hsecond := numAdd_zero_right (hnth 4) (numMul_zero_left (hnth 5) h01) (numMul_zero_left (hnth 6) h11)
  exact numAdd_zero_right (hnth 0) hfirst hsecond

end

/-! ### The centre of a texel -/

theorem samplePos_centre {u : F} {n i : Nat} (h : fRat u * n = i + 1 / 2) : samplePos u n = i * (2 ^ 149 : Nat) := by
  have hrat : ((fVal u * n - (2 ^ 148 : Nat) : ℤ) : ℚ) = ((i * (2 ^ 149 : Nat) : ℤ) : ℚ) := by
    unfold fRat at h
    push_cast
    norm_num at h ⊢
    linarith
  exact_mod_cast hrat

theorem sampleFrac_centre {u : F} {n i : Nat} (h : fRat u * n = i + 1 / 2) : sampleFrac u n = 0 := by
  rw [sampleFrac, samplePos_centre h, Int.mul_emod_left, Int.toNat_zero]

theorem sampleBase_centre {u : F} {n i : Nat} (h : fRat u * n = i + 1 / 2) : sampleBase u n = i := by
  rw [sampleBase, samplePos_centre h, Int.mul_ediv_cancel _ (by positivity)]

theorem clampIndex_inside {i n : Nat} (h : i < n) : clampIndex i n = i := by
  unfold clampIndex
  omega

/-- The coordinates of a sample are those of the centre of a texel of its level. -/
structure AtCentre (images : List Image) (q : SampleReq) (i j : Nat) : Prop where
  finiteU : fFinite q.u = true
  finiteV : fFinite q.v = true
  column : i < (levelSize images q.ref).1
  row : j < (levelSize images q.ref).2
  centreU : fRat q.u * (levelSize images q.ref).1 = i + 1 / 2
  centreV : fRat q.v * (levelSize images q.ref).2 = j + 1 / 2

theorem sampleTap_centre {images : List Image} {q : SampleReq} {i j : Nat} (h : AtCentre images q i j) :
    sampleTap images q 0 0 = storeAddr q.ref i j := by
  unfold sampleTap storeAddr
  rw [sampleBase_centre h.centreU, sampleBase_centre h.centreV, Nat.cast_zero, add_zero, add_zero,
    clampIndex_inside h.column, clampIndex_inside h.row]

/-- Unfolded as a function, so that the kernel compares no rounding: evaluating one of unknown operands it recurses too deep. -/
theorem roundF_reference {c : Ctx} (hc : c.cfg.num = .reference) {n d b : Nat} (h : roundMag n d = some b) :
    roundF c n d = fPack false b := by
  generalize hf : @roundF = f
  delta roundF at hf
  subst hf
  beta_reduce
  rw [h, hc]

theorem subtexel_reference (frac : Nat) : subtexel Params.reference frac = frac := rfl

/-- The weights of the taps where neither coordinate has a fraction. -/
theorem sampleWeights_centre {c : Ctx} (hc : c.cfg = Params.reference) {w h : Nat} {q : SampleReq}
    (hu : sampleFrac q.u w = 0) (hv : sampleFrac q.v h = 0) :
    sampleWeights c w h q = ⟨fOne, 0#32, 0#32, 0#32⟩ := by
  have hnth : ∀ i, (c.nth i).cfg.num = .reference := fun i => by rw [Ctx.nth_cfg, hc]; rfl
  have hone : roundMag ((2 ^ 149 - 0) * (2 ^ 149 - 0)) (2 ^ 149) = some 0x3F800000 := by decide +kernel
  have hzero : roundMag 0 (2 ^ 149) = some 0 := by decide +kernel
  unfold sampleWeights
  rw [hu, hv, hc, subtexel_reference]
  dsimp only
  rw [Nat.mul_zero, Nat.zero_mul, Nat.mul_zero, roundF_reference (hnth 0) hone,
    roundF_reference (hnth 1) hzero, roundF_reference (hnth 2) hzero, roundF_reference (hnth 3) hzero]
  rfl

/-- One channel of a sample at a texel's centre is that channel of the texel. -/
theorem sampleChannel_centre {c : Ctx} (hc : c.cfg = Params.reference) {images : List Image} {m : Memory} {q : SampleReq}
    {i j : Nat} (h : AtCentre images q i j) {ch : F4 → F}
    (hfinite : ∀ a ∈ sampleTaps images q, fFinite (ch (memTexel m a)) = true) :
    fRat (sampleChannel c images m q ch) = fRat (ch (memTexel m (storeAddr q.ref i j))) := by
  have hnum : c.cfg.num = .reference := by rw [hc]; rfl
  simp only [sampleTaps, List.forall_mem_cons, List.not_mem_nil, false_imp_iff, implies_true, and_true] at hfinite
  obtain ⟨h00, h10, h01, h11⟩ := hfinite
  have hsum := (sampleBlend_first (c := (c.nth 0).nth 0) hnum (t := tapChannel images m q ch) h00 h10 h01 h11).2
  have hweights := sampleWeights_centre (c := c.nth 1) hc (sampleFrac_centre h.centreU) (sampleFrac_centre h.centreV)
  rw [sampleChannel, if_pos (by simp [h.finiteU, h.finiteV]), sampleSum_reference (c := c.nth 0) hnum, hweights, hsum,
    ← sampleTap_centre h]
  rfl

theorem memTexel_of_memRead {m : Memory} {a : TexelAddr} {v : F4} (h : memRead m a = some v) : memTexel m a = v := by
  simp [memTexel, h]

/-- Settles O40: the first tap is the texel, and each channel of the sample is its. -/
theorem sampleAtCentreIsTheTexel : Obligations.SampleAtCentreIsTheTexel := by
  intro c images m q i j hc _ hi hj hfu hfv hu hv htaps
  have hcentre : AtCentre images q i j := ⟨hfu, hfv, hi, hj, hu, hv⟩
  obtain ⟨v, hread, _⟩ := htaps (sampleTap images q 0 0) List.mem_cons_self
  rw [sampleTap_centre hcentre] at hread
  have hchannel : ∀ (ch : F4 → F) (place : Nat), (∀ a ∈ sampleTaps images q, fFinite (ch (memTexel m a)) = true) →
      fRat (sampleChannel (c.nth place) images m q ch) = fRat (ch v) := fun ch place hfinite => by
    rw [sampleChannel_centre (c := c.nth place) hc hcentre hfinite, memTexel_of_memRead hread]
  refine ⟨v, hread, hchannel F4.r 0 fun a ha => ?_, hchannel F4.g 1 fun a ha => ?_,
    hchannel F4.b 2 fun a ha => ?_, hchannel F4.a 3 fun a ha => ?_⟩
  all_goals
    obtain ⟨w, hw, hr, hg, hb, halpha⟩ := htaps a ha
    rw [memTexel_of_memRead hw]
    assumption

end Sys2Proof.Machine

/-! Descriptor words: the fields that make a word, the bits that select its operation, and the bytes it is laid out in (30_encoding.md R57–R60, R64; 41_decoder.md R81, R82; 20_memory.md R44). -/

namespace Sys2Proof

/-! ### Fields and words (30_encoding.md R57, 41_decoder.md R82) -/

/-- Every field fits its width: the domain on which R82 defines `encode`. -/
structure Fields.Fit (t : Fields) : Prop where
  mode : t.mode < 16
  lod : t.lod < 128
  input : t.input < 128
  output : t.output < 128
  bloom : t.bloom < 128

theorem decodeFields_fit (w : Word) : (decodeFields w).Fit :=
  ⟨decodeFields_mode_lt w, decodeFields_lod_lt w, decodeFields_input_lt w, decodeFields_output_lt w, decodeFields_bloom_lt w⟩

theorem decodeFields_encodeFields {t : Fields} (h : t.Fit) : decodeFields (encodeFields t) = t := by
  obtain ⟨hmode, hlod, hinput, houtput, hbloom⟩ := h
  have hword := encodeFields_toNat hmode hlod hinput houtput hbloom
  cases t
  simp only at hmode hlod hinput houtput hbloom hword
  simp only [decodeFields, bitField, hword, Fields.mk.injEq]
  omega

theorem encodeFields_decodeFields (w : Word) : encodeFields (decodeFields w) = w := by
  obtain ⟨hmode, hlod, hinput, houtput, hbloom⟩ := decodeFields_fit w
  have hw := w.isLt
  refine BitVec.eq_of_toNat_eq ?_
  rw [encodeFields_toNat hmode hlod hinput houtput hbloom]
  simp only [decodeFields, bitField]
  omega

/-! ### Instructions and words -/

/-- The decoder's table of modes is the inverse of the encoder's. -/
theorem ofFields_eq_ok {t : Fields} {i : Instr} : Instr.ofFields t = .ok i ↔ i.fields = t := by
  constructor
  · intro h
    match t with
    | ⟨0, _, _, _, _⟩ | ⟨1, _, _, _, _⟩ | ⟨2, _, _, _, _⟩ | ⟨3, _, _, _, _⟩ | ⟨4, _, _, _, _⟩ => cases h; rfl
    | ⟨n + 5, _, _, _, _⟩ => cases h
  · rintro rfl
    exact Instr.ofFields_fields i

theorem decode_eq_ok {w : Word} {i : Instr} : decode w = .ok i ↔ i.fields = decodeFields w := ofFields_eq_ok

theorem fields_mode_lt (i : Instr) : i.fields.mode < 5 := by
  cases i <;> simp [Instr.fields]

theorem wellFormed_eq (i : Instr) :
    i.wellFormed = (fits7 i.fields.lod && fits7 i.fields.input && fits7 i.fields.output && fits7 i.fields.bloom) := by
  cases i <;> rfl

/-- An instruction is well formed when its operands fit, as its mode value always does. -/
theorem wellFormed_iff_fit {i : Instr} : i.wellFormed = true ↔ i.fields.Fit := by
  rw [wellFormed_eq]
  simp only [fits7, Bool.and_eq_true, decide_eq_true_eq]
  exact ⟨fun ⟨⟨⟨hlod, hinput⟩, houtput⟩, hbloom⟩ => ⟨(fields_mode_lt i).trans (by decide), hlod, hinput, houtput, hbloom⟩,
    fun h => ⟨⟨⟨h.lod, h.input⟩, h.output⟩, h.bloom⟩⟩

theorem decode_encode {i : Instr} (h : i.wellFormed = true) : decode (encode i) = .ok i :=
  decode_eq_ok.2 (decodeFields_encodeFields (wellFormed_iff_fit.1 h)).symm

theorem wellFormed_of_decode {w : Word} {i : Instr} (h : decode w = .ok i) : i.wellFormed = true :=
  wellFormed_iff_fit.2 (decode_eq_ok.1 h ▸ decodeFields_fit w)

theorem encode_of_decode {w : Word} {i : Instr} (h : decode w = .ok i) : encode i = w := by
  rw [encode, decode_eq_ok.1 h, encodeFields_decodeFields]

/-! ### Bytes (20_memory.md R44, 30_encoding.md R64) -/

/-- A word that decodes, laid out in bytes, decodes from them and leaves the bytes behind it. -/
theorem decodeBytes_bytesOfWord {w : Word} {i : Instr} (h : decode w = .ok i) (o : ByteOrder) (rest : List Byte) :
    decodeBytes o (bytesOfWord o w ++ rest) = .ok (i, rest) := by
  obtain ⟨b0, b1, b2, b3, hbytes, rfl⟩ := Machine.bytesOfWord_eq o w
  rw [hbytes]
  simp [decodeBytes, h]

theorem decodeTableWord_toNat {w : Word} {i : Instr} (h : decode w = .ok i) : decodeTableWord 32 w.toNat = some i := by
  have hword : BitVec.ofNat 32 (w.toNat % 2 ^ 32) = w := by
    rw [Nat.mod_eq_of_lt w.isLt, BitVec.ofNat_toNat, BitVec.setWidth_eq]
  have hbytes := decodeBytes_bytesOfWord h .little []
  rw [List.append_nil] at hbytes
  rw [decodeTableWord, hword, hbytes]

/-- Settles O2: decoding the word, its bytes and its table number all come down to the fields, which make the word and are made of it. -/
theorem instructionsRoundTrip : Obligations.InstructionsRoundTrip := by
  refine ⟨fun i hwf => ?_, fun w i hdecode => ⟨wellFormed_of_decode hdecode, encode_of_decode hdecode⟩⟩
  have hdecode := decode_encode hwf
  exact ⟨hdecode, decodeBytes_bytesOfWord hdecode, decodeTableWord_toNat hdecode⟩

/-! ### The mode bits (30_encoding.md R59, R60) -/

/-- The mask keeps the mode bits, in their place. -/
theorem modeMask_toNat (w : Word) : (w &&& 0xF0000000#32).toNat = (decodeFields w).mode * 2 ^ 28 := by
  have hhigh : (w.toNat &&& 15 <<< 28) / 2 ^ 28 = w.toNat / 2 ^ 28 % 2 ^ 4 := by
    rw [← Nat.shiftRight_eq_div_pow, Nat.shiftRight_and_distrib, Nat.shiftLeft_shiftRight, Nat.shiftRight_eq_div_pow]
    exact Nat.and_two_pow_sub_one_eq_mod _ 4
  have hlow : (w.toNat &&& 15 <<< 28) % 2 ^ 28 = 0 := by
    rw [Nat.and_mod_two_pow]
    exact Nat.and_zero _
  calc (w &&& 0xF0000000#32).toNat
      = w.toNat &&& 15 <<< 28 := BitVec.toNat_and ..
    _ = w.toNat / 2 ^ 28 % 2 ^ 4 * 2 ^ 28 := by rw [← hhigh]; omega

/-- The masked word is a mode's exactly when the word decodes to that mode's operation on the other four fields. -/
theorem modeMask_eq_iff {w : Word} {n : Nat} {i : Instr} (hi : i.fields = { decodeFields w with mode := n }) :
    w &&& 0xF0000000#32 = BitVec.ofNat 32 (n * 2 ^ 28) ↔ decode w = .ok i := by
  have hn : n < 5 := by simpa [hi] using fields_mode_lt i
  have hfield := decodeFields_mode_lt w
  have hmask : w &&& 0xF0000000#32 = BitVec.ofNat 32 (n * 2 ^ 28) ↔ n = (decodeFields w).mode := by
    rw [← BitVec.toNat_inj, modeMask_toNat, BitVec.toNat_ofNat]
    omega
  rw [hmask, decode_eq_ok, hi]
  exact ⟨fun h => by rw [h], congrArg Fields.mode⟩

theorem ofFields_eq_reserved {t : Fields} : Instr.ofFields t = .error (.reservedMode t.mode) ↔ 5 ≤ t.mode := by
  match t with
  | ⟨0, _, _, _, _⟩ | ⟨1, _, _, _, _⟩ | ⟨2, _, _, _, _⟩ | ⟨3, _, _, _, _⟩ | ⟨4, _, _, _, _⟩ => simp [Instr.ofFields]
  | ⟨n + 5, _, _, _, _⟩ => simp [Instr.ofFields]

theorem le_iff_reservedMode (w : Word) : 0x50000000#32 ≤ w ↔ 5 ≤ (decodeFields w).mode := by
  have hw := w.isLt
  rw [BitVec.le_def]
  simp only [decodeFields, bitField, BitVec.toNat_ofNat]
  omega

/-- Settles O4: each mask test is a test of the mode field, by which the decoder selects. -/
theorem modeBitsSelectOperation : Obligations.ModeBitsSelectOperation := fun w =>
  ⟨modeMask_eq_iff (n := 0) rfl, modeMask_eq_iff (n := 1) rfl, modeMask_eq_iff (n := 2) rfl, modeMask_eq_iff (n := 3) rfl,
    modeMask_eq_iff (n := 4) rfl, (le_iff_reservedMode w).trans ofFields_eq_reserved.symm⟩

end Sys2Proof

/-! A dispatch from its start with another word in DESC: no slot, check, sample or colour reads DESC, so an operand that only the word holds has no other effect (30_encoding.md R61, R65). -/

namespace Sys2Proof.Machine

/-- The state with another word in DESC. -/
def State.withDesc (s : State) (w : Word) : State := { s with desc := some w }

theorem sameInputs_withDesc (reads : List LevelRef) (s : State) (w : Word) : SameInputs reads s (s.withDesc w) :=
  ⟨rfl, rfl, rfl, rfl, fun _ _ _ _ => rfl⟩

theorem planOf_withDesc (i : Instr) (s : State) (w : Word) : planOf i (s.withDesc w) = planOf i s := by
  cases i <;> rfl

theorem gridResults_passOf_withDesc (i : Instr) (src blm : Nat) (target : LevelRef) (s : State) (w : Word) :
    gridResults (passOf i src blm target) (s.withDesc w) = gridResults (passOf i src blm target) s := by
  simp only [gridResults, (sameInputs_withDesc (readSet i src blm) s w).invoke]
  rfl

theorem runGrid_passOf_withDesc (i : Instr) (src blm : Nat) (target : LevelRef) (s : State) (w : Word) :
    runGrid (passOf i src blm target) (s.withDesc w) = (runGrid (passOf i src blm target) s).withDesc w := by
  unfold runGrid
  rw [gridResults_passOf_withDesc]
  cases (gridResults (passOf i src blm target) s).filterMap fun q => q.2.fault? with
  | nil => rfl
  | cons f rest => rfl

theorem runPass_passOf_withDesc (i : Instr) (src blm : Nat) (target : LevelRef) (s : State) (w : Word) :
    runPass (passOf i src blm target) (s.withDesc w) = (runPass (passOf i src blm target) s).withDesc w := by
  have hchecks : ∀ reads regs t, preflight (s.withDesc w) reads regs t = preflight s reads regs t := fun _ _ _ => rfl
  unfold runPass
  rw [hchecks]
  split
  · rfl
  · exact runGrid_passOf_withDesc i src blm target s w

theorem runStarted_withDesc (i : Instr) (s : State) (w : Word) :
    runStarted i (s.withDesc w) = (runStarted i s).withDesc w := by
  unfold runStarted
  rw [planOf_withDesc]
  cases hplan : planOf i s with
  | error f => rfl
  | ok p =>
    obtain ⟨src, blm, target, _, rfl⟩ := planOf_ok hplan
    exact runPass_passOf_withDesc i src blm target s w

/-- Two instructions with one plan leave states that differ in DESC alone. -/
theorem exec_of_samePlan {i j : Instr} {s t : State} (hplan : planOf j = planOf i) (h : exec i s = .next t) :
    exec j s = .next (t.withDesc (encode j)) := by
  have ha : s.Admits := admits_iff_refusesIn.2 (exec_next_cases h).1
  rw [exec_admitted ha] at h
  cases h
  have hrun : runStarted j = runStarted i := by
    unfold runStarted
    rw [hplan]
  rw [exec_admitted ha, hrun]
  exact congrArg _ (runStarted_withDesc i (startDispatch (encode i) s) (encode j))

/-- Settles O37: the three modes' plans do not take `bloom_index`. -/
theorem ignoredBloomHasNoEffect : Obligations.IgnoredBloomHasNoEffect := fun _ _ _ _ _ _ =>
  ⟨exec_of_samePlan rfl, exec_of_samePlan rfl, exec_of_samePlan rfl⟩

end Sys2Proof.Machine

/-! The operations of the reference record: what each gives on finite operands is its exact result rounded once, and a draw exactly where that overflows (40_numerics.md R69, R79). -/

namespace Sys2Proof.Machine

/-! ### Rounding once -/

/-- An exact result rounded once: nothing exactly where `q` overflows, and else a value nearest to it, ties to even. -/
structure RoundedOnce (q : ℚ) (exact : Option F) : Prop where
  none_iff : exact = none ↔ Overflows q
  nearest : ∀ v, exact = some v → NearestEven q v

theorem abs_fRat (x : F) : |fRat x| = (fMag x : ℚ) / 2 ^ 149 := by
  rw [fRat_eq_sign_mul, abs_mul, abs_of_nonneg (by positivity : (0 : ℚ) ≤ (fMag x : ℚ) / 2 ^ 149)]
  cases fNeg x <;> simp

theorem roundMag_eq_none_iff {n d : ℕ} {q : ℚ} (hd : 0 < d) (hq : |q| = (n : ℚ) / d / 2 ^ 149) :
    roundMag n d = none ↔ Overflows q := by
  have hdq : (0 : ℚ) < d := by exact_mod_cast hd
  rw [roundMag_none hd, Overflows, hq, le_div_iff₀ (by positivity), le_div_iff₀ hdq, ← Nat.cast_le (α := ℚ)]
  have hbound : (((2 ^ 25 - 1) * (d * 2 ^ 252) : ℕ) : ℚ) = (2 ^ 128 - 2 ^ 103) * 2 ^ 149 * d := by
    rw [Nat.cast_mul, Nat.cast_mul, Nat.cast_sub (by norm_num)]
    push_cast
    ring
  rw [hbound]

theorem mulExact_roundedOnce (a b : F) : RoundedOnce (fRat a * fRat b) (mulExact a b) where
  none_iff := by
    have habs : |fRat a * fRat b| = ((fMag a * fMag b : ℕ) : ℚ) / (2 ^ 149 : ℕ) / 2 ^ 149 := by
      rw [abs_mul, abs_fRat, abs_fRat]
      push_cast
      ring
    rw [mulExact, Option.map_eq_none_iff]
    exact roundMag_eq_none_iff (Nat.two_pow_pos 149) habs
  nearest _ := mulExact_nearest

/-- The rounding of a magnitude, packed with a sign, rounds the signed value once. -/
theorem roundedOnce_pack {neg : Bool} {n d : ℕ} {q : ℚ} (hd : 0 < d)
    (hq : q = (if neg then -1 else 1) * ((n : ℚ) / d / 2 ^ 149)) : RoundedOnce q ((roundMag n d).map (fPack neg)) where
  none_iff := by
    rw [Option.map_eq_none_iff]
    refine roundMag_eq_none_iff hd ?_
    rw [hq, abs_mul, abs_of_nonneg (by positivity : (0 : ℚ) ≤ n / d / 2 ^ 149)]
    cases neg <;> simp
  nearest v hv := by
    obtain ⟨r, hr, rfl⟩ := Option.map_eq_some_iff.1 hv
    exact hq ▸ nearestEven_pack neg hd hr

theorem fRat_eq_zero_iff {x : F} : fRat x = 0 ↔ fMag x = 0 := by
  rw [← abs_eq_zero, abs_fRat]
  simp

theorem divExact_roundedOnce (a : F) {b : F} (hb : fRat b ≠ 0) : RoundedOnce (fRat a / fRat b) (divExact a b) := by
  have hmag : fMag b ≠ 0 := fun h => hb (fRat_eq_zero_iff.2 h)
  rw [divExact, if_neg hmag]
  refine roundedOnce_pack (Nat.pos_of_ne_zero hmag) ?_
  rw [fRat_eq_sign_mul a, fRat_eq_sign_mul b]
  cases fNeg a <;> cases fNeg b <;> (push_cast; simp; field_simp; norm_num)

theorem addExact_roundedOnce (a b : F) : RoundedOnce (fRat a + fRat b) (addExact a b) where
  none_iff := by
    have habs : |fRat a + fRat b| = ((fVal a + fVal b).natAbs : ℚ) / (1 : ℕ) / 2 ^ 149 := by
      rw [fRat, fRat, ← add_div, abs_div, Nat.cast_natAbs]
      push_cast
      simp
    rw [← roundMag_eq_none_iff Nat.one_pos habs]
    unfold addExact
    dsimp only
    split
    · rename_i hzero
      have hround : roundMag (0 : ℤ).natAbs 1 = some 0 := by decide +kernel
      rw [hzero, hround]
      simp
    · exact Option.map_eq_none_iff
  nearest _ := addExact_nearest

theorem fFlip_eq_fPack {x : F} (hx : fFinite x = true) : fFlip x = fPack (!fNeg x) (x.toNat % 2 ^ 31) := by
  have hlt := x.isLt
  apply BitVec.eq_of_toNat_eq
  rw [fPack_toNat (finite_bits_lt hx)]
  unfold fFlip fNeg
  by_cases hn : 2 ^ 31 ≤ x.toNat
  · rw [decide_eq_true hn, if_pos rfl, Bool.not_true, if_neg (by simp), BitVec.toNat_ofNat]; omega
  · rw [decide_eq_false hn, if_neg (by simp), Bool.not_false, if_pos rfl, BitVec.toNat_ofNat]; omega

theorem fRat_fFlip {x : F} (hx : fFinite x = true) : fRat (fFlip x) = -fRat x := by
  rw [fFlip_eq_fPack hx, fRat_fPack_not (finite_bits_lt hx), fPack_self hx]

theorem fFinite_fFlip {x : F} (hx : fFinite x = true) : fFinite (fFlip x) = true := by
  rw [fFlip_eq_fPack hx]
  exact fFinite_fPack (finite_bits_lt hx)

theorem subExact_roundedOnce (a : F) {b : F} (hb : fFinite b = true) : RoundedOnce (fRat a - fRat b) (subExact a b) := by
  rw [sub_eq_add_neg, ← fRat_fFlip hb]
  exact addExact_roundedOnce a (fFlip b)

/-! ### The operations -/

theorem numApply_not_finite (c : Ctx) (op : NumOp) {a b : F} (h : fFinite a = false ∨ fFinite b = false)
    (exact : Option F) : numApply c op a b exact = c.draw := by
  rcases h with h | h <;> simp [numApply, h]

theorem numPow_not_finite (c : Ctx) {x y : F} (h : fFinite x = false ∨ fFinite y = false) : numPow c x y = c.draw := by
  rcases h with h | h <;> simp [numPow, h]

/-- Settles O44: every operation first asks whether its operands are finite. -/
theorem nonFiniteOperandsDraw : Obligations.NonFiniteOperandsDraw := fun c _ _ h =>
  ⟨numApply_not_finite c _ h _, numApply_not_finite c _ h _, numApply_not_finite c _ h _, numApply_not_finite c _ h _,
    numPow_not_finite c h, fun ha => numApply_not_finite c _ (.inl ha) _⟩

theorem numApply_reference {c : Ctx} (hc : c.cfg.num = .reference) (op : NumOp) {a b : F} (ha : fFinite a = true)
    (hb : fFinite b = true) (exact : Option F) : numApply c op a b exact = exact.getD c.draw := by
  rw [numApply, ha, hb, numResult_reference hc]
  rfl

/-- An operation of the reference record whose exact result is rounded once gives the nearest value, or draws on overflow. -/
theorem RoundedOnce.numApply {c : Ctx} (hc : c.cfg.num = .reference) (op : NumOp) {a b : F} (ha : fFinite a = true)
    (hb : fFinite b = true) {q : ℚ} {exact : Option F} (h : RoundedOnce q exact) :
    (¬ Overflows q → NearestEven q (numApply c op a b exact)) ∧ (Overflows q → numApply c op a b exact = c.draw) := by
  rw [numApply_reference hc op ha hb]
  cases hexact : exact with
  | none => exact ⟨fun hno => absurd (h.none_iff.1 hexact) hno, fun _ => rfl⟩
  | some v => exact ⟨fun _ => h.nearest v hexact, fun ho => by cases hexact.symm.trans (h.none_iff.2 ho)⟩

/-- Settles O42: both round their exact result once; a difference is the sum with the sign inverted. -/
theorem addSubRoundOnce : Obligations.AddSubRoundOnce := by
  intro c a b hc ha hb
  obtain ⟨hadd, haddDraw⟩ := (addExact_roundedOnce a b).numApply hc .add ha hb
  obtain ⟨hsub, hsubDraw⟩ := (subExact_roundedOnce a hb).numApply hc .sub ha hb
  exact ⟨hadd, haddDraw, hsub, hsubDraw⟩

/-- Settles O43: both round their exact result once. -/
theorem mulDivRoundOnce : Obligations.MulDivRoundOnce := by
  intro c a b hc ha hb
  obtain ⟨hmul, hmulDraw⟩ := (mulExact_roundedOnce a b).numApply hc .mul ha hb
  have hdiv := fun hb0 : fRat b ≠ 0 => (divExact_roundedOnce a hb0).numApply hc .div ha hb
  exact ⟨hmul, hmulDraw, fun hb0 => (hdiv hb0).1, fun hb0 => (hdiv hb0).2⟩

end Sys2Proof.Machine

/-! Values by name: `pow` outside positive bases, the conversion of naturals, and the order of values (40_numerics.md R71–R73, R75, R78). -/

namespace Sys2Proof.Machine

/-! ### Signs -/

theorem fRat_pos_iff {x : F} : 0 < fRat x ↔ 0 < fVal x := by
  rw [fRat, div_pos_iff_of_pos_right (by positivity), Int.cast_pos]

theorem fRat_lt_iff {x y : F} : fRat x < fRat y ↔ fVal x < fVal y := by
  rw [fRat, fRat, div_lt_div_iff_of_pos_right (by positivity), Int.cast_lt]

theorem fRat_neg_iff {x : F} : fRat x < 0 ↔ fVal x < 0 := by
  rw [fRat, div_lt_iff₀ (by positivity), zero_mul, Int.cast_lt_zero]

theorem fNeg_of_fRat_neg {x : F} (h : fRat x < 0) : fNeg x = true := by
  have hval := fRat_neg_iff.1 h
  unfold fVal at hval
  split at hval
  · assumption
  · omega

theorem fNeg_of_fRat_pos {x : F} (h : 0 < fRat x) : fNeg x = false := by
  have hval := fRat_pos_iff.1 h
  unfold fVal at hval
  split at hval
  · omega
  · exact Bool.eq_false_iff.2 (by assumption)

theorem hasValue_pack_zero (neg : Bool) : HasValue (fPack neg 0) 0 :=
  ⟨fFinite_fPack (by norm_num), by rw [fRat_fPack (by norm_num)]; simp [bitsMag]⟩

/-! ### `pow` of a zero or negative base -/

section
variable (c : Ctx) {x y : F} (hx : fFinite x = true) (hy : fFinite y = true)
include hx hy

theorem numPow_zero_pos (hx0 : fRat x = 0) (hy0 : 0 < fRat y) : numPow c x y = fPack false 0 := by
  simp [numPow, hx, hy, fRat_eq_zero_iff.1 hx0, fRat_pos_iff.1 hy0]

theorem numPow_zero_nonpos (hx0 : fRat x = 0) (hy0 : fRat y ≤ 0) : numPow c x y = c.draw := by
  have hval : ¬ 0 < fVal y := fun h => not_lt.2 hy0 (fRat_pos_iff.2 h)
  simp [numPow, hx, hy, fRat_eq_zero_iff.1 hx0, hval]

theorem numPow_neg (hx0 : fRat x < 0) : numPow c x y = c.draw := by
  have hmag : fMag x ≠ 0 := fun h => hx0.ne (fRat_eq_zero_iff.2 h)
  simp [numPow, hx, hy, hmag, fNeg_of_fRat_neg hx0]

end

/-- Settles O47: the three cases of a base that is not positive. -/
theorem powOutsidePositiveBases : Obligations.PowOutsidePositiveBases := by
  intro c x y hx hy
  refine ⟨fun hx0 hy0 => ?_, numPow_zero_nonpos c hx hy, numPow_neg c hx hy⟩
  rw [numPow_zero_pos c hx hy hx0 hy0]
  exact hasValue_pack_zero false

/-! ### Naturals -/

/-- A natural up to 2^24 scaled by a power of two has bits of its own. -/
theorem exists_bitsMag_eq {n e : ℕ} (hn : n ≤ 2 ^ 24) (he : e ≤ 252) : ∃ b < 0x7F800000, bitsMag b = n * 2 ^ e := by
  induction e generalizing n with
  | zero => exact ⟨0 * 2 ^ 23 + n, by omega, bitsMag_scaled (.inl ⟨rfl, hn⟩)⟩
  | succ e ih =>
    rcases le_or_gt (2 ^ 23) n with hbig | hsmall
    · exact ⟨(e + 1) * 2 ^ 23 + n, by omega, bitsMag_scaled (.inr ⟨hbig, hn⟩)⟩
    · obtain ⟨b, hb, hmag⟩ := ih (n := 2 * n) (by omega) (by omega)
      exact ⟨b, hb, by rw [hmag, pow_succ]; ring⟩

theorem exists_hasValue_scaled {n e : ℕ} (hn : n ≤ 2 ^ 24) (he : e ≤ 252) :
    ∃ z, HasValue z ((n * 2 ^ e : ℕ) / 2 ^ 149) ∧ fMag z = n * 2 ^ e := by
  obtain ⟨b, hb, hmag⟩ := exists_bitsMag_eq hn he
  refine ⟨fPack false b, ⟨fFinite_fPack hb, ?_⟩, ?_⟩
  · rw [fRat_fPack hb, hmag]
    simp
  · rw [fMag_fPack hb, hmag]

theorem natToF_eq_pack (c : Ctx) {n b : ℕ} (hn : n ≤ 2 ^ 24) (h : roundMag (n * 2 ^ 149) 1 = some b) :
    natToF c n = fPack false b := by
  unfold natToF
  rw [if_pos hn, h]

theorem natToF_hasValue (c : Ctx) {n : ℕ} (hn : n ≤ 2 ^ 24) : HasValue (natToF c n) n := by
  obtain ⟨z, hz, hmag⟩ := exists_hasValue_scaled hn (e := 149) (by norm_num)
  obtain ⟨b, hb⟩ := roundMag_isSome_of_le Nat.one_pos hz.1 (by rw [hmag, mul_one])
  have hvalue : (((n * 2 ^ 149 : ℕ) : ℚ)) / 2 ^ 149 = n := by push_cast; norm_num
  have hnear := nearestEven_pack false Nat.one_pos hb
  rw [if_neg Bool.false_ne_true, one_mul, Nat.cast_one, div_one, hvalue] at hnear
  rw [natToF_eq_pack c hn hb]
  exact ⟨hnear.1, hnear.exact hz.1 (hz.2.trans hvalue)⟩

theorem hasValue_half : HasValue 0x3F000000#32 (1 / 2) := ⟨by decide, by decide +kernel⟩

/-- Settles O48: a natural up to 2^24 is a value of the format, and so is `n + 1/2 = (2n + 1)·2^148` units. -/
theorem naturalsConvertExactly : Obligations.NaturalsConvertExactly := by
  intro c n hn
  have hnat := natToF_hasValue c hn
  refine ⟨hnat.1, hnat.2, fun hlt hc c' hc' => ?_⟩
  obtain ⟨z, hz, _⟩ := exists_hasValue_scaled (n := 2 * n + 1) (e := 148) (by omega) (by norm_num)
  have hvalue : (((2 * n + 1) * 2 ^ 148 : ℕ) : ℚ) / 2 ^ 149 = n + 1 / 2 := by push_cast; ring
  exact (numAdd_hasValue (hc' ▸ hc) hnat hasValue_half (hvalue ▸ hz)).2

/-! ### The order of values -/

theorem bitsMag_pos_iff {b : ℕ} : 0 < bitsMag b ↔ 0 < b := by
  rw [show 0 = bitsMag 0 from rfl, bitsMag_strictMono.lt_iff_lt]
  exact Iff.rfl

theorem fKey_eq (x : F) :
    (fKey x : ℤ) = 2 ^ 31 + (if fNeg x then -((x.toNat % 2 ^ 31 : ℕ) : ℤ) else (x.toNat % 2 ^ 31 : ℕ)) := by
  have hlt := x.isLt
  unfold fKey fNeg
  by_cases hn : 2 ^ 31 ≤ x.toNat
  · rw [decide_eq_true hn, if_pos rfl, if_pos rfl]; omega
  · rw [decide_eq_false hn, if_neg (by simp), if_neg (by simp)]; omega

/-- The order of the keys is that of the values: magnitudes grow with their bits, and a sign turns the order. -/
theorem fKey_lt_iff (a b : F) : fKey a < fKey b ↔ fRat a < fRat b := by
  have hmono := bitsMag_strictMono.lt_iff_lt (a := a.toNat % 2 ^ 31) (b := b.toNat % 2 ^ 31)
  have hmono' := bitsMag_strictMono.lt_iff_lt (a := b.toNat % 2 ^ 31) (b := a.toNat % 2 ^ 31)
  have hposa := bitsMag_pos_iff (b := a.toNat % 2 ^ 31)
  have hposb := bitsMag_pos_iff (b := b.toNat % 2 ^ 31)
  rw [← Int.ofNat_lt, fKey_eq, fKey_eq, fRat_lt_iff, fVal, fVal, fMag_eq_bitsMag, fMag_eq_bitsMag]
  generalize a.toNat % 2 ^ 31 = m at *
  generalize b.toNat % 2 ^ 31 = n at *
  split <;> split <;> omega

theorem fLt_iff {a b : F} : fLt a b = true ↔ fRat a < fRat b := by
  rw [fLt, decide_eq_true_iff, fKey_lt_iff]

section
variable (c : Ctx) {a b x : F} (ha : fFinite a = true) (hb : fFinite b = true)

theorem fmax_not_finite (h : fFinite a = false ∨ fFinite b = false) : fmax c a b = c.draw := by
  rcases h with h | h <;> simp [fmax, h]

theorem fmin_not_finite (h : fFinite a = false ∨ fFinite b = false) : fmin c a b = c.draw := by
  rcases h with h | h <;> simp [fmin, h]

theorem fClamp_crossed (h : fRat b < fRat a) : fClamp c x a b = c.draw := by
  simp [fClamp, fLt_iff.2 h]

include ha hb

theorem fmax_finite : fmax c a b = if fRat a < fRat b then b else a := by
  simp [fmax, ha, hb, fLt_iff]

theorem fmin_finite : fmin c a b = if fRat b < fRat a then b else a := by
  simp [fmin, ha, hb, fLt_iff]

theorem fmax_hasValue : HasValue (fmax c a b) (max (fRat a) (fRat b)) := by
  rw [fmax_finite c ha hb]
  split
  · rename_i h; exact ⟨hb, (max_eq_right h.le).symm⟩
  · rename_i h; exact ⟨ha, (max_eq_left (not_lt.1 h)).symm⟩

theorem fmin_hasValue : HasValue (fmin c a b) (min (fRat a) (fRat b)) := by
  rw [fmin_finite c ha hb]
  split
  · rename_i h; exact ⟨hb, (min_eq_right h.le).symm⟩
  · rename_i h; exact ⟨ha, (min_eq_left (not_lt.1 h)).symm⟩

theorem fStep_finite : fStep c a b = if fRat b < fRat a then 0#32 else fOne := by
  simp [fStep, ha, hb, fLt_iff]

theorem fClamp_hasValue (hx : fFinite x = true) (h : fRat a ≤ fRat b) :
    HasValue (fClamp c x a b) (min (max (fRat x) (fRat a)) (fRat b)) := by
  have hlt : fLt b a = false := Bool.eq_false_iff.2 fun hba => not_lt.2 h (fLt_iff.1 hba)
  have hmax := fmax_hasValue (c.nth 1) hx ha
  have hmin := fmin_hasValue (c.nth 0) hmax.1 hb
  rw [hmax.2] at hmin
  simpa [fClamp, hx, ha, hb, hlt] using hmin

end

/-- Settles O49: each function compares keys, which are in the order of the values. -/
theorem orderFunctions : Obligations.OrderFunctions := by
  refine ⟨fun c a b h => ⟨fmax_not_finite c h, fmin_not_finite c h⟩, fun c a b x ha hb hx => ?_⟩
  refine ⟨fmax_finite c ha hb, fmin_finite c ha hb, fun h => (fClamp_hasValue c ha hb hx h).2,
    fClamp_crossed c, ?_⟩
  rw [fStep_finite c ha hx, apply_ite fRat, hasValue_zero.2, hasValue_one.2]

end Sys2Proof.Machine

/-! `pow` of a positive base and `exp`: the exact results of Laws/Power.lean and Laws/Enclosure.lean as the reference record gives them, and the bounds of `exp` where its enclosure does not decide (40_numerics.md R75, R76, R79). -/

namespace Sys2Proof.Machine

/-! ### `pow` of a positive base -/

theorem numPow_pos {c : Ctx} (hc : c.cfg.num = .reference) {x y : F} (hx : fFinite x = true) (hy : fFinite y = true)
    (hpos : 0 < fRat x) : numPow c x y = (powExact x y).getD c.draw := by
  have hmag : fMag x ≠ 0 := (fRat_of_pos hpos).1.ne'
  rw [← numResult_reference hc .pow x y]
  simp [numPow, hx, hy, hmag, fNeg_of_fRat_pos hpos]

/-- Settles O46: the exact power is absent just where it overflows, and is nearest where it is present. -/
theorem powIsNearest : Obligations.PowIsNearest := by
  intro c x y hc hx hy hpos
  obtain ⟨hnone, hnearest⟩ := powExact_spec hpos y
  rw [numPow_pos hc hx hy hpos]
  cases hexact : powExact x y with
  | none => exact ⟨fun hlt => absurd (hnone.1 hexact) (not_le.2 hlt), fun _ => rfl⟩
  | some v => exact ⟨fun _ => hnearest v hexact, fun ho => by cases hexact.symm.trans (hnone.2 ho)⟩

/-! ### The argument of `exp` -/

theorem fixZ_expArg (x : F) : fixZ (expArg x) = (fRat x : ℝ) := by
  rw [fRat_cast, fixZ, expArg, fixOne, fixBits]
  push_cast
  rw [div_eq_div_iff (by positivity) (by positivity)]
  norm_num
  ring

theorem fixZ_lt_iff {a b : ℤ} : fixZ a < fixZ b ↔ a < b := by
  rw [fixZ, fixZ, div_lt_div_iff_of_pos_right fixOne_pos, Int.cast_lt]

theorem expArg_lt_iff {x : F} {n : ℤ} : expArg x < n * (fixOne : ℤ) ↔ fRat x < n := by
  rw [← fixZ_lt_iff, fixZ_expArg, fixZ_mul_fixOne]
  exact_mod_cast Iff.rfl

theorem expArg_le_iff {x : F} {n : ℤ} : expArg x ≤ n * (fixOne : ℤ) ↔ fRat x ≤ n := by
  rw [← not_lt, ← not_lt, ← fixZ_lt_iff, fixZ_expArg, fixZ_mul_fixOne]
  exact_mod_cast Iff.rfl

theorem lt_of_expBetween_eq_none {x : F} (h : expBetween (expArg x) (expArg x) = none) : -105 < fRat x := by
  by_contra hle
  have hlow : expArg x ≤ -105 * (fixOne : ℤ) := expArg_le_iff.2 (by exact_mod_cast not_lt.1 hle)
  have hhigh : expArg x < 89 * (fixOne : ℤ) := expArg_lt_iff.2 (by push_cast; linarith [not_lt.1 hle])
  rw [expBetween, if_neg (not_le.2 hhigh), if_pos hlow] at h
  cases h

/-! ### The bounds up to 88 -/

theorem exp_88_lt : Real.exp 88 < fOverflow := by
  have h : Real.exp 88 ≤ Real.exp (127 * Real.log 2) := Real.exp_le_exp.2 (by linarith [Real.log_two_gt_d9])
  have hpow : Real.exp (127 * Real.log 2) = 2 ^ 127 := by
    rw [mul_comm, Real.exp_mul, Real.exp_log (by norm_num)]
    norm_cast
  refine (h.trans_eq hpow).trans_lt ?_
  unfold fOverflow
  norm_num

theorem taylorHi_succ_le {r : ℕ} (hr : r ≤ fixOne) (terms i : ℕ) :
    taylorHi r (terms + 1) i ≤ fixOne + taylorHi r terms (i + 1) / i + 1 := by
  have hone : 0 < fixOne := Nat.two_pow_pos _
  have hmul : r * taylorHi r terms (i + 1) / (i * fixOne) ≤ taylorHi r terms (i + 1) / i :=
    calc r * taylorHi r terms (i + 1) / (i * fixOne)
        ≤ fixOne * taylorHi r terms (i + 1) / (fixOne * i) := by
          rw [mul_comm i]; exact Nat.div_le_div_right (Nat.mul_le_mul_right _ hr)
      _ = taylorHi r terms (i + 1) / i := Nat.mul_div_mul_left _ _ hone
  rw [taylorHi]
  omega

theorem taylorHi_le_three {r : ℕ} (hr : r ≤ fixOne) (terms : ℕ) : ∀ i, 2 ≤ i → taylorHi r terms i ≤ 3 * fixOne := by
  induction terms with
  | zero => intro i _; exact le_rfl
  | succ terms ih =>
    intro i hi
    have hbig : 2 ≤ fixOne := by decide +kernel
    have hstep := taylorHi_succ_le hr terms i
    have hnext := ih (i + 1) (by omega)
    have hhalf : taylorHi r terms (i + 1) / i ≤ taylorHi r terms (i + 1) / 2 := Nat.div_le_div_left hi (by norm_num)
    omega

/-- The exponential series from 0 to 1, rounded up, stays below 15/4. -/
theorem taylorHi_one_le {r : ℕ} (hr : r ≤ fixOne) (terms : ℕ) : 4 * taylorHi r (terms + 2) 1 ≤ 15 * fixOne := by
  have hbig : 8 ≤ fixOne := by decide +kernel
  have hfirst : taylorHi r (terms + 2) 1 ≤ fixOne + taylorHi r (terms + 1) 2 / 1 + 1 := taylorHi_succ_le hr (terms + 1) 1
  have hsecond : taylorHi r (terms + 1) 2 ≤ fixOne + taylorHi r terms 3 / 2 + 1 := taylorHi_succ_le hr terms 2
  have hrest := taylorHi_le_three hr terms 3 (by norm_num)
  omega

/-- The bound of ln 2 by which an exponent is reduced. -/
def ln2Bound (z : ℤ) : ℤ := if 0 ≤ z then ln2Hi else ln2Lo

theorem ln2Lo_le_ln2Bound (z : ℤ) : (ln2Lo : ℤ) ≤ ln2Bound z := by
  have := ln2_width.1
  unfold ln2Bound
  split <;> omega

theorem ln2Bound_le_ln2Hi (z : ℤ) : ln2Bound z ≤ ln2Hi := by
  have := ln2_width.1
  unfold ln2Bound
  split <;> omega

/-- What `expHiBits` evaluates its series at is at most 1. -/
theorem expHi_remainder_le {z : ℤ} (h1 : -105 * (fixOne : ℤ) ≤ z) (h2 : z ≤ 90 * (fixOne : ℤ)) :
    (z % ln2Bound z).toNat + (z / ln2Bound z).natAbs * (ln2Hi - ln2Lo) ≤ fixOne := by
  have hone : 0 < fixOne := Nat.two_pow_pos _
  have hlo := ln2Lo_le_ln2Bound z
  have hhi := ln2Bound_le_ln2Hi z
  have hge := ln2Lo_ge
  have hle := ln2Hi_le
  have hwidth := ln2_width.2
  have hpos : 0 < ln2Bound z := by omega
  have hquot := (quotient_le (by exact_mod_cast hone) h1 h2 (by omega : 69 * (fixOne : ℤ) ≤ 100 * ln2Bound z)).2
  have hmul := Nat.mul_le_mul_right (ln2Hi - ln2Lo) hquot
  have hrem := Int.emod_lt_of_pos z hpos
  omega

theorem ln2Hi_ge : 693 * fixOne ≤ 1000 * ln2Hi := by decide +kernel

theorem quotient_le_126 {z : ℤ} (h : z ≤ 88 * (fixOne : ℤ)) : z / ln2Bound z ≤ 126 := by
  have hone : 0 < fixOne := Nat.two_pow_pos _
  have hge := ln2Hi_ge
  have hlo := ln2Lo_ge
  have hle := ln2Lo_le_ln2Bound z
  have hpos : 0 < ln2Bound z := by omega
  rw [← Int.lt_add_one_iff, Int.ediv_lt_iff_lt_mul hpos]
  by_cases hz : 0 ≤ z
  · rw [ln2Bound, if_pos hz]
    omega
  · omega

theorem expHiBits_isSome {z : ℤ} (h1 : -105 * (fixOne : ℤ) ≤ z) (h2 : z ≤ 88 * (fixOne : ℤ)) :
    expHiBits z ≠ none := by
  have hone := fixOne_pos
  have h90 : z ≤ 90 * (fixOne : ℤ) := by omega
  have hseries : fixR (taylorHi ((z % ln2Bound z).toNat + (z / ln2Bound z).natAbs * (ln2Hi - ln2Lo)) expTerms 1) ≤ 15 / 4 := by
    rw [fixR, div_le_div_iff₀ hone (by norm_num), mul_comm]
    exact_mod_cast taylorHi_one_le (expHi_remainder_le h1 h90) 58
  have hscale : (2 : ℝ) ^ (z / ln2Bound z) ≤ 2 ^ (126 : ℤ) :=
    zpow_le_zpow_right₀ (by norm_num) (quotient_le_126 h2)
  have hlt : fixR (taylorHi ((z % ln2Bound z).toNat + (z / ln2Bound z).natAbs * (ln2Hi - ln2Lo)) expTerms 1) *
      (2 : ℝ) ^ (z / ln2Bound z) < fOverflow :=
    calc _ ≤ (15 / 4 : ℝ) * 2 ^ (126 : ℤ) := mul_le_mul hseries hscale (by positivity) (by norm_num)
      _ < fOverflow := by unfold fOverflow; norm_num
  exact fun hnone => not_le.2 hlt ((roundScaled_none (quotient_ge h1 h90)).1 hnone)

theorem expLoBits_isSome {z : ℤ} (h1 : -105 * (fixOne : ℤ) ≤ z) (h2 : z ≤ 88 * (fixOne : ℤ)) :
    expLoBits z ≠ none := by
  intro hnone
  have hover := ((roundScaled_none (quotient_ge h1 (by omega))).1 hnone).trans (expLo_le z)
  have hz := fixZ_le h2
  rw [fixZ_mul_fixOne] at hz
  exact absurd (hover.trans (Real.exp_le_exp.2 hz)) (not_le.2 (by exact_mod_cast exp_88_lt))

/-! ### Where the enclosure does not decide -/

theorem roundScaled_lt {m : ℕ} {k : ℤ} {b : ℕ} (h : roundScaled m k = some b) : b < 0x7F800000 :=
  (roundMag_some (Nat.two_pow_pos _) h).2.1

theorem expNear_finite {x : F} (h1 : -105 < fRat x) (h2 : fRat x ≤ 88) : ∃ v, expNear x = some v ∧ fFinite v = true := by
  have hlow : -105 * (fixOne : ℤ) ≤ expArg x := by
    rw [← not_lt, expArg_lt_iff]
    push_cast
    exact not_lt.2 h1.le
  have hhigh : expArg x ≤ 88 * (fixOne : ℤ) := expArg_le_iff.2 (by exact_mod_cast h2)
  have h89 : expArg x < 89 * (fixOne : ℤ) := expArg_lt_iff.2 (by push_cast; linarith)
  obtain ⟨lo, hlo⟩ := Option.ne_none_iff_exists'.1 (expLoBits_isSome hlow hhigh)
  obtain ⟨hi, hhi⟩ := Option.ne_none_iff_exists'.1 (expHiBits_isSome hlow hhigh)
  refine ⟨_, by rw [expNear, if_neg (not_le.2 h89), hlo, hhi], fFinite_fPack ?_⟩
  have hloLt := roundScaled_lt hlo
  have hhiLt := roundScaled_lt hhi
  have hmod : Config.expChoice x % (hi - lo + 1) < hi - lo + 1 := Nat.mod_lt _ (Nat.succ_pos _)
  omega

theorem expHiBits_eq_none {z : ℤ} (h1 : -105 * (fixOne : ℤ) ≤ z) (h2 : z ≤ 90 * (fixOne : ℤ))
    (h : fOverflow ≤ Real.exp (fixZ z)) : expHiBits z = none :=
  (roundScaled_none (quotient_ge h1 h2)).2 (h.trans (le_expHi h1 h2))

theorem expNear_eq_none {x : F} (h : fOverflow ≤ Real.exp (fRat x : ℝ)) : expNear x = none := by
  rw [expNear]
  split
  · rfl
  · rename_i h89
    have hlow : -105 * (fixOne : ℤ) ≤ expArg x := by
      rw [← not_lt, expArg_lt_iff]
      intro hlt
      have hle : (fRat x : ℝ) ≤ -105 := by exact_mod_cast hlt.le
      exact absurd (h.trans (Real.exp_le_exp.2 hle)) (not_le.2 exp_neg_105)
    rw [expHiBits_eq_none hlow (by omega) (fixZ_expArg x ▸ h)]
    cases expLoBits (expArg x) <;> rfl

theorem expBetween_expArg_nearest {x v : F} (h : expBetween (expArg x) (expArg x) = some v) :
    NearestReal (Real.exp (fRat x : ℝ)) v :=
  expBetween_nearest (fixZ_expArg x).le (fixZ_expArg x).ge h

/-- The two ways `exp` is computed: the value the enclosure decides, or one between its bounds. -/
theorem expExact_cases (x : F) :
    (∃ v, expBetween (expArg x) (expArg x) = some v ∧ expExact x = some v) ∨
    (expBetween (expArg x) (expArg x) = none ∧ expExact x = expNear x) := by
  unfold expExact
  cases hbetween : expBetween (expArg x) (expArg x) with
  | none => exact .inr ⟨rfl, rfl⟩
  | some v => exact .inl ⟨v, rfl, rfl⟩

theorem expExact_finite {x : F} (h : fRat x ≤ 88) : ∃ v, expExact x = some v ∧ fFinite v = true := by
  rcases expExact_cases x with ⟨v, hbetween, hexact⟩ | ⟨hbetween, hexact⟩
  · exact ⟨v, hexact, (expBetween_expArg_nearest hbetween).1⟩
  · rw [hexact]
    exact expNear_finite (lt_of_expBetween_eq_none hbetween) h

theorem expExact_eq_none {x : F} (h : fOverflow ≤ Real.exp (fRat x : ℝ)) : expExact x = none := by
  rcases expExact_cases x with ⟨v, hbetween, _⟩ | ⟨_, hexact⟩
  · exact absurd h (not_le.2 (expBetween_lt (fixZ_expArg x).le (fixZ_expArg x).ge hbetween))
  · rw [hexact, expNear_eq_none h]

/-- Settles O45: the decided value, the finite bounds up to 88, and the overflow, each of the exact result. -/
theorem expIsNearest : Obligations.ExpIsNearest := by
  intro c x hc hx
  have hnum : numExp c x = (expExact x).getD c.draw := numApply_reference hc .exp hx hx _
  rw [hnum]
  refine ⟨fun v hbetween => ⟨?_, expBetween_expArg_nearest hbetween⟩, fun h88 => ?_, fun hover => ?_⟩
  · rw [expExact, hbetween]
    rfl
  · obtain ⟨v, hexact, hfinite⟩ := expExact_finite h88
    rw [hexact]
    exact hfinite
  · rw [expExact_eq_none hover]
    rfl

end Sys2Proof.Machine

/-! The fields of a descriptor as shifts and masks, and the word as a disjunction of shifted fields (41_decoder.md R81, R82). -/

namespace Sys2Proof

/-- Fields that fit their widths are shifted together without reaching past bit 31. -/
theorem encodeFields_toNat_or {t : Fields} (h : t.Fit) :
    (encodeFields t).toNat = t.mode <<< 28 ||| t.lod <<< 21 ||| t.input <<< 14 ||| t.output <<< 7 ||| t.bloom := by
  obtain ⟨hmode, hlod, hinput, houtput, hbloom⟩ := h
  rw [encodeFields, BitVec.toNat_ofNat, Nat.mod_eq_of_lt]
  refine Nat.or_lt_two_pow (Nat.or_lt_two_pow (Nat.or_lt_two_pow (Nat.or_lt_two_pow ?_ ?_) ?_) ?_)
    (hbloom.trans (by decide))
  all_goals rw [Nat.shiftLeft_eq]; omega

/-- Settles O1: a word is made of its fields, and fields that fit make a word that gives them back. -/
theorem fieldsRoundTrip : Obligations.FieldsRoundTrip := by
  refine ⟨encodeFields_decodeFields, fun t hmode hlod hinput houtput hbloom => ?_⟩
  have hfit : t.Fit := ⟨hmode, hlod, hinput, houtput, hbloom⟩
  exact ⟨encodeFields_toNat_or hfit, decodeFields_encodeFields hfit⟩

/-- A bit field is the word shifted down to it, under a mask of its width. -/
theorem bitField_eq_mask (w : Word) (lo : Nat) {width : Nat} (h : width ≤ 32) :
    bitField w lo width = (w >>> lo &&& BitVec.ofNat 32 (2 ^ width - 1)).toNat := by
  have hmask : 2 ^ width - 1 < 2 ^ 32 :=
    (Nat.sub_one_lt (Nat.two_pow_pos width).ne').trans_le (Nat.pow_le_pow_right two_pos h)
  rw [BitVec.toNat_and, BitVec.toNat_ushiftRight, BitVec.toNat_ofNat, Nat.mod_eq_of_lt hmask,
    Nat.and_two_pow_sub_one_eq_mod, Nat.shiftRight_eq_div_pow, bitField]

/-- Settles O3: each field is a bit field, the last one shifted by nothing. -/
theorem decodeByShiftsAndMasks : Obligations.DecodeByShiftsAndMasks := by
  intro w
  have hbloom := bitField_eq_mask w 0 (width := 7) (by decide)
  rw [BitVec.ushiftRight_zero] at hbloom
  rw [decodeFields, bitField_eq_mask w 28 (by decide), bitField_eq_mask w 21 (by decide),
    bitField_eq_mask w 14 (by decide), bitField_eq_mask w 7 (by decide), hbloom]
  rfl

end Sys2Proof

/-! A dispatch over a grid with no column or no row (41_decoder.md R84). -/

namespace Sys2Proof.Machine

theorem gridPoints_eq_nil {gx gy : Nat} (h : gx = 0 ∨ gy = 0) : gridPoints gx gy = [] := by
  obtain rfl | rfl := h
  · exact gridPoints_empty_x gy
  · exact gridPoints_empty_y gx

/-- A grid with no positions raises no fault and makes no store. -/
theorem runGrid_of_empty (p : Pass) {s : State} (h : gridPoints s.gridX s.gridY = []) :
    runGrid p s = finishDispatch s.texels s := by
  obtain ⟨_, hrun⟩ | ⟨_, ⟨q, hq, _⟩, _⟩ := runGrid_cases p s
  · rw [hrun, gridResults, h]
    rfl
  · rw [h] at hq
    cases hq

/-- Settles O31: the checks pass, so the grid runs, and it has no positions. -/
theorem emptyGridWritesNothing : Obligations.EmptyGridWritesNothing := by
  intro i s src blm target ha hslots hchecks hempty
  have hgrid : gridPoints (startDispatch (encode i) s).gridX (startDispatch (encode i) s).gridY = [] :=
    gridPoints_eq_nil hempty
  have hexec := exec_resolved ha hslots
  rw [runPass_of_checksPass (hchecks.startDispatch _), runGrid_of_empty _ hgrid] at hexec
  exact ⟨_, hexec, by simp, by simp, by simp⟩

end Sys2Proof.Machine

/-! The sample position of an invocation (41_decoder.md R85, 40_numerics.md R78). -/

namespace Sys2Proof.Machine

/-- A rational not past 2^24 either way is far from overflow. -/
theorem not_overflows_of_abs_le {q : ℚ} (h : |q| ≤ 2 ^ 24) : ¬ Overflows q := by
  have hfar : (2 : ℚ) ^ 24 < 2 ^ 128 - 2 ^ 103 := by norm_num
  exact not_le.2 (h.trans_lt hfar)

theorem abs_half_le {n : ℕ} (hn : n < 2 ^ 23) : |(n : ℚ) + 1 / 2| ≤ 2 ^ 24 := by
  have hcast : (n : ℚ) < 2 ^ 23 := by exact_mod_cast hn
  rw [abs_of_nonneg (by positivity)]
  linarith

/-- The middle of a pixel is exact (40_numerics.md R78). -/
theorem numAdd_half_hasValue {c c' : Ctx} (hc : c.cfg.num = .reference) (hc' : c'.cfg = c.cfg) {n : ℕ} (hn : n < 2 ^ 23) :
    HasValue (numAdd c' (natToF c n) 0x3F000000#32) (n + 1 / 2) := by
  obtain ⟨hfinite, hnat, hsum⟩ := naturalsConvertExactly c n (by omega)
  obtain ⟨hround, _⟩ := addSubRoundOnce c' _ 0x3F000000#32 (hc' ▸ hc) hfinite hasValue_half.1
  rw [hnat, hasValue_half.2] at hround
  exact ⟨(hround (not_overflows_of_abs_le (abs_half_le hn))).1, hsum hn hc c' hc'⟩

/-- A coordinate of the sample position: its operands are exact, so the division alone rounds. -/
theorem centre_nearest {c : Ctx} (hc : c.cfg.num = .reference) {n size : ℕ} (hn : n < 2 ^ 23) (hpos : 0 < size)
    (hsize : size ≤ 2 ^ 24) : NearestEven (((n : ℚ) + 1 / 2) / size) (centre c n size) := by
  obtain ⟨hmidFinite, hmid⟩ := numAdd_half_hasValue (c := c.nth 2) (c' := c.nth 1) hc rfl hn
  obtain ⟨hsizeFinite, hsizeValue⟩ := natToF_hasValue (c.nth 3) hsize
  obtain ⟨_, _, hround, _⟩ := mulDivRoundOnce (c.nth 0) _ _ hc hmidFinite hsizeFinite
  rw [hmid, hsizeValue] at hround
  have hone : (1 : ℚ) ≤ size := by exact_mod_cast hpos
  have hquotient : |((n : ℚ) + 1 / 2) / size| ≤ 2 ^ 24 := by
    rw [abs_div, Nat.abs_cast]
    exact (div_le_self (abs_nonneg _) hone).trans (abs_half_le hn)
  rw [centre, evaluated_reference (c := c.nth 4) hc]
  exact hround (by positivity) (not_overflows_of_abs_le hquotient)

/-- Settles O41: both coordinates are centres over the target's size. -/
theorem samplePositionIsPixelCentre : Obligations.SamplePositionIsPixelCentre := by
  intro s target x y hnum hw hwMax hh hhMax hx hy
  exact ⟨centre_nearest hnum hx hw hwMax, centre_nearest hnum hy hh hhMax⟩

end Sys2Proof.Machine

/-! The threshold curve and the prefilter stage by stage: the rise above the knee start, the quadratic piece, the scale factor, the channels (42_threshold.md R90–R95). -/

namespace Sys2Proof.Machine

/-! ### How far a rounding can go -/

theorem not_overflows_fRat {z : F} (hz : fFinite z = true) : ¬ Overflows (fRat z) := by
  obtain ⟨b, hb⟩ := roundMag_isSome_of_le Nat.one_pos hz (mul_one (fMag z)).ge
  have habs : |fRat z| = (fMag z : ℚ) / (1 : ℕ) / 2 ^ 149 := by rw [abs_fRat, Nat.cast_one, div_one]
  rw [← roundMag_eq_none_iff Nat.one_pos habs, hb]
  exact Option.some_ne_none b

/-- What a finite value bounds in magnitude does not overflow. -/
theorem not_overflows_of_abs_le_fRat {q : ℚ} {z : F} (hz : fFinite z = true) (h : |q| ≤ fRat z) : ¬ Overflows q :=
  fun ho => not_overflows_fRat hz (ho.trans (h.trans (le_abs_self _)))

theorem not_overflows_of_abs_le_two_pow {q : ℚ} {n : ℕ} (hn : n ≤ 127) (h : |q| ≤ 2 ^ n) : ¬ Overflows q := by
  have hfar : (2 : ℚ) ^ 127 < 2 ^ 128 - 2 ^ 103 := by norm_num
  exact not_le.2 ((h.trans (pow_le_pow_right₀ one_le_two hn)).trans_lt hfar)

theorem fRat_lt_two_pow {z : F} (hz : fFinite z = true) : fRat z < 2 ^ 128 := by
  have hlt := not_le.1 (not_overflows_fRat hz)
  have hgreatest : (2 : ℚ) ^ 128 - 2 ^ 103 < 2 ^ 128 := by norm_num
  exact (le_abs_self _).trans_lt (hlt.trans hgreatest)

theorem NearestEven.nonneg {q : ℚ} {v : F} (h : NearestEven q v) (hq : 0 ≤ q) : 0 ≤ fRat v :=
  hasValue_zero.2.symm.trans_le (h.ge_of_ge hasValue_zero.1 (hasValue_zero.2.trans_le hq))

theorem NearestEven.nonpos {q : ℚ} {v : F} (h : NearestEven q v) (hq : q ≤ 0) : fRat v ≤ 0 :=
  (h.le_of_le hasValue_zero.1 (hq.trans_eq hasValue_zero.2.symm)).trans_eq hasValue_zero.2

/-- A power of two up to 2^103 is a value of the format, so no rounding passes it in magnitude. -/
theorem NearestEven.abs_le_two_pow {q : ℚ} {v : F} {n : ℕ} (h : NearestEven q v) (hn : n ≤ 103) (hq : |q| ≤ 2 ^ n) :
    |fRat v| ≤ 2 ^ n := by
  obtain ⟨z, ⟨hz, hvalue⟩, _⟩ := exists_hasValue_scaled (n := 1) (e := n + 149) (by norm_num) (by omega)
  have htwo : fRat z = 2 ^ n := by
    rw [hvalue, one_mul, pow_add, Nat.cast_mul, Nat.cast_pow, Nat.cast_pow]
    exact mul_div_cancel_right₀ _ (by positivity)
  obtain ⟨hlow, hhigh⟩ := abs_le.1 hq
  have hflip := fRat_fFlip hz
  rw [htwo] at hflip
  exact abs_le.2 ⟨hflip ▸ h.ge_of_ge (fFinite_fFlip hz) (hflip ▸ hlow), htwo ▸ h.le_of_le hz (htwo ▸ hhigh)⟩

/-- A rational that is not negative is a quotient of naturals in units of 2^-149, the form `roundMag` rounds. -/
theorem exists_eq_quotient {q : ℚ} (hq : 0 ≤ q) : ∃ n d : ℕ, 0 < d ∧ q = (n : ℚ) / d / 2 ^ 149 := by
  refine ⟨q.num.natAbs * 2 ^ 149, q.den, q.den_pos, ?_⟩
  have hnum : ((q.num.natAbs : ℕ) : ℚ) = q.num := by
    rw [Nat.cast_natAbs, abs_of_nonneg (Rat.num_nonneg.2 hq)]
  rw [Nat.cast_mul, Nat.cast_pow, hnum, mul_div_right_comm, Rat.num_div_den]
  exact (mul_div_cancel_right₀ q (by positivity)).symm

/-- `roundMag_error` as a distance of values. -/
theorem abs_fRat_fPack_sub_le {n d b : ℕ} (hd : 0 < d) (h : roundMag n d = some b) :
    |fRat (fPack false b) - (n : ℚ) / d / 2 ^ 149| ≤ (n : ℚ) / d / 2 ^ 149 / 2 ^ 24 + 1 / 2 ^ 150 := by
  have hdq : (0 : ℚ) < d := by exact_mod_cast hd
  have herror : (2 : ℚ) ^ 24 * |(bitsMag b : ℚ) * d - n| ≤ n + 2 ^ 23 * d := by
    have := (roundMag_error hd h).trans (max_le_add_of_nonneg (by positivity) (by positivity))
    exact_mod_cast this
  have hdist : fRat (fPack false b) - (n : ℚ) / d / 2 ^ 149 = ((bitsMag b : ℚ) * d - n) / (d * 2 ^ 149) := by
    obtain ⟨_, hb, _⟩ := roundMag_some hd h
    rw [fRat_fPack hb, if_neg Bool.false_ne_true]
    field_simp
  rw [hdist, abs_div, abs_of_pos (by positivity : (0 : ℚ) < d * 2 ^ 149), div_le_iff₀ (by positivity)]
  field_simp
  linarith

/-- How far up a rounding goes: at most half a unit in the 24th significant place and half the least value; past the greatest value it goes down. -/
theorem NearestEven.le_add_error {q : ℚ} {v : F} (h : NearestEven q v) (hq : 0 ≤ q) :
    fRat v ≤ q + q / 2 ^ 24 + 1 / 2 ^ 150 := by
  obtain ⟨n, d, hd, hquot⟩ := exists_eq_quotient hq
  cases hround : roundMag n d with
  | none =>
    have hover := (roundMag_eq_none_iff hd (by rw [abs_of_nonneg hq, hquot])).1 hround
    have hfin := not_le.1 (not_overflows_fRat h.1)
    rw [Overflows, abs_of_nonneg hq] at hover
    linarith [le_abs_self (fRat v)]
  | some b =>
    obtain ⟨_, hb, _⟩ := roundMag_some hd hround
    obtain ⟨hnear, _⟩ := h.2 (fPack false b) (fFinite_fPack hb)
    have herror := abs_fRat_fPack_sub_le hd hround
    rw [← hquot] at herror
    linarith [le_abs_self (fRat v - q)]

/-! ### The operations where nothing overflows -/

section
variable {c : Ctx} (hc : c.cfg.num = .reference) {a b : F} (ha : fFinite a = true) (hb : fFinite b = true)
include hc ha hb

theorem numSub_nearest (h : ¬ Overflows (fRat a - fRat b)) : NearestEven (fRat a - fRat b) (numSub c a b) :=
  ((subExact_roundedOnce a hb).numApply hc .sub ha hb).1 h

theorem numMul_nearest (h : ¬ Overflows (fRat a * fRat b)) : NearestEven (fRat a * fRat b) (numMul c a b) :=
  ((mulExact_roundedOnce a b).numApply hc .mul ha hb).1 h

theorem numDiv_nearest (hb0 : fRat b ≠ 0) (h : ¬ Overflows (fRat a / fRat b)) :
    NearestEven (fRat a / fRat b) (numDiv c a b) :=
  ((divExact_roundedOnce a hb0).numApply hc .div ha hb).1 h

theorem numMul_zero (h : fRat a * fRat b = 0) : HasValue (numMul c a b) 0 :=
  h ▸ numMul_hasValue hc ⟨ha, rfl⟩ ⟨hb, rfl⟩ (h ▸ hasValue_zero)

end

/-! ### The stages of the curve -/

/-- `rq` of R90 before it is squared: the rise of a brightness above the knee start, between 0 and `curve.y`. -/
def kneeRise (c : Ctx) (br : F) (curve : F3) : F :=
  fClamp (c.nth 0) (numSub (c.nth 1) br curve.r) 0#32 curve.g

/-- `rq` of R90 once it is squared and scaled: the quadratic piece of the numerator. -/
def kneePiece (c : Ctx) (br : F) (curve : F3) : F :=
  numMul (c.nth 2) (numMul (c.nth 3) (kneeRise c br curve) (kneeRise c br curve)) curve.b

theorem thresholdScale_eq (c : Ctx) (br t : F) (curve : F3) :
    thresholdScale c br t curve =
      numDiv (c.nth 6) (fmax (c.nth 4) (kneePiece c br curve) (numSub (c.nth 5) br t)) (fmax (c.nth 7) br cEps) := rfl

theorem cEps_ge : 1 / 2 ^ 14 ≤ fRat cEps := by decide +kernel

/-- The denominator of the scale factor (R95). -/
theorem scaleFloor_hasValue (c : Ctx) {br : F} (hbr : fFinite br = true) :
    HasValue (fmax c br cEps) (max (fRat br) (fRat cEps)) :=
  fmax_hasValue c hbr (by decide)

theorem scaleFloor_ge (br : F) : 1 / 2 ^ 14 ≤ max (fRat br) (fRat cEps) := le_max_of_le_right cEps_ge

theorem scaleFloor_pos (br : F) : 0 < max (fRat br) (fRat cEps) := lt_of_lt_of_le (by positivity) (scaleFloor_ge br)

theorem brightness_hasValue (c : Ctx) {k : F3} (hr : fFinite k.r = true) (hg : fFinite k.g = true)
    (hb : fFinite k.b = true) : HasValue (brightness c k) (max (max (fRat k.r) (fRat k.g)) (fRat k.b)) := by
  have hrg := fmax_hasValue (c.nth 1) hr hg
  exact hrg.2 ▸ fmax_hasValue (c.nth 0) hrg.1 hb

/-- A threshold and a curve whose parameters are finite, with a knee width that is not negative. -/
structure CurveReady (t : F) (curve : F3) : Prop where
  threshold : fFinite t = true
  start : fFinite curve.r = true
  width : fFinite curve.g = true
  factor : fFinite curve.b = true
  width_nonneg : 0 ≤ fRat curve.g

section
variable {c : Ctx} (hc : c.cfg.num = .reference) {br t : F} {curve : F3} (hcurve : CurveReady t curve)
include hc hcurve

section
variable (hbr : fFinite br = true) (hrise : ¬ Overflows (fRat br - fRat curve.r))
include hbr hrise

theorem kneeRise_hasValue :
    ∃ d, NearestEven (fRat br - fRat curve.r) d ∧
      HasValue (kneeRise c br curve) (min (max (fRat d) 0) (fRat curve.g)) := by
  have hd := numSub_nearest (c := c.nth 1) hc hbr hcurve.start hrise
  have hclamp := fClamp_hasValue (c.nth 0) hasValue_zero.1 hcurve.width hd.1
    (hasValue_zero.2.trans_le hcurve.width_nonneg)
  rw [hasValue_zero.2] at hclamp
  exact ⟨_, hd, hclamp⟩

theorem kneeRise_bounds :
    fFinite (kneeRise c br curve) = true ∧ 0 ≤ fRat (kneeRise c br curve) ∧
      fRat (kneeRise c br curve) ≤ fRat curve.g := by
  obtain ⟨d, _, hfinite, hvalue⟩ := kneeRise_hasValue hc hcurve hbr hrise
  rw [hvalue]
  exact ⟨hfinite, le_min (le_max_right _ _) hcurve.width_nonneg, min_le_right _ _⟩

/-- The rise does not pass a value that the exact rise does not pass. -/
theorem kneeRise_le {b : F} (hb : fFinite b = true) (hb0 : 0 ≤ fRat b) (hle : fRat br - fRat curve.r ≤ fRat b) :
    fRat (kneeRise c br curve) ≤ fRat b := by
  obtain ⟨d, hd, _, hvalue⟩ := kneeRise_hasValue hc hcurve hbr hrise
  rw [hvalue]
  exact (min_le_left _ _).trans (max_le (hd.le_of_le hb hle) hb0)

end

theorem kneePiece_nearest (hrise : fFinite (kneeRise c br curve) = true)
    (hsquare : ¬ Overflows (fRat (kneeRise c br curve) * fRat (kneeRise c br curve))) :
    ∃ p, NearestEven (fRat (kneeRise c br curve) * fRat (kneeRise c br curve)) p ∧
      (¬ Overflows (fRat p * fRat curve.b) → NearestEven (fRat p * fRat curve.b) (kneePiece c br curve)) := by
  have hp := numMul_nearest (c := c.nth 3) hc hrise hrise hsquare
  exact ⟨_, hp, numMul_nearest (c := c.nth 2) hc hp.1 hcurve.factor⟩

theorem thresholdScale_nearest (hbr : fFinite br = true) (hpiece : fFinite (kneePiece c br curve) = true)
    (hover : ¬ Overflows (fRat br - fRat t)) :
    ∃ s, NearestEven (fRat br - fRat t) s ∧
      (¬ Overflows (max (fRat (kneePiece c br curve)) (fRat s) / max (fRat br) (fRat cEps)) →
        NearestEven (max (fRat (kneePiece c br curve)) (fRat s) / max (fRat br) (fRat cEps))
          (thresholdScale c br t curve)) := by
  have hs := numSub_nearest (c := c.nth 5) hc hbr hcurve.threshold hover
  obtain ⟨hnum, hnumValue⟩ := fmax_hasValue (c.nth 4) hpiece hs.1
  obtain ⟨hden, hdenValue⟩ := scaleFloor_hasValue (c.nth 7) hbr
  refine ⟨_, hs, ?_⟩
  rw [thresholdScale_eq, ← hnumValue, ← hdenValue]
  exact numDiv_nearest (c := c.nth 6) hc hnum hden (hdenValue ▸ (scaleFloor_pos br).ne')

/-- Up to the threshold the linear piece is not positive, so the scale factor is the quadratic piece over the floor. -/
theorem thresholdScale_nearest_of_le (hbr : fFinite br = true) (hbr0 : 0 ≤ fRat br) (hle : fRat br ≤ fRat t)
    (hpiece : fFinite (kneePiece c br curve) = true) (hpiece0 : 0 ≤ fRat (kneePiece c br curve))
    (hpieceLe : fRat (kneePiece c br curve) ≤ max (fRat br) (fRat cEps)) :
    NearestEven (fRat (kneePiece c br curve) / max (fRat br) (fRat cEps)) (thresholdScale c br t curve) := by
  have hpos := scaleFloor_pos br
  have hover := not_overflows_of_abs_le_fRat hcurve.threshold
    (abs_sub_le_of_nonneg_of_le hbr0 hle (hbr0.trans hle) le_rfl)
  obtain ⟨s, hs, hscale⟩ := thresholdScale_nearest hc hcurve hbr hpiece hover
  have hs0 := hs.nonpos (sub_nonpos.2 hle)
  rw [max_eq_left (hs0.trans hpiece0)] at hscale
  refine hscale (not_overflows_of_abs_le_two_pow (n := 0) (by norm_num) ?_)
  rw [abs_of_nonneg (div_nonneg hpiece0 hpos.le), pow_zero]
  exact div_le_one_of_le₀ hpieceLe hpos.le

end

/-! ### The channels -/

theorem thresholdChannel_zero {c : Ctx} (hc : c.cfg.num = .reference) {v scale : F} (br t : F) (curve : F3)
    (hv : fFinite v = true) (hscale : fFinite scale = true) (h : fRat v * fRat scale = 0) :
    fRat (thresholdChannel c v br scale t curve) = 0 := by
  rw [thresholdChannel, evaluated_reference (c := c.nth 0) hc]
  exact (numMul_zero (c := c.nth 1) hc hv hscale h).2

/-- The curve gives zero in every channel whose product with the scale factor is zero. -/
theorem quadraticThreshold_zero {c : Ctx} (hc : c.cfg.num = .reference) {k : F3} {t : F} {curve : F3}
    (hr : fFinite k.r = true) (hg : fFinite k.g = true) (hb : fFinite k.b = true) {s : F}
    (hs : thresholdScale (c.nth 1) (brightness (c.nth 2) k) t curve = s) (hsFinite : fFinite s = true)
    (hr0 : fRat k.r * fRat s = 0) (hg0 : fRat k.g * fRat s = 0) (hb0 : fRat k.b * fRat s = 0) :
    fRat (quadraticThreshold c k t curve).r = 0 ∧ fRat (quadraticThreshold c k t curve).g = 0 ∧
      fRat (quadraticThreshold c k t curve).b = 0 := by
  subst hs
  exact ⟨thresholdChannel_zero (c := c.nth 3) hc _ t curve hr hsFinite hr0,
    thresholdChannel_zero (c := c.nth 4) hc _ t curve hg hsFinite hg0,
    thresholdChannel_zero (c := c.nth 5) hc _ t curve hb hsFinite hb0⟩

/-! ### Below the knee start -/

/-- At or below the knee start nothing rises, so the scale factor is zero (R92). -/
theorem thresholdScale_zero_of_le_kneeStart {c : Ctx} (hc : c.cfg.num = .reference) {br t : F} {curve : F3}
    (hcurve : CurveReady t curve) (hbr : fFinite br = true) (hstart : fRat curve.r ≤ fRat t) (hbr0 : 0 ≤ fRat br)
    (hle : fRat br ≤ fRat curve.r) : HasValue (thresholdScale c br t curve) 0 := by
  have hover := not_overflows_of_abs_le_fRat hcurve.start
    (abs_sub_le_of_nonneg_of_le hbr0 hle (hbr0.trans hle) le_rfl)
  obtain ⟨hfinite, hrise0, _⟩ := kneeRise_bounds hc hcurve hbr hover
  have hriseLe := kneeRise_le hc hcurve hbr hover hasValue_zero.1 hasValue_zero.2.ge
    ((sub_nonpos.2 hle).trans_eq hasValue_zero.2.symm)
  have hrise : fRat (kneeRise c br curve) = 0 := le_antisymm (hriseLe.trans_eq hasValue_zero.2) hrise0
  have hsquare := numMul_zero (c := c.nth 3) hc hfinite hfinite (by rw [hrise, zero_mul])
  have hpiece : HasValue (kneePiece c br curve) 0 :=
    numMul_zero (c := c.nth 2) hc hsquare.1 hcurve.factor (by rw [hsquare.2, zero_mul])
  have hscale := thresholdScale_nearest_of_le hc hcurve hbr hbr0 (hle.trans hstart) hpiece.1 hpiece.2.ge
    (hpiece.2.trans_le (le_max_of_le_left hbr0))
  rw [hpiece.2, zero_div] at hscale
  exact ⟨hscale.1, hscale.exact hasValue_zero.1 hasValue_zero.2⟩

/-- Settles O50: the scale factor is zero, and so is its product with any channel. -/
theorem belowKneeIsBlack : Obligations.BelowKneeIsBlack := by
  intro c k t x y z hc hr hg hb ht hx hy hz hstart hy0 hbr0 hle
  obtain ⟨hbr, hvalue⟩ := brightness_hasValue (c.nth 2) hr hg hb
  rw [← hvalue] at hbr0 hle
  have hcurve : CurveReady t ⟨x, y, z⟩ := ⟨ht, hx, hy, hz, hy0⟩
  obtain ⟨hfinite, hzero⟩ := thresholdScale_zero_of_le_kneeStart (c := c.nth 1) hc hcurve hbr hstart hbr0 hle
  exact quadraticThreshold_zero hc hr hg hb rfl hfinite (by rw [hzero, mul_zero]) (by rw [hzero, mul_zero])
    (by rw [hzero, mul_zero])

/-! ### Black -/

/-- A rise and a factor up to 2^30 give a quadratic piece up to 2^90. -/
theorem kneePiece_abs_le {c : Ctx} (hc : c.cfg.num = .reference) {br t : F} {curve : F3}
    (hcurve : CurveReady t curve) (hrise : fFinite (kneeRise c br curve) = true)
    (hriseLe : |fRat (kneeRise c br curve)| ≤ 2 ^ 30) (hzLe : |fRat curve.b| ≤ 2 ^ 30) :
    fFinite (kneePiece c br curve) = true ∧ |fRat (kneePiece c br curve)| ≤ 2 ^ 90 := by
  have hsquare : |fRat (kneeRise c br curve) * fRat (kneeRise c br curve)| ≤ 2 ^ 60 := by
    rw [abs_mul]
    exact (mul_le_mul hriseLe hriseLe (abs_nonneg _) (by positivity)).trans_eq (by norm_num)
  obtain ⟨p, hp, hpiece⟩ := kneePiece_nearest hc hcurve hrise (not_overflows_of_abs_le_two_pow (by norm_num) hsquare)
  have hscaled : |fRat p * fRat curve.b| ≤ 2 ^ 90 := by
    rw [abs_mul]
    exact (mul_le_mul (hp.abs_le_two_pow (by norm_num) hsquare) hzLe (abs_nonneg _) (by positivity)).trans_eq
      (by norm_num)
  have hnear := hpiece (not_overflows_of_abs_le_two_pow (by norm_num) hscaled)
  exact ⟨hnear.1, hnear.abs_le_two_pow (by norm_num) hscaled⟩

/-- At brightness zero and parameters up to 2^30 no stage overflows (R93). -/
theorem thresholdScale_finite_of_black {c : Ctx} (hc : c.cfg.num = .reference) {br t : F} {curve : F3}
    (hbr : HasValue br 0) (hcurve : CurveReady t curve) (htLe : |fRat t| ≤ 2 ^ 30) (hxLe : |fRat curve.r| ≤ 2 ^ 30)
    (hyLe : |fRat curve.g| ≤ 2 ^ 30) (hzLe : |fRat curve.b| ≤ 2 ^ 30) :
    fFinite (thresholdScale c br t curve) = true := by
  have hdiff : ∀ v : F, |fRat v| ≤ 2 ^ 30 → |fRat br - fRat v| ≤ 2 ^ 30 := fun v hv => by
    rwa [hbr.2, zero_sub, abs_neg]
  obtain ⟨hrise, hrise0, hriseLe⟩ := kneeRise_bounds hc hcurve hbr.1
    (not_overflows_of_abs_le_two_pow (by norm_num) (hdiff _ hxLe))
  obtain ⟨hpiece, hpieceLe⟩ := kneePiece_abs_le hc hcurve hrise
    ((abs_of_nonneg hrise0).trans_le (hriseLe.trans ((le_abs_self _).trans hyLe))) hzLe
  obtain ⟨s, hs, hscale⟩ := thresholdScale_nearest hc hcurve hbr.1 hpiece
    (not_overflows_of_abs_le_two_pow (by norm_num) (hdiff _ htLe))
  have hsLe : |fRat s| ≤ 2 ^ 90 := (hs.abs_le_two_pow (by norm_num) (hdiff _ htLe)).trans (by norm_num)
  refine (hscale (not_overflows_of_abs_le_two_pow (n := 104) (by norm_num) ?_)).1
  have hfloor := scaleFloor_ge br
  rw [abs_div, abs_of_pos (scaleFloor_pos br), div_le_iff₀ (scaleFloor_pos br)]
  calc |max (fRat (kneePiece c br curve)) (fRat s)| ≤ 2 ^ 90 := abs_max_le_max_abs_abs.trans (max_le hpieceLe hsLe)
    _ = 2 ^ 104 * (1 / 2 ^ 14) := by norm_num
    _ ≤ 2 ^ 104 * max (fRat br) (fRat cEps) := by gcongr

/-- Settles O51: the scale factor is finite, and zero times a finite value is zero. -/
theorem blackStaysBlack : Obligations.BlackStaysBlack := by
  intro c k t x y z hc hr hg hb hr0 hg0 hb0 hparams hy0
  simp only [List.forall_mem_cons] at hparams
  obtain ⟨⟨ht, htLe⟩, ⟨hx, hxLe⟩, ⟨hy, hyLe⟩, ⟨hz, hzLe⟩, _⟩ := hparams
  have hbr := brightness_hasValue (c.nth 2) hr hg hb
  rw [hr0, hg0, hb0, max_self, max_self] at hbr
  have hcurve : CurveReady t ⟨x, y, z⟩ := ⟨ht, hx, hy, hz, hy0⟩
  have hfinite := thresholdScale_finite_of_black (c := c.nth 1) hc hbr hcurve htLe hxLe hyLe hzLe
  exact quadraticThreshold_zero hc hr hg hb rfl hfinite (by rw [hr0, zero_mul]) (by rw [hg0, zero_mul])
    (by rw [hb0, zero_mul])

/-! ### Up to the threshold -/

/-- The curve parameters that the host derives from a threshold and a knee (10_state.md R19), each rounded once. -/
structure KneeCurve (t k : F) (curve : F3) : Prop where
  start : NearestEven (fRat t - fRat k) curve.r
  width : NearestEven (2 * fRat k) curve.g
  factor : NearestEven (1 / 4 / fRat k) curve.b

section
variable {t k : F} {curve : F3} (hcurve : KneeCurve t k curve) (hk0 : 0 < fRat k)
include hcurve

theorem KneeCurve.start_bounds (ht : fFinite t = true) (hk0 : 0 < fRat k) (hkt : fRat k ≤ fRat t) :
    0 ≤ fRat curve.r ∧ fRat curve.r ≤ fRat t :=
  ⟨hcurve.start.nonneg (sub_nonneg.2 hkt), hcurve.start.le_of_le ht (by linarith)⟩

include hk0

theorem KneeCurve.width_nonneg : 0 ≤ fRat curve.g :=
  hcurve.width.nonneg (by positivity)

theorem KneeCurve.ready (ht : fFinite t = true) : CurveReady t curve :=
  ⟨ht, hcurve.start.1, hcurve.width.1, hcurve.factor.1, hcurve.width_nonneg hk0⟩

/-- The knee is a candidate at distance `k` from `2k`. -/
theorem KneeCurve.width_le (hk : fFinite k = true) : fRat curve.g ≤ 3 * fRat k := by
  obtain ⟨hnear, _⟩ := hcurve.width.2 k hk
  rw [abs_of_nonpos (by linarith : fRat k - 2 * fRat k ≤ 0)] at hnear
  linarith [le_abs_self (fRat curve.g - 2 * fRat k)]

theorem KneeCurve.factor_nonneg : 0 ≤ fRat curve.b :=
  hcurve.factor.nonneg (by positivity)

/-- The rounded factor times the knee is a quarter, up to the rounding. -/
theorem KneeCurve.factor_mul_le (hkLe : fRat k ≤ 2 ^ 60) : fRat curve.b * fRat k ≤ 13 / 50 := by
  have hround := hcurve.factor.le_add_error (by positivity)
  calc fRat curve.b * fRat k
      ≤ (1 / 4 / fRat k + 1 / 4 / fRat k / 2 ^ 24 + 1 / 2 ^ 150) * fRat k := by gcongr
    _ = 1 / 4 + 1 / 4 / 2 ^ 24 + fRat k / 2 ^ 150 := by field_simp
    _ ≤ 1 / 4 + 1 / 4 / 2 ^ 24 + 2 ^ 60 / 2 ^ 150 := by gcongr
    _ ≤ 13 / 50 := by norm_num

/-- A square of a rise `r`, with `r ≤ 3k` and `r ≤ b`, rounded and scaled: at most four fifths of `b`, up to what the rounding of a tiny square adds. -/
theorem KneeCurve.scaled_square_le (hkLe : fRat k ≤ 2 ^ 60) {r b : ℚ} (hr0 : 0 ≤ r) (hrk : r ≤ 3 * fRat k)
    (hrb : r ≤ b) {p : F} (hp : NearestEven (r * r) p) : fRat p * fRat curve.b ≤ 4 / 5 * b + 1 / 2 ^ 22 := by
  have hz0 := hcurve.factor_nonneg hk0
  have hb0 := hr0.trans hrb
  have hsquare : r * r * fRat curve.b ≤ 39 / 50 * b :=
    calc r * r * fRat curve.b ≤ 3 * fRat k * b * fRat curve.b := by gcongr
      _ = 3 * b * (fRat curve.b * fRat k) := by ring
      _ ≤ 3 * b * (13 / 50) := by gcongr; exact hcurve.factor_mul_le hk0 hkLe
      _ = 39 / 50 * b := by ring
  calc fRat p * fRat curve.b
      ≤ (r * r + r * r / 2 ^ 24 + 1 / 2 ^ 150) * fRat curve.b := by
        gcongr; exact hp.le_add_error (mul_nonneg hr0 hr0)
    _ = (1 + 1 / 2 ^ 24) * (r * r * fRat curve.b) + fRat curve.b / 2 ^ 150 := by ring
    _ ≤ (1 + 1 / 2 ^ 24) * (39 / 50 * b) + 2 ^ 128 / 2 ^ 150 := by
        gcongr; exact (fRat_lt_two_pow hcurve.factor.1).le
    _ ≤ 4 / 5 * b + 1 / 2 ^ 22 := by linarith

end

/-- Up to the threshold the quadratic piece does not pass the denominator. -/
theorem KneeCurve.kneePiece_bounds {c : Ctx} (hc : c.cfg.num = .reference) {br t k : F} {curve : F3}
    (hcurve : KneeCurve t k curve) (hbr : fFinite br = true) (ht : fFinite t = true) (hk : fFinite k = true)
    (hk0 : 0 < fRat k) (hkt : fRat k ≤ fRat t) (htLe : fRat t ≤ 2 ^ 60) (hbr0 : 0 ≤ fRat br) (hle : fRat br ≤ fRat t) :
    fFinite (kneePiece c br curve) = true ∧ 0 ≤ fRat (kneePiece c br curve) ∧
      fRat (kneePiece c br curve) ≤ max (fRat br) (fRat cEps) := by
  obtain ⟨hx0, hxt⟩ := hcurve.start_bounds ht hk0 hkt
  have hready := hcurve.ready hk0 ht
  have hover := not_overflows_of_abs_le_fRat ht (abs_sub_le_of_nonneg_of_le hbr0 hle hx0 hxt)
  obtain ⟨hfinite, hrise0, hriseWidth⟩ := kneeRise_bounds hc hready hbr hover
  have hriseBr := kneeRise_le hc hready hbr hover hbr hbr0 (by linarith)
  have hsquare : |fRat (kneeRise c br curve) * fRat (kneeRise c br curve)| ≤ 2 ^ 120 := by
    have hrise60 := hriseBr.trans (hle.trans htLe)
    rw [abs_of_nonneg (mul_nonneg hrise0 hrise0)]
    exact (mul_le_mul hrise60 hrise60 hrise0 (by positivity)).trans_eq (by norm_num)
  obtain ⟨p, hp, hpiece⟩ := kneePiece_nearest hc hready hfinite
    (not_overflows_of_abs_le_two_pow (by norm_num) hsquare)
  have hscaled0 := mul_nonneg (hp.nonneg (mul_nonneg hrise0 hrise0)) (hcurve.factor_nonneg hk0)
  have hriseKnee := hriseWidth.trans (hcurve.width_le hk0 hk)
  have hscaled := hcurve.scaled_square_le hk0 (hkt.trans htLe) hrise0 hriseKnee hriseBr hp
  have hfloor : fRat p * fRat curve.b ≤ max (fRat br) (fRat cEps) := by
    linarith [scaleFloor_ge br, le_max_left (fRat br) (fRat cEps)]
  obtain ⟨hdFinite, hdValue⟩ := scaleFloor_hasValue c hbr
  rw [← hdValue] at hfloor ⊢
  have hnear := hpiece (not_overflows_of_abs_le_fRat hdFinite ((abs_of_nonneg hscaled0).trans_le hfloor))
  exact ⟨hnear.1, hnear.nonneg hscaled0, hnear.le_of_le hdFinite hfloor⟩

/-- Settles O52: the scale factor is a quotient in [0, 1], and rounding passes neither end. -/
theorem scaleBoundedUpToThreshold : Obligations.ScaleBoundedUpToThreshold := by
  intro c br t k x y z hc hbr ht hk hk0 hkt htLe hbr0 hle hx hy hz
  have hcurve : KneeCurve t k ⟨x, y, z⟩ := ⟨hx, hy, hz⟩
  obtain ⟨hpiece, hpiece0, hpieceLe⟩ := hcurve.kneePiece_bounds hc hbr ht hk hk0 hkt htLe hbr0 hle
  have hscale := thresholdScale_nearest_of_le hc (hcurve.ready hk0 ht) hbr hbr0 hle hpiece hpiece0 hpieceLe
  have hfloor0 := (scaleFloor_pos br).le
  have hone := hscale.le_of_le hasValue_one.1 ((div_le_one_of_le₀ hpieceLe hfloor0).trans_eq hasValue_one.2.symm)
  exact ⟨hscale.1, hscale.nonneg (div_nonneg hpiece0 hfloor0), hone.trans_eq hasValue_one.2⟩

/-! ### The prefilter -/

theorem hasValue_clampMax : HasValue cClampMax 20 := ⟨by decide, by decide +kernel⟩

theorem fmin_clampMax (c : Ctx) {a : F} (ha : fFinite a = true) :
    fmin c a cClampMax = if 20 < fRat a then cClampMax else a := by
  rw [fmin_finite c ha hasValue_clampMax.1, hasValue_clampMax.2]

/-- Settles O53: each channel meets `fmin` with 20 before the curve. -/
theorem prefilterCutsAtTwenty : Obligations.PrefilterCutsAtTwenty := by
  intro c k t x y z hr hg hb
  rw [prefilter, fmin_clampMax _ hr, fmin_clampMax _ hg, fmin_clampMax _ hb, cClampMax]

end Sys2Proof.Machine

/-! The box filter: sums of the format's values that round nowhere, halves of values, and where a tap stands (43_box_downsample.md R96–R98). -/

namespace Sys2Proof.Machine

/-! ### Naturals over a power of two -/

theorem exists_hasValue_div_two_pow {n k : ℕ} (hn : n ≤ 2 ^ 24) (hk : k ≤ 149) : ∃ z, HasValue z ((n : ℚ) / 2 ^ k) := by
  obtain ⟨z, hz, _⟩ := exists_hasValue_scaled hn (e := 149 - k) (by omega)
  have hpow : (2 : ℚ) ^ 149 = 2 ^ (149 - k) * 2 ^ k := by rw [← pow_add, Nat.sub_add_cancel hk]
  have hvalue : ((n * 2 ^ (149 - k) : ℕ) : ℚ) / 2 ^ 149 = n / 2 ^ k := by
    rw [hpow, Nat.cast_mul, Nat.cast_pow, Nat.cast_ofNat, mul_comm (2 ^ (149 - k)), mul_div_mul_right _ _ (by positivity)]
  exact ⟨z, hvalue ▸ hz⟩

section
variable {c : Ctx} (hc : c.cfg.num = .reference) {a b : F} {m n k : ℕ} (ha : HasValue a ((m : ℚ) / 2 ^ k))
include hc ha

/-- A sum of naturals over one power of two is exact up to 2^24 parts. -/
theorem numAdd_div_two_pow (hb : HasValue b ((n : ℚ) / 2 ^ k)) (hk : k ≤ 149) (hsum : m + n ≤ 2 ^ 24) :
    HasValue (numAdd c a b) (((m + n : ℕ) : ℚ) / 2 ^ k) := by
  obtain ⟨z, hz⟩ := exists_hasValue_div_two_pow hsum hk
  have hvalue : ((m + n : ℕ) : ℚ) / 2 ^ k = m / 2 ^ k + n / 2 ^ k := by rw [Nat.cast_add, add_div]
  rw [hvalue] at hz ⊢
  exact numAdd_hasValue hc ha hb hz

/-- A natural over a power of two, over another one, is exact. -/
theorem numMul_div_two_pow {w : F} {j : ℕ} (hw : HasValue w (1 / 2 ^ j)) (hk : k + j ≤ 149) (hm : m ≤ 2 ^ 24) :
    HasValue (numMul c a w) ((m : ℚ) / 2 ^ (k + j)) := by
  obtain ⟨z, hz⟩ := exists_hasValue_div_two_pow hm hk
  have hvalue : (m : ℚ) / 2 ^ (k + j) = m / 2 ^ k * (1 / 2 ^ j) := by rw [pow_add, ← div_div, div_eq_mul_one_div]
  rw [hvalue] at hz ⊢
  exact numMul_hasValue hc ha hw hz

end

/-! ### The box sum (R97, R98) -/

/-- A group of four taps of R97: their sum times a weight, its operations at the places from `i` on. -/
def boxGroup (c : Ctx) (i : ℕ) (w p q r s : F) : F :=
  numMul (c.nth i) (numAdd (c.nth (i + 1)) (numAdd (c.nth (i + 2)) (numAdd (c.nth (i + 3)) p q) r) s) w

/-- The reference record adds the five groups in the order of R97 and divides by 4. -/
theorem boxSum_reference {c : Ctx} (hc : c.cfg.num = .reference) (f : BoxTap → F) :
    boxSum c f =
      numMul (c.nth 20)
        (numAdd (c.nth 21) (numAdd (c.nth 22) (numAdd (c.nth 23) (numAdd (c.nth 24)
          (boxGroup c 0 0x3F000000#32 (f .B) (f .C) (f .D) (f .E))
          (boxGroup c 4 0x3E000000#32 (f .F) (f .G) (f .I) (f .A)))
          (boxGroup c 8 0x3E000000#32 (f .G) (f .H) (f .J) (f .A)))
          (boxGroup c 12 0x3E000000#32 (f .I) (f .K) (f .L) (f .A)))
          (boxGroup c 16 0x3E000000#32 (f .J) (f .L) (f .M) (f .A)))
        0x3E800000#32 :=
  evaluated_reference (c := c.nth 25) hc _ _ _

theorem hasValue_quarter : HasValue 0x3E800000#32 (1 / 2 ^ 2) := ⟨by decide, by decide +kernel⟩

theorem hasValue_eighth : HasValue 0x3E000000#32 (1 / 2 ^ 3) := ⟨by decide, by decide +kernel⟩

theorem sum_four_taps_le {n : BoxTap → ℕ} (hn : ∀ t, n t < 65536) (p q r s : BoxTap) : n p + n q + n r + n s ≤ 2 ^ 18 := by
  linarith [hn p, hn q, hn r, hn s]

section
variable {c : Ctx} (hc : c.cfg.num = .reference) {f : BoxTap → F} {n : BoxTap → ℕ}
  (hn : ∀ t, n t < 65536) (hf : ∀ t, HasValue (f t) (n t))
include hc hn hf

theorem boxGroup_hasValue {w : F} {j : ℕ} (hj : j ≤ 149) (hw : HasValue w (1 / 2 ^ j)) (i : ℕ) (p q r s : BoxTap) :
    HasValue (boxGroup c i w (f p) (f q) (f r) (f s)) (((n p + n q + n r + n s : ℕ) : ℚ) / 2 ^ j) := by
  have hbound := sum_four_taps_le hn p q r s
  have htap : ∀ t, HasValue (f t) ((n t : ℚ) / 2 ^ 0) := fun t => by simpa using hf t
  have hsum := numAdd_div_two_pow (c := c.nth (i + 1)) hc
    (numAdd_div_two_pow (c := c.nth (i + 2)) hc
      (numAdd_div_two_pow (c := c.nth (i + 3)) hc (htap p) (htap q) (by omega) (by omega))
      (htap r) (by omega) (by omega))
    (htap s) (by omega) (by omega)
  have hscaled := numMul_div_two_pow (c := c.nth i) hc hsum hw (by omega) (by omega)
  rwa [Nat.zero_add] at hscaled

/-- The box sum in parts of 1/32: every intermediate sum is a natural number of eighths. -/
theorem boxSum_hasValue :
    HasValue (boxSum c f)
      (((4 * (n .B + n .C + n .D + n .E) + (n .F + n .G + n .I + n .A) + (n .G + n .H + n .J + n .A) +
        (n .I + n .K + n .L + n .A) + (n .J + n .L + n .M + n .A) : ℕ) : ℚ) / 2 ^ 5) := by
  have hhalf : HasValue 0x3F000000#32 (1 / 2 ^ 1) := by simpa using hasValue_half
  have hinner := boxGroup_hasValue hc hn hf (by norm_num) hhalf 0 .B .C .D .E
  have hcorner := boxGroup_hasValue hc hn hf (by norm_num) hasValue_eighth
  have hBCDE := sum_four_taps_le hn .B .C .D .E
  have hFGIA := sum_four_taps_le hn .F .G .I .A
  have hGHJA := sum_four_taps_le hn .G .H .J .A
  have hIKLA := sum_four_taps_le hn .I .K .L .A
  have hJLMA := sum_four_taps_le hn .J .L .M .A
  have heighths : (((n .B + n .C + n .D + n .E : ℕ) : ℚ) / 2 ^ 1) = ((4 * (n .B + n .C + n .D + n .E) : ℕ) : ℚ) / 2 ^ 3 := by
    push_cast
    ring
  rw [heighths] at hinner
  rw [boxSum_reference hc]
  have htopLeft := numAdd_div_two_pow (c := c.nth 24) hc hinner (hcorner 4 .F .G .I .A) (by omega) (by omega)
  have htopRight := numAdd_div_two_pow (c := c.nth 23) hc htopLeft (hcorner 8 .G .H .J .A) (by omega) (by omega)
  have hbottomLeft := numAdd_div_two_pow (c := c.nth 22) hc htopRight (hcorner 12 .I .K .L .A) (by omega) (by omega)
  have hbottomRight := numAdd_div_two_pow (c := c.nth 21) hc hbottomLeft (hcorner 16 .J .L .M .A) (by omega) (by omega)
  exact numMul_div_two_pow (c := c.nth 20) hc hbottomRight hasValue_quarter (by omega) (by omega)

end

/-! ### Halves of values -/

/-- Bits past the least exponent stand for twice the magnitude of those one exponent below. -/
theorem two_mul_bitsMag_sub {b : ℕ} (hb : 2 ^ 24 ≤ b) : 2 * bitsMag (b - 2 ^ 23) = bitsMag b := by
  obtain ⟨e, he⟩ : ∃ e, b / 2 ^ 23 = e + 2 := ⟨b / 2 ^ 23 - 2, by omega⟩
  have hexp : (b - 2 ^ 23) / 2 ^ 23 = e + 1 := by omega
  have hfrac : (b - 2 ^ 23) % 2 ^ 23 = b % 2 ^ 23 := by omega
  rw [bitsMag, bitsMag, he, hexp, hfrac, if_neg (by omega), if_neg (by omega), Nat.add_sub_cancel,
    show e + 2 - 1 = e + 1 from rfl, pow_succ]
  ring

/-- A value not below 2^-125 in magnitude has a half in the format. -/
theorem exists_hasValue_half {z : F} (hz : fFinite z = true) (hbig : 1 / 2 ^ 125 ≤ |fRat z|) :
    ∃ y, HasValue y (fRat z / 2) := by
  have hmag : 2 ^ 24 ≤ fMag z := by
    rw [abs_fRat, le_div_iff₀ (by positivity)] at hbig
    norm_num at hbig
    exact_mod_cast hbig
  have hbits : 2 ^ 24 ≤ z.toNat % 2 ^ 31 := by
    rw [fMag_eq_bitsMag] at hmag
    exact bitsMag_strictMono.le_iff_le.1 (hmag.trans_eq' (by decide))
  have hlt := finite_bits_lt hz
  have hhalf : z.toNat % 2 ^ 31 - 2 ^ 23 < 0x7F800000 := by omega
  refine ⟨fPack (fNeg z) (z.toNat % 2 ^ 31 - 2 ^ 23), fFinite_fPack hhalf, ?_⟩
  rw [fRat_fPack hhalf, fRat_bits hz, ← two_mul_bitsMag_sub hbits, Nat.cast_mul, Nat.cast_ofNat]
  ring

theorem HasValue.neg {z : F} {q : ℚ} (h : HasValue z q) : HasValue (fFlip z) (-q) :=
  ⟨fFinite_fFlip h.1, by rw [fRat_fFlip h.1, h.2]⟩

/-! ### Where a tap stands (R96) -/

/-- The texel size along an axis of at most 2^24 texels is nearest to 1 over their number. -/
theorem numDiv_one_natToF_nearest {c : Ctx} (hc : c.cfg.num = .reference) (c' : Ctx) {n : ℕ} (hpos : 0 < n) (hn : n ≤ 2 ^ 24) :
    NearestEven (1 / n) (numDiv c fOne (natToF c' n)) := by
  obtain ⟨hfinite, hvalue⟩ := natToF_hasValue c' hn
  have hone : (1 : ℚ) ≤ n := by exact_mod_cast hpos
  have hdiv := numDiv_nearest (b := natToF c' n) hc hasValue_one.1 hfinite
  rw [hvalue, hasValue_one.2] at hdiv
  refine hdiv (by positivity) (not_overflows_of_abs_le_two_pow (n := 0) (by norm_num) ?_)
  rw [abs_of_nonneg (by positivity), pow_zero]
  exact div_le_self zero_le_one hone

/-- The texel size is from 2^-24 to 1. -/
theorem NearestEven.texelSize_bounds {n : ℕ} {su : F} (h : NearestEven (1 / n) su) (hpos : 0 < n) (hn : n ≤ 2 ^ 24) :
    1 / 2 ^ 24 ≤ fRat su ∧ fRat su ≤ 1 := by
  have hposQ : (0 : ℚ) < n := by exact_mod_cast hpos
  have hone : (1 : ℚ) ≤ n := by exact_mod_cast hpos
  have hnQ : (n : ℚ) ≤ 2 ^ 24 := by exact_mod_cast hn
  obtain ⟨z, hz, hvalue⟩ := exists_hasValue_div_two_pow (n := 1) (k := 24) (by norm_num) (by norm_num)
  rw [Nat.cast_one] at hvalue
  constructor
  · exact hvalue ▸ h.ge_of_ge hz (hvalue ▸ one_div_le_one_div_of_le hposQ hnQ)
  · exact (h.le_of_le hasValue_one.1 ((div_le_self zero_le_one hone).trans_eq hasValue_one.2.symm)).trans_eq hasValue_one.2

/-- A coordinate of a tap whose step times offset is exact: the sum alone rounds. -/
theorem tapCoordinate_nearest {c : Ctx} (hc : c.cfg.num = .reference) (e : RuleExpr) (operands : List F) {u step o z : F} {q : ℚ}
    (hu : fFinite u = true) (huLe : |fRat u| ≤ 2 ^ 100) (hstep : fFinite step = true) (ho : HasValue o q)
    (hz : HasValue z (fRat step * q)) (hle : |fRat step * q| ≤ 2 ^ 100) :
    NearestEven (fRat u + fRat step * q) (tapCoordinate c e operands u step o) := by
  obtain ⟨hshiftFinite, hshift⟩ := numMul_hasValue (c := c.nth 2) hc ⟨hstep, rfl⟩ ho hz
  have hsum := ((addExact_roundedOnce u (numMul (c.nth 2) step o)).numApply (c := c.nth 1) hc .add hu hshiftFinite).1
  rw [hshift] at hsum
  rw [tapCoordinate, evaluated_reference (c := c.nth 0) hc]
  refine hsum (not_overflows_of_abs_le_two_pow (n := 101) (by norm_num) ?_)
  calc |fRat u + fRat step * q| ≤ 2 ^ 100 + 2 ^ 100 := (abs_add_le _ _).trans (add_le_add huLe hle)
    _ = 2 ^ 101 := by norm_num

/-- The offsets of R96 along one axis, in texels. -/
def boxShifts : List ℚ := [-1, -1 / 2, 0, 1 / 2, 1]

theorem abs_le_one_of_mem_boxShifts {q : ℚ} (hq : q ∈ boxShifts) : |q| ≤ 1 := by
  have hall : ∀ p ∈ boxShifts, |p| ≤ 1 := by decide +kernel
  exact hall q hq

/-- A texel size times an offset of R96 is a value of the format. -/
theorem exists_hasValue_mul_boxShift {su : F} (hsu : fFinite su = true) (hlow : 1 / 2 ^ 24 ≤ fRat su) {q : ℚ}
    (hq : q ∈ boxShifts) : ∃ z, HasValue z (fRat su * q) := by
  have hself : HasValue su (fRat su) := ⟨hsu, rfl⟩
  have hbig : 1 / 2 ^ 125 ≤ |fRat su| := (le_trans (by norm_num) hlow).trans (le_abs_self _)
  obtain ⟨y, hy⟩ := exists_hasValue_half hsu hbig
  simp only [boxShifts, List.mem_cons, List.not_mem_nil, or_false] at hq
  rcases hq with rfl | rfl | rfl | rfl | rfl
  · exact ⟨fFlip su, by simpa using hself.neg⟩
  · exact ⟨fFlip y, by simpa [neg_div, div_eq_mul_inv] using hy.neg⟩
  · exact ⟨0#32, by simpa using hasValue_zero⟩
  · exact ⟨y, by simpa [div_eq_mul_inv] using hy⟩
  · exact ⟨su, by simpa using hself⟩

/-- One coordinate of a box tap, for a texel size `su` of its axis and an offset `o` of R96. -/
theorem boxCoordinate_nearest {c : Ctx} (hc : c.cfg.num = .reference) (operands : List F) {u su o : F} {n : ℕ} {q : ℚ}
    (hu : fFinite u = true) (huLe : |fRat u| ≤ 2 ^ 100) (hsu : NearestEven (1 / n) su) (hpos : 0 < n) (hn : n ≤ 2 ^ 24)
    (ho : HasValue o q) (hq : q ∈ boxShifts) :
    NearestEven (fRat u + fRat su * q) (tapCoordinate c .boxCoordinate operands u su o) := by
  obtain ⟨hlow, hhigh⟩ := hsu.texelSize_bounds hpos hn
  obtain ⟨z, hz⟩ := exists_hasValue_mul_boxShift hsu.1 hlow hq
  refine tapCoordinate_nearest hc _ _ hu huLe hsu.1 ho hz ?_
  have hsuAbs : |fRat su| ≤ 1 := (abs_of_nonneg (le_trans (by positivity) hlow)).trans_le hhigh
  calc |fRat su * q| ≤ 1 := abs_mul (fRat su) q ▸ mul_le_one₀ hsuAbs (abs_nonneg q) (abs_le_one_of_mem_boxShifts hq)
    _ ≤ 2 ^ 100 := one_le_pow₀ one_le_two

/-- The taps other than the centre with their offsets in texels (R96). -/
def boxTable : List (BoxTap × ℚ × ℚ) :=
  [(.B, -1 / 2, -1 / 2), (.C, 1 / 2, -1 / 2), (.D, -1 / 2, 1 / 2), (.E, 1 / 2, 1 / 2),
   (.F, -1, -1), (.G, 0, -1), (.H, 1, -1), (.I, -1, 0), (.J, 1, 0), (.K, -1, 1), (.L, 0, 1), (.M, 1, 1)]

/-- The model's offsets are those of the table. -/
theorem boxOffset_of_mem_boxTable : ∀ p ∈ boxTable, p.1 ≠ .A ∧
    (HasValue (boxOffset p.1).1 p.2.1 ∧ p.2.1 ∈ boxShifts) ∧ HasValue (boxOffset p.1).2 p.2.2 ∧ p.2.2 ∈ boxShifts := by
  unfold HasValue
  decide +kernel

theorem boxSample_centre (c : Ctx) (images : List Image) (r : LevelRef) (uv : F × F) :
    boxSample c images r uv .A = ⟨r, uv.1, uv.2⟩ :=
  if_pos rfl

theorem boxSample_of_ne_centre (c : Ctx) (images : List Image) (r : LevelRef) (uv : F × F) {t : BoxTap} (ht : t ≠ .A) :
    boxSample c images r uv t =
      offsetSample ((c.nth 0).nth (boxPlace t)) .boxCoordinate
        ([(levelExtent (c.nth 1) images r).1], [(levelExtent (c.nth 1) images r).2]) r uv
        (texelStep (c.nth 1) images r) (boxOffset t).1 (boxOffset t).2 :=
  if_neg ht

theorem texelStep_nearest {c : Ctx} (hc : c.cfg.num = .reference) {images : List Image} {r : LevelRef}
    (hr : LevelConverts images r) :
    NearestEven (1 / (levelSize images r).1) (texelStep c images r).1 ∧
    NearestEven (1 / (levelSize images r).2) (texelStep c images r).2 := by
  obtain ⟨hsome, hw, hh⟩ := hr
  obtain ⟨hw0, hh0⟩ := texSize_isSome.1 hsome
  exact ⟨numDiv_one_natToF_nearest (c := c.nth 0) hc _ hw0 hw, numDiv_one_natToF_nearest (c := c.nth 2) hc _ hh0 hh⟩

/-- A box tap other than the centre stands at the coordinates nearest to `uv` moved by its offset in texels. -/
theorem boxSample_nearest {c : Ctx} (hc : c.cfg.num = .reference) {images : List Image} {r : LevelRef} {uv : F × F}
    (hr : LevelConverts images r) (hu : fFinite uv.1 = true) (hv : fFinite uv.2 = true) (huLe : |fRat uv.1| ≤ 2 ^ 100)
    (hvLe : |fRat uv.2| ≤ 2 ^ 100) {p : BoxTap × ℚ × ℚ} (hp : p ∈ boxTable) :
    (boxSample c images r uv p.1).ref = r ∧
    NearestEven (fRat uv.1 + fRat (texelStep (c.nth 1) images r).1 * p.2.1) (boxSample c images r uv p.1).u ∧
    NearestEven (fRat uv.2 + fRat (texelStep (c.nth 1) images r).2 * p.2.2) (boxSample c images r uv p.1).v := by
  obtain ⟨hne, ⟨hox, hx⟩, hoy, hy⟩ := boxOffset_of_mem_boxTable p hp
  obtain ⟨hsu, hsv⟩ := texelStep_nearest (c := c.nth 1) hc hr
  obtain ⟨hsome, hw, hh⟩ := hr
  obtain ⟨hw0, hh0⟩ := texSize_isSome.1 hsome
  rw [boxSample_of_ne_centre c images r uv hne]
  exact ⟨rfl,
    boxCoordinate_nearest (c := ((c.nth 0).nth (boxPlace p.1)).nth 0) hc _ hu huLe hsu hw0 hw hox hx,
    boxCoordinate_nearest (c := ((c.nth 0).nth (boxPlace p.1)).nth 1) hc _ hv hvLe hsv hh0 hh hoy hy⟩

/-- Settles O54: the sum is exact in thirty-seconds; a step times an offset is exact, so a tap's coordinate rounds once; the channels are those sums by definition. -/
theorem boxWeights : Obligations.BoxWeights := by
  refine ⟨fun c f n hc h => ?_, fun c images r uv hc hr hu hv huLe hvLe => ?_, fun c images m r uv => ?_⟩
  · obtain ⟨hfinite, hvalue⟩ := boxSum_hasValue hc (fun t => (h t).1) fun t => (h t).2
    refine ⟨hfinite, hvalue.trans ?_⟩
    push_cast
    ring
  · obtain ⟨hsu, hsv⟩ := texelStep_nearest (c := c.nth 1) hc hr
    exact ⟨boxSample_centre c images r uv, _, _, hsu, hsv, fun p hp => boxSample_nearest hc hr hu hv huLe hvLe hp⟩
  · exact ⟨c.nth 3, c.nth 4, c.nth 5, fun t => (c.nth 2).nth (boxPlace t), rfl, rfl, rfl, fun _ => rfl, rfl⟩

end Sys2Proof.Machine

/-! The tent filter: its sum is exact on naturals, and a tap stands one rounded spacing from the sampled position (44_tent_upsample.md R101, R102, R104). -/

namespace Sys2Proof.Machine

/-! ### The tent sum (R102) -/

theorem hasValue_two : HasValue 0x40000000#32 2 := ⟨by decide, by decide +kernel⟩

theorem hasValue_four : HasValue 0x40800000#32 4 := ⟨by decide, by decide +kernel⟩

theorem hasValue_sixteenth : HasValue 0x3D800000#32 (1 / 2 ^ 4) := ⟨by decide, by decide +kernel⟩

/-- The reference record adds the nine weighted taps in the order of R102 and divides by 16. -/
theorem tentSum_reference {c : Ctx} (hc : c.cfg.num = .reference) (f : TentOff → TentOff → F) :
    tentSum c f =
      numMul (c.nth 13)
        (numAdd (c.nth 12)
          (numAdd (c.nth 10)
            (numAdd (c.nth 9)
              (numAdd (c.nth 7)
                (numAdd (c.nth 5)
                  (numAdd (c.nth 3)
                    (numAdd (c.nth 2)
                      (numAdd (c.nth 0) (f .neg .neg) (numMul (c.nth 1) (f .zero .neg) 0x40000000#32))
                      (f .pos .neg))
                    (numMul (c.nth 4) (f .neg .zero) 0x40000000#32))
                  (numMul (c.nth 6) (f .zero .zero) 0x40800000#32))
                (numMul (c.nth 8) (f .pos .zero) 0x40000000#32))
              (f .neg .pos))
            (numMul (c.nth 11) (f .zero .pos) 0x40000000#32))
          (f .pos .pos))
        0x3D800000#32 :=
  evaluated_reference (c := c.nth 14) hc _ _ _

theorem exists_hasValue_natCast {n : ℕ} (hn : n ≤ 2 ^ 24) : ∃ z, HasValue z n := by
  simpa using exists_hasValue_div_two_pow hn (Nat.zero_le 149)

section
variable {c : Ctx} (hc : c.cfg.num = .reference) {a b : F} {m n : ℕ} (ha : HasValue a m) (hb : HasValue b n)
include hc ha hb

/-- A sum of naturals is exact up to 2^24. -/
theorem numAdd_natCast (hsum : m + n ≤ 2 ^ 24) : HasValue (numAdd c a b) ((m + n : ℕ) : ℚ) := by
  obtain ⟨z, hz⟩ := exists_hasValue_natCast hsum
  rw [Nat.cast_add] at hz ⊢
  exact numAdd_hasValue hc ha hb hz

/-- A product of naturals is exact up to 2^24. -/
theorem numMul_natCast (hprod : m * n ≤ 2 ^ 24) : HasValue (numMul c a b) ((m * n : ℕ) : ℚ) := by
  obtain ⟨z, hz⟩ := exists_hasValue_natCast hprod
  rw [Nat.cast_mul] at hz ⊢
  exact numMul_hasValue hc ha hb hz

end

/-- The tent sum in sixteenths: every intermediate sum is a natural number. -/
theorem tentSum_hasValue {c : Ctx} (hc : c.cfg.num = .reference) {f : TentOff → TentOff → F} {n : TentOff → TentOff → ℕ}
    (hn : ∀ dx dy, n dx dy < 65536) (hf : ∀ dx dy, HasValue (f dx dy) (n dx dy)) :
    HasValue (tentSum c f)
      (((n .neg .neg + n .zero .neg * 2 + n .pos .neg + n .neg .zero * 2 + n .zero .zero * 4 + n .pos .zero * 2 +
        n .neg .pos + n .zero .pos * 2 + n .pos .pos : ℕ) : ℚ) / 2 ^ 4) := by
  have hdouble : ∀ i dx dy, HasValue (numMul (c.nth i) (f dx dy) 0x40000000#32) ((n dx dy * 2 : ℕ) : ℚ) := fun i dx dy =>
    numMul_natCast (c := c.nth i) hc (hf dx dy) hasValue_two (by linarith [hn dx dy])
  have hcentre : HasValue (numMul (c.nth 6) (f .zero .zero) 0x40800000#32) ((n .zero .zero * 4 : ℕ) : ℚ) :=
    numMul_natCast (c := c.nth 6) hc (hf .zero .zero) hasValue_four (by linarith [hn .zero .zero])
  have hlt : ∀ dx, n dx .neg < 65536 ∧ n dx .zero < 65536 ∧ n dx .pos < 65536 := fun dx => ⟨hn dx _, hn dx _, hn dx _⟩
  obtain ⟨hnn, hnz, hnp⟩ := hlt .neg
  obtain ⟨hzn, hzz, hzp⟩ := hlt .zero
  obtain ⟨hpn, hpz, hpp⟩ := hlt .pos
  have hsum2 := numAdd_natCast (c := c.nth 0) hc (hf .neg .neg) (hdouble 1 .zero .neg) (by omega)
  have hsum3 := numAdd_natCast (c := c.nth 2) hc hsum2 (hf .pos .neg) (by omega)
  have hsum4 := numAdd_natCast (c := c.nth 3) hc hsum3 (hdouble 4 .neg .zero) (by omega)
  have hsum5 := numAdd_natCast (c := c.nth 5) hc hsum4 hcentre (by omega)
  have hsum6 := numAdd_natCast (c := c.nth 7) hc hsum5 (hdouble 8 .pos .zero) (by omega)
  have hsum7 := numAdd_natCast (c := c.nth 9) hc hsum6 (hf .neg .pos) (by omega)
  have hsum8 := numAdd_natCast (c := c.nth 10) hc hsum7 (hdouble 11 .zero .pos) (by omega)
  have hsum9 := numAdd_natCast (c := c.nth 12) hc hsum8 (hf .pos .pos) (by omega)
  rw [tentSum_reference hc]
  have hwhole : ∀ k : ℕ, (k : ℚ) = (k : ℚ) / 2 ^ 0 := fun k => by rw [pow_zero, div_one]
  rw [hwhole] at hsum9
  exact numMul_div_two_pow (c := c.nth 13) hc hsum9 hasValue_sixteenth (by omega) (by omega)

/-! ### Where a tap stands (R101) -/

/-- The offset of a tap along one axis, in spacings. -/
def tentShift : TentOff → ℚ
  | .neg => -1
  | .zero => 0
  | .pos => 1

theorem tentOffset_hasValue (d : TentOff) : HasValue (tentOffset d) (tentShift d) := by
  cases d <;> exact ⟨by decide, by decide +kernel⟩

theorem abs_tentShift_le_one (d : TentOff) : |tentShift d| ≤ 1 := by
  cases d <;> simp [tentShift]

/-- A spacing times an offset of R101 is a value of the format. -/
theorem exists_hasValue_mul_tentShift {gu : F} (hgu : fFinite gu = true) (d : TentOff) :
    ∃ z, HasValue z (fRat gu * tentShift d) := by
  have hself : HasValue gu (fRat gu) := ⟨hgu, rfl⟩
  cases d with
  | neg => exact ⟨fFlip gu, by simpa [tentShift] using hself.neg⟩
  | zero => exact ⟨0#32, by simpa [tentShift] using hasValue_zero⟩
  | pos => exact ⟨gu, by simpa [tentShift] using hself⟩

/-- One coordinate of a tent tap, for a spacing `gu` of its axis. -/
theorem tentCoordinate_nearest {c : Ctx} (hc : c.cfg.num = .reference) (operands : List F) {u gu : F}
    (hu : fFinite u = true) (huLe : |fRat u| ≤ 2 ^ 100) (hgu : fFinite gu = true) (hguLe : |fRat gu| ≤ 2 ^ 60) (d : TentOff) :
    NearestEven (fRat u + fRat gu * tentShift d) (tapCoordinate c .tentCoordinate operands u gu (tentOffset d)) := by
  obtain ⟨z, hz⟩ := exists_hasValue_mul_tentShift hgu d
  refine tapCoordinate_nearest hc _ _ hu huLe hgu (tentOffset_hasValue d) hz ?_
  calc |fRat gu * tentShift d| ≤ |fRat gu| :=
        abs_mul (fRat gu) (tentShift d) ▸ mul_le_of_le_one_right (abs_nonneg _) (abs_tentShift_le_one d)
    _ ≤ 2 ^ 100 := hguLe.trans (by norm_num)

/-- Along one axis the spacing is the texel size times `TENT_RADIUS`, rounded once; it stays within 2^60. -/
theorem spacing_nearest {c : Ctx} (hc : c.cfg.num = .reference) {n : ℕ} {su rad : F} (hsu : NearestEven (1 / n) su)
    (hpos : 0 < n) (hn : n ≤ 2 ^ 24) (hrad : fFinite rad = true) (hradLe : |fRat rad| ≤ 2 ^ 60) :
    NearestEven (fRat su * fRat rad) (numMul c su rad) ∧ |fRat (numMul c su rad)| ≤ 2 ^ 60 := by
  obtain ⟨hlow, hhigh⟩ := hsu.texelSize_bounds hpos hn
  have hsuAbs : |fRat su| ≤ 1 := (abs_of_nonneg (le_trans (by positivity) hlow)).trans_le hhigh
  have hle : |fRat su * fRat rad| ≤ 2 ^ 60 :=
    abs_mul (fRat su) (fRat rad) ▸ (mul_le_of_le_one_left (abs_nonneg _) hsuAbs).trans hradLe
  have hnear := numMul_nearest hc hsu.1 hrad (not_overflows_of_abs_le_two_pow (by norm_num) hle)
  exact ⟨hnear, hnear.abs_le_two_pow (by norm_num) hle⟩

theorem tentStep_nearest {c : Ctx} (hc : c.cfg.num = .reference) {images : List Image} {r : LevelRef}
    (hr : LevelConverts images r) (hrad : fFinite c.cfg.tentRadius = true) (hradLe : |fRat c.cfg.tentRadius| ≤ 2 ^ 60) :
    (NearestEven (fRat (texelStep (c.nth 0) images r).1 * fRat c.cfg.tentRadius) (tentStep c images r).1 ∧
      |fRat (tentStep c images r).1| ≤ 2 ^ 60) ∧
    NearestEven (fRat (texelStep (c.nth 0) images r).2 * fRat c.cfg.tentRadius) (tentStep c images r).2 ∧
      |fRat (tentStep c images r).2| ≤ 2 ^ 60 := by
  obtain ⟨hsu, hsv⟩ := texelStep_nearest (c := c.nth 0) hc hr
  obtain ⟨hsome, hw, hh⟩ := hr
  obtain ⟨hw0, hh0⟩ := texSize_isSome.1 hsome
  exact ⟨spacing_nearest (c := c.nth 1) hc hsu hw0 hw hrad hradLe, spacing_nearest (c := c.nth 2) hc hsv hh0 hh hrad hradLe⟩

theorem tentSample_centre (c : Ctx) (images : List Image) (r : LevelRef) (uv : F × F) :
    tentSample c images r uv .zero .zero = ⟨r, uv.1, uv.2⟩ :=
  if_pos ⟨rfl, rfl⟩

theorem tentSample_of_ne_centre (c : Ctx) (images : List Image) (r : LevelRef) (uv : F × F) {dx dy : TentOff}
    (h : ¬ (dx = .zero ∧ dy = .zero)) :
    tentSample c images r uv dx dy =
      offsetSample (((c.nth 0).nth (tentPlace dx)).nth (tentPlace dy)) .tentCoordinate
        ([(levelExtent ((c.nth 1).nth 0) images r).1, c.cfg.tentRadius],
         [(levelExtent ((c.nth 1).nth 0) images r).2, c.cfg.tentRadius]) r uv
        (tentStep (c.nth 1) images r) (tentOffset dx) (tentOffset dy) :=
  if_neg h

/-- Every tent tap stands at the coordinates nearest to `uv` moved by its offset in spacings. -/
theorem tentSample_nearest {c : Ctx} (hc : c.cfg.num = .reference) {images : List Image} {r : LevelRef} {uv : F × F}
    (hr : LevelConverts images r) (hu : fFinite uv.1 = true) (hv : fFinite uv.2 = true) (huLe : |fRat uv.1| ≤ 2 ^ 100)
    (hvLe : |fRat uv.2| ≤ 2 ^ 100) (hrad : fFinite c.cfg.tentRadius = true) (hradLe : |fRat c.cfg.tentRadius| ≤ 2 ^ 60)
    (dx dy : TentOff) :
    NearestEven (fRat uv.1 + fRat (tentStep (c.nth 1) images r).1 * tentShift dx) (tentSample c images r uv dx dy).u ∧
    NearestEven (fRat uv.2 + fRat (tentStep (c.nth 1) images r).2 * tentShift dy) (tentSample c images r uv dx dy).v := by
  by_cases hcentre : dx = .zero ∧ dy = .zero
  · obtain ⟨rfl, rfl⟩ := hcentre
    rw [tentSample_centre, tentShift, mul_zero, add_zero, mul_zero, add_zero]
    exact ⟨nearestEven_self hu, nearestEven_self hv⟩
  · obtain ⟨⟨hgu, hguLe⟩, hgv, hgvLe⟩ := tentStep_nearest (c := c.nth 1) hc hr hrad hradLe
    rw [tentSample_of_ne_centre c images r uv hcentre]
    exact ⟨tentCoordinate_nearest (c := (((c.nth 0).nth (tentPlace dx)).nth (tentPlace dy)).nth 0) hc _ hu huLe hgu.1 hguLe dx,
      tentCoordinate_nearest (c := (((c.nth 0).nth (tentPlace dx)).nth (tentPlace dy)).nth 1) hc _ hv hvLe hgv.1 hgvLe dy⟩

/-- The offsets listed in the statement are those of `tentShift`. -/
theorem snd_eq_tentShift : ∀ p ∈ ([(.neg, -1), (.zero, 0), (.pos, 1)] : List (TentOff × ℚ)), p.2 = tentShift p.1 := by
  decide +kernel

/-- Settles O55: the sum is exact in sixteenths; a spacing times -1, 0 or 1 is exact, so a tap's coordinate rounds once; the channels are those sums by definition. -/
theorem tentWeights : Obligations.TentWeights := by
  refine ⟨fun c f n hc h => ?_, fun c images r uv hc hr hu hv huLe hvLe hrad hradLe => ?_, fun c images m r uv => ?_⟩
  · obtain ⟨hfinite, hvalue⟩ := tentSum_hasValue hc (fun dx dy => (h dx dy).1) fun dx dy => (h dx dy).2
    refine ⟨hfinite, hvalue.trans ?_⟩
    push_cast
    ring
  · obtain ⟨hsu, hsv⟩ := texelStep_nearest (c := (c.nth 1).nth 0) hc hr
    obtain ⟨⟨hgu, _⟩, hgv, _⟩ := tentStep_nearest (c := c.nth 1) hc hr hrad hradLe
    refine ⟨tentSample_centre c images r uv, _, _, _, _, hsu, hsv, hgu, hgv, fun p hp q hq => ⟨tentSample_ref c images r uv _ _, ?_⟩⟩
    rw [snd_eq_tentShift p hp, snd_eq_tentShift q hq]
    exact tentSample_nearest hc hr hu hv huLe hvLe hrad hradLe p.1 q.1
  · exact ⟨c.nth 3, c.nth 4, c.nth 5, fun dx dy => ((c.nth 2).nth (tentPlace dx)).nth (tentPlace dy), rfl, rfl, rfl,
      fun _ _ => rfl, rfl⟩

end Sys2Proof.Machine

/-! Values near a multiple of a constant: every operation on values of at most 32 rounds by at most 2^-18, and errors are counted in that unit (40_numerics.md R69). -/

namespace Sys2Proof.Machine

/-! ### How far a rounding can go, either way -/

theorem NearestEven.abs_sub_le {q : ℚ} {v : F} (h : NearestEven q v) (hover : ¬ Overflows q) :
    |fRat v - q| ≤ |q| / 2 ^ 24 + 1 / 2 ^ 150 := by
  obtain ⟨n, d, hd, hquot⟩ := exists_eq_quotient (abs_nonneg q)
  obtain ⟨b, hb⟩ := Option.ne_none_iff_exists'.1 (mt (roundMag_eq_none_iff hd hquot).1 hover)
  obtain ⟨_, hbits, _⟩ := roundMag_some hd hb
  have herror := abs_fRat_fPack_sub_le hd hb
  rw [← hquot] at herror
  rcases abs_cases q with ⟨habs, _⟩ | ⟨habs, _⟩
  · obtain ⟨hnear, _⟩ := h.2 (fPack false b) (fFinite_fPack hbits)
    rw [habs] at herror ⊢
    exact hnear.trans herror
  · obtain ⟨hnear, _⟩ := h.2 (fPack true b) (fFinite_fPack hbits)
    have hturn : fRat (fPack true b) - q = -(fRat (fPack false b) - (-q)) := by
      rw [show true = !false from rfl, fRat_fPack_not hbits]
      ring
    rw [hturn, abs_neg] at hnear
    rw [habs] at herror ⊢
    exact hnear.trans herror

/-- The unit in which errors are counted. -/
def roundUnit : ℚ := 1 / 2 ^ 18

theorem roundUnit_pos : 0 < roundUnit := by norm_num [roundUnit]

theorem not_overflows_of_abs_le_32 {q : ℚ} (hq : |q| ≤ 32) : ¬ Overflows q :=
  not_overflows_of_abs_le_two_pow (n := 5) (by norm_num) (hq.trans_eq (by norm_num))

theorem NearestEven.abs_sub_le_roundUnit {q : ℚ} {v : F} (h : NearestEven q v) (hq : |q| ≤ 32) : |fRat v - q| ≤ roundUnit := by
  have herror := h.abs_sub_le (not_overflows_of_abs_le_32 hq)
  have hunit : (32 : ℚ) / 2 ^ 24 + 1 / 2 ^ 150 ≤ roundUnit := by norm_num [roundUnit]
  linarith

section
variable {c : Ctx} (hc : c.cfg.num = .reference) {a b : F} (ha : fFinite a = true) (hb : fFinite b = true)
include hc ha hb

theorem numAdd_rounds (hle : |fRat a + fRat b| ≤ 32) :
    fFinite (numAdd c a b) = true ∧ |fRat (numAdd c a b) - (fRat a + fRat b)| ≤ roundUnit := by
  have hnear := ((addExact_roundedOnce a b).numApply hc .add ha hb).1 (not_overflows_of_abs_le_32 hle)
  exact ⟨hnear.1, hnear.abs_sub_le_roundUnit hle⟩

theorem numMul_rounds (hle : |fRat a * fRat b| ≤ 32) :
    fFinite (numMul c a b) = true ∧ |fRat (numMul c a b) - fRat a * fRat b| ≤ roundUnit := by
  have hnear := numMul_nearest hc ha hb (not_overflows_of_abs_le_32 hle)
  exact ⟨hnear.1, hnear.abs_sub_le_roundUnit hle⟩

end

/-! ### Multiples of a constant, up to counted errors -/

/-- `x` is finite and within `m` units of `s` times the constant `k`, for a factor `s` that is not negative. -/
structure MultipleWithin (k s m : ℚ) (x : F) : Prop where
  nonneg : 0 ≤ s
  finite : fFinite x = true
  near : |fRat x - s * k| ≤ m * roundUnit

theorem multipleWithin_self {x : F} (hx : fFinite x = true) : MultipleWithin (fRat x) 1 0 x :=
  ⟨zero_le_one, hx, by rw [one_mul, sub_self, abs_zero, zero_mul]⟩

theorem MultipleWithin.weaken {k s t m n : ℚ} {x : F} (h : MultipleWithin k s m x) (hst : s = t) (hmn : m ≤ n) :
    MultipleWithin k t n x :=
  ⟨hst ▸ h.nonneg, h.finite, hst ▸ h.near.trans (mul_le_mul_of_nonneg_right hmn roundUnit_pos.le)⟩

section
variable {k : ℚ} (hk0 : 0 ≤ k) (hk1 : k ≤ 1)
include hk0 hk1

theorem abs_le_of_multipleWithin {s m : ℚ} {x : F} (h : MultipleWithin k s m x) : |fRat x| ≤ s + m * roundUnit := by
  obtain ⟨hlow, hhigh⟩ := abs_le.1 h.near
  have hsk0 : 0 ≤ s * k := mul_nonneg h.nonneg hk0
  have hsk1 : s * k ≤ s := mul_le_of_le_one_right h.nonneg hk1
  exact abs_le.2 ⟨by linarith, by linarith⟩

variable {c : Ctx} (hc : c.cfg.num = .reference)
include hc

theorem numAdd_multipleWithin {s t m n : ℚ} {a b : F} (ha : MultipleWithin k s m a) (hb : MultipleWithin k t n b)
    (hle : s + t + (m + n) * roundUnit ≤ 32) : MultipleWithin k (s + t) (m + n + 1) (numAdd c a b) := by
  have haLe := abs_le_of_multipleWithin hk0 hk1 ha
  have hbLe := abs_le_of_multipleWithin hk0 hk1 hb
  obtain ⟨hfinite, hround⟩ := numAdd_rounds hc ha.finite hb.finite (by linarith [abs_add_le (fRat a) (fRat b)])
  refine ⟨add_nonneg ha.nonneg hb.nonneg, hfinite, ?_⟩
  calc |fRat (numAdd c a b) - (s + t) * k|
      = |(fRat (numAdd c a b) - (fRat a + fRat b)) + ((fRat a - s * k) + (fRat b - t * k))| := by congr 1; ring
    _ ≤ roundUnit + (m * roundUnit + n * roundUnit) :=
        (abs_add_le _ _).trans (add_le_add hround ((abs_add_le _ _).trans (add_le_add ha.near hb.near)))
    _ = (m + n + 1) * roundUnit := by ring

/-- A constant factor scales the multiple and its error. -/
theorem numMul_const_multipleWithin {s m p : ℚ} {a w : F} (ha : MultipleWithin k s m a) (hw : HasValue w p)
    (hp : 0 ≤ p) (hle : (s + m * roundUnit) * p ≤ 32) : MultipleWithin k (s * p) (m * p + 1) (numMul c a w) := by
  obtain ⟨hwFinite, rfl⟩ := hw
  have haLe := abs_le_of_multipleWithin hk0 hk1 ha
  have hprod : |fRat a * fRat w| ≤ 32 := by
    rw [abs_mul, abs_of_nonneg hp]
    exact (mul_le_mul_of_nonneg_right haLe hp).trans hle
  have hscaled : |(fRat a - s * k) * fRat w| ≤ m * roundUnit * fRat w := by
    rw [abs_mul, abs_of_nonneg hp]
    exact mul_le_mul_of_nonneg_right ha.near hp
  obtain ⟨hfinite, hround⟩ := numMul_rounds hc ha.finite hwFinite hprod
  refine ⟨mul_nonneg ha.nonneg hp, hfinite, ?_⟩
  calc |fRat (numMul c a w) - s * fRat w * k|
      = |(fRat (numMul c a w) - fRat a * fRat w) + (fRat a - s * k) * fRat w| := by congr 1; ring
    _ ≤ roundUnit + m * roundUnit * fRat w := (abs_add_le _ _).trans (add_le_add hround hscaled)
    _ = (m * fRat w + 1) * roundUnit := by ring

/-- A weight of at most 1, itself rounded, times a value near `k`. -/
theorem numMul_weight_multipleWithin {m p : ℚ} {a w : F} (hw : MultipleWithin 1 p 1 w) (ha : MultipleWithin k 1 m a)
    (hp1 : p ≤ 1) (hm : m ≤ 100) : MultipleWithin k p (m + 3) (numMul c w a) := by
  have hmUnit : m * roundUnit ≤ 1 := (mul_le_mul_of_nonneg_right hm roundUnit_pos.le).trans (by norm_num [roundUnit])
  have honeUnit : 1 * roundUnit ≤ 1 := by norm_num [roundUnit]
  have haLe : |fRat a| ≤ 2 := by linarith [abs_le_of_multipleWithin hk0 hk1 ha]
  have hwLe : |fRat w| ≤ 2 := by linarith [abs_le_of_multipleWithin zero_le_one le_rfl hw]
  have hprod : |fRat w * fRat a| ≤ 32 :=
    abs_mul (fRat w) (fRat a) ▸ (mul_le_mul hwLe haLe (abs_nonneg _) zero_le_two).trans (by norm_num)
  have hweight : |(fRat w - p * 1) * fRat a| ≤ 1 * roundUnit * 2 :=
    abs_mul (fRat w - p * 1) (fRat a) ▸ mul_le_mul hw.near haLe (abs_nonneg _) (mul_nonneg zero_le_one roundUnit_pos.le)
  have hvalue : |p * (fRat a - 1 * k)| ≤ m * roundUnit := by
    rw [abs_mul, abs_of_nonneg hw.nonneg]
    exact (mul_le_of_le_one_left (abs_nonneg _) hp1).trans ha.near
  obtain ⟨hfinite, hround⟩ := numMul_rounds hc hw.finite ha.finite hprod
  refine ⟨hw.nonneg, hfinite, ?_⟩
  calc |fRat (numMul c w a) - p * k|
      = |(fRat (numMul c w a) - fRat w * fRat a) + ((fRat w - p * 1) * fRat a + p * (fRat a - 1 * k))| := by congr 1; ring
    _ ≤ roundUnit + (1 * roundUnit * 2 + m * roundUnit) :=
        (abs_add_le _ _).trans (add_le_add hround ((abs_add_le _ _).trans (add_le_add hweight hvalue)))
    _ = (m + 3) * roundUnit := by ring

end

end Sys2Proof.Machine

/-! A constant colour through the box filter and then the tent filter (44_tent_upsample.md R103, 43_box_downsample.md R99): a sample of texels near a constant is near it, and so is each filter's sum. In units of 2^-18: a sample of texels within `m` is within `4m + 15`, so the box taps are within 15 and their sum within 19, the tent taps within 91 and their sum within 93. -/

namespace Sys2Proof.Machine

/-! ### The weights of a sample (20_memory.md R38) -/

/-- The fraction of a sample's position along one axis, as a number. -/
def sampleShare (u : F) (w : ℕ) : ℚ := (sampleFrac u w : ℚ) / 2 ^ 149

theorem sampleFrac_lt (u : F) (w : ℕ) : sampleFrac u w < 2 ^ 149 := by
  have hlt := Int.emod_lt_of_pos (samplePos u w) (b := (2 ^ 149 : ℕ)) (by positivity)
  unfold sampleFrac
  omega

theorem div_two_pow_mem_unit {n : ℕ} (hn : n ≤ 2 ^ 149) : 0 ≤ (n : ℚ) / 2 ^ 149 ∧ (n : ℚ) / 2 ^ 149 ≤ 1 :=
  ⟨by positivity, (div_le_one (by positivity)).2 (by exact_mod_cast hn)⟩

/-- The rounding of a product of two parts of 2^149 is within a unit of the product of their shares. -/
theorem roundF_multipleWithin {c : Ctx} (hc : c.cfg.num = .reference) {a b : ℕ} {x y : ℚ} (ha : a ≤ 2 ^ 149) (hb : b ≤ 2 ^ 149)
    (hx : (a : ℚ) / 2 ^ 149 = x) (hy : (b : ℚ) / 2 ^ 149 = y) : MultipleWithin 1 (x * y) 1 (roundF c (a * b) (2 ^ 149)) := by
  have hone : fMag fOne = 2 ^ 149 := by decide +kernel
  obtain ⟨r, hr⟩ := roundMag_isSome_of_le (n := a * b) (Nat.two_pow_pos 149) hasValue_one.1 (hone ▸ Nat.mul_le_mul ha hb)
  have hnear := nearestEven_pack false (Nat.two_pow_pos 149) hr
  have hvalue : (if false = true then (-1 : ℚ) else 1) * (((a * b : ℕ) : ℚ) / (2 ^ 149 : ℕ) / 2 ^ 149) = x * y := by
    rw [← hx, ← hy, if_neg Bool.false_ne_true]
    push_cast
    ring
  obtain ⟨hx0, hx1⟩ := hx ▸ div_two_pow_mem_unit ha
  obtain ⟨hy0, hy1⟩ := hy ▸ div_two_pow_mem_unit hb
  have hxy : 0 ≤ x * y := mul_nonneg hx0 hy0
  have hle : |x * y| ≤ 32 := (abs_of_nonneg hxy).trans_le ((mul_le_one₀ hx1 hy0 hy1).trans (by norm_num))
  rw [hvalue] at hnear
  rw [roundF_reference hc hr]
  exact ⟨hxy, hnear.1, by rw [mul_one, one_mul]; exact hnear.abs_sub_le_roundUnit hle⟩

/-- Weights within a unit of the products of the shares `x` and `y` of the two axes and what these leave of 1. -/
structure WeightsWithin (x y : ℚ) (w : TapQuad) : Prop where
  t00 : MultipleWithin 1 ((1 - x) * (1 - y)) 1 w.t00
  t10 : MultipleWithin 1 (x * (1 - y)) 1 w.t10
  t01 : MultipleWithin 1 ((1 - x) * y) 1 w.t01
  t11 : MultipleWithin 1 (x * y) 1 w.t11

theorem sampleWeights_within {c : Ctx} (hc : c.cfg = Params.reference) (w h : ℕ) (q : SampleReq) :
    WeightsWithin (sampleShare q.u w) (sampleShare q.v h) (sampleWeights c w h q) := by
  have hnum : c.cfg.num = .reference := hc ▸ rfl
  have hrest : ∀ {n : ℕ}, n < 2 ^ 149 → ((2 ^ 149 - n : ℕ) : ℚ) / 2 ^ 149 = 1 - (n : ℚ) / 2 ^ 149 := fun {n} hn => by
    rw [Nat.cast_sub hn.le, sub_div, Nat.cast_pow, Nat.cast_ofNat, div_self (by positivity)]
  have hx := sampleFrac_lt q.u w
  have hy := sampleFrac_lt q.v h
  unfold sampleWeights
  rw [hc, subtexel_reference, subtexel_reference]
  exact ⟨roundF_multipleWithin (c := c.nth 0) hnum (Nat.sub_le _ _) (Nat.sub_le _ _) (hrest hx) (hrest hy),
    roundF_multipleWithin (c := c.nth 1) hnum hx.le (Nat.sub_le _ _) rfl (hrest hy),
    roundF_multipleWithin (c := c.nth 2) hnum (Nat.sub_le _ _) hy.le (hrest hx) rfl,
    roundF_multipleWithin (c := c.nth 3) hnum hx.le hy.le rfl rfl⟩

/-! ### Levels near a constant -/

/-- One channel of every texel of a level is within `m` units of `k`. -/
def LevelWithin (images : List Image) (texels : Memory) (r : LevelRef) (ch : F4 → F) (k m : ℚ) : Prop :=
  ∀ x y, x < (levelSize images r).1 → y < (levelSize images r).2 →
    MultipleWithin k 1 m (ch (memTexel texels (storeAddr r x y)))

/-- A level all of whose colours have a channel near a constant is near it in that channel. -/
theorem levelWithin_of_everyTexel {images : List Image} {texels : Memory} {r : LevelRef} {p : F3 → Prop} {ch : F4 → F} {k m : ℚ}
    (h : EveryTexel images texels r p) (hch : ∀ v : F4, p v.rgb → MultipleWithin k 1 m (ch v)) :
    LevelWithin images texels r ch k m := fun x y hx hy => by
  obtain ⟨v, hread, hv⟩ := h x y hx hy
  rw [memTexel_of_memRead hread]
  exact hch v hv

theorem abs_le_of_inUnit {u : F} (h : InUnit u) : |fRat u| ≤ 2 ^ 100 :=
  abs_le.2 ⟨le_trans (by norm_num) h.2.1, h.2.2.trans (by norm_num)⟩

theorem boxSample_finite {c : Ctx} (hc : c.cfg.num = .reference) {images : List Image} {r : LevelRef} {uv : F × F}
    (hr : LevelConverts images r) (hu : InUnit uv.1) (hv : InUnit uv.2) (t : BoxTap) :
    fFinite (boxSample c images r uv t).u = true ∧ fFinite (boxSample c images r uv t).v = true := by
  have hcover : ∀ t, t = .A ∨ ∃ p ∈ boxTable, p.1 = t := by
    intro t
    cases t <;> simp [boxTable]
  obtain rfl | ⟨p, hp, rfl⟩ := hcover t
  · exact ⟨hu.1, hv.1⟩
  · obtain ⟨_, hnearU, hnearV⟩ := boxSample_nearest hc hr hu.1 hv.1 (abs_le_of_inUnit hu) (abs_le_of_inUnit hv) hp
    exact ⟨hnearU.1, hnearV.1⟩

theorem tentSample_finite {c : Ctx} (hc : c.cfg = Params.reference) {images : List Image} {r : LevelRef} {uv : F × F}
    (hr : LevelConverts images r) (hu : InUnit uv.1) (hv : InUnit uv.2) (dx dy : TentOff) :
    fFinite (tentSample c images r uv dx dy).u = true ∧ fFinite (tentSample c images r uv dx dy).v = true := by
  have hrad : HasValue c.cfg.tentRadius 1 := hc ▸ hasValue_one
  have hradLe : |fRat c.cfg.tentRadius| ≤ 2 ^ 60 := by rw [hrad.2]; norm_num
  obtain ⟨hnearU, hnearV⟩ := tentSample_nearest (hc ▸ rfl) hr hu.1 hv.1 (abs_le_of_inUnit hu) (abs_le_of_inUnit hv) hrad.1 hradLe dx dy
  exact ⟨hnearU.1, hnearV.1⟩

section
variable {k : ℚ} (hk0 : 0 ≤ k) (hk1 : k ≤ 1)
include hk0 hk1

/-! ### A sample -/

/-- A blend of four values near `k` is near `k`: the four products of shares add up to 1. -/
theorem sampleBlend_multipleWithin {c : Ctx} (hc : c.cfg.num = .reference) {x y m : ℚ} {w t : TapQuad} (hw : WeightsWithin x y w)
    (hx : 0 ≤ x ∧ x ≤ 1) (hy : 0 ≤ y ∧ y ≤ 1) (hm : m ≤ 100) (h00 : MultipleWithin k 1 m t.t00) (h10 : MultipleWithin k 1 m t.t10)
    (h01 : MultipleWithin k 1 m t.t01) (h11 : MultipleWithin k 1 m t.t11) :
    MultipleWithin k 1 (4 * m + 15) (sampleBlend c w t) := by
  obtain ⟨hx0, hx1⟩ := hx
  obtain ⟨hy0, hy1⟩ := hy
  have hx' : 1 - x ≤ 1 := by linarith
  have hy' : 0 ≤ 1 - y ∧ 1 - y ≤ 1 := ⟨by linarith, by linarith⟩
  have hmUnit : m * roundUnit ≤ 1 := (mul_le_mul_of_nonneg_right hm roundUnit_pos.le).trans (by norm_num [roundUnit])
  have hunit : 20 * roundUnit ≤ 1 := by norm_num [roundUnit]
  have hterm00 := numMul_weight_multipleWithin hk0 hk1 (c := c.nth 2) hc hw.t00 h00 (mul_le_one₀ hx' hy'.1 hy'.2) hm
  have hterm10 := numMul_weight_multipleWithin hk0 hk1 (c := c.nth 3) hc hw.t10 h10 (mul_le_one₀ hx1 hy'.1 hy'.2) hm
  have hterm01 := numMul_weight_multipleWithin hk0 hk1 (c := c.nth 5) hc hw.t01 h01 (mul_le_one₀ hx' hy0 hy1) hm
  have hterm11 := numMul_weight_multipleWithin hk0 hk1 (c := c.nth 6) hc hw.t11 h11 (mul_le_one₀ hx1 hy0 hy1) hm
  have hrow0 := (numAdd_multipleWithin hk0 hk1 (c := c.nth 1) hc hterm00 hterm10 (by linarith)).weaken (t := 1 - y) (by ring) le_rfl
  have hrow1 := (numAdd_multipleWithin hk0 hk1 (c := c.nth 4) hc hterm01 hterm11 (by linarith)).weaken (t := y) (by ring) le_rfl
  exact (numAdd_multipleWithin hk0 hk1 (c := c.nth 0) hc hrow0 hrow1 (by linarith)).weaken (by ring) (by linarith)

/-- One channel of a sample of a level near `k` in that channel. -/
theorem sampleChannel_multipleWithin {c : Ctx} (hc : c.cfg = Params.reference) {images : List Image} {texels : Memory} {q : SampleReq}
    {r : LevelRef} {ch : F4 → F} {m : ℚ} (hr : LevelConverts images r) (href : q.ref = r)
    (hq : fFinite q.u = true ∧ fFinite q.v = true) (hlevel : LevelWithin images texels r ch k m) (hm : m ≤ 100) :
    MultipleWithin k 1 (4 * m + 15) (sampleChannel c images texels q ch) := by
  subst href
  have hnum : c.cfg.num = .reference := hc ▸ rfl
  obtain ⟨hw, hh⟩ := texSize_isSome.1 hr.1
  have htap : ∀ dx dy, MultipleWithin k 1 m (ch (memTexel texels (sampleTap images q dx dy))) := fun dx dy =>
    hlevel _ _ (clampIndex_lt _ hw) (clampIndex_lt _ hh)
  rw [sampleChannel, if_pos (by rw [hq.1, hq.2]; rfl), sampleSum_reference (c := c.nth 0) hnum]
  exact sampleBlend_multipleWithin hk0 hk1 (c := (c.nth 0).nth 0) hnum (sampleWeights_within (c := c.nth 1) hc _ _ q)
    (div_two_pow_mem_unit (sampleFrac_lt _ _).le) (div_two_pow_mem_unit (sampleFrac_lt _ _).le) hm
    (htap 0 0) (htap 1 0) (htap 0 1) (htap 1 1)

/-! ### The box filter -/

theorem boxGroup_multipleWithin {c : Ctx} (hc : c.cfg.num = .reference) {f : BoxTap → F} (hf : ∀ t, MultipleWithin k 1 15 (f t))
    {w : F} {p : ℚ} (hw : HasValue w p) (hp0 : 0 ≤ p) (hp1 : p ≤ 1) (i : ℕ) (t₀ t₁ t₂ t₃ : BoxTap) :
    MultipleWithin k (4 * p) (63 * p + 1) (boxGroup c i w (f t₀) (f t₁) (f t₂) (f t₃)) := by
  have hpair := numAdd_multipleWithin hk0 hk1 (c := c.nth (i + 3)) hc (hf t₀) (hf t₁) (by norm_num [roundUnit])
  have htriple := numAdd_multipleWithin hk0 hk1 (c := c.nth (i + 2)) hc hpair (hf t₂) (by norm_num [roundUnit])
  have hsum := numAdd_multipleWithin hk0 hk1 (c := c.nth (i + 1)) hc htriple (hf t₃) (by norm_num [roundUnit])
  exact (numMul_const_multipleWithin hk0 hk1 (c := c.nth i) hc hsum hw hp0 (by norm_num [roundUnit]; linarith)).weaken
    (by ring) (by linarith)

/-- The box sum of values within 15 units of `k`: its weights add up to 1. -/
theorem boxSum_multipleWithin {c : Ctx} (hc : c.cfg.num = .reference) {f : BoxTap → F} (hf : ∀ t, MultipleWithin k 1 15 (f t)) :
    MultipleWithin k 1 19 (boxSum c f) := by
  have hinner := boxGroup_multipleWithin hk0 hk1 hc hf hasValue_half (by norm_num) (by norm_num) 0 .B .C .D .E
  have hcorner := boxGroup_multipleWithin hk0 hk1 hc hf hasValue_eighth (by norm_num) (by norm_num)
  rw [boxSum_reference hc]
  have htopLeft := numAdd_multipleWithin hk0 hk1 (c := c.nth 24) hc hinner (hcorner 4 .F .G .I .A) (by norm_num [roundUnit])
  have htopRight := numAdd_multipleWithin hk0 hk1 (c := c.nth 23) hc htopLeft (hcorner 8 .G .H .J .A) (by norm_num [roundUnit])
  have hbottomLeft := numAdd_multipleWithin hk0 hk1 (c := c.nth 22) hc htopRight (hcorner 12 .I .K .L .A) (by norm_num [roundUnit])
  have hbottomRight := numAdd_multipleWithin hk0 hk1 (c := c.nth 21) hc hbottomLeft (hcorner 16 .J .L .M .A) (by norm_num [roundUnit])
  exact (numMul_const_multipleWithin hk0 hk1 (c := c.nth 20) hc hbottomRight hasValue_quarter (by norm_num) (by norm_num [roundUnit])).weaken
    (by norm_num) (by norm_num)

/-- One channel of the box filter of a level that is constant in it, each tap sampled and the sum made anywhere. -/
theorem boxChannel_multipleWithin {c c' : Ctx} {place : BoxTap → Ctx} (hc : c.cfg = Params.reference) (hc' : c'.cfg = Params.reference)
    (hplace : ∀ t, (place t).cfg = Params.reference) {images : List Image} {texels : Memory} {r : LevelRef} {uv : F × F}
    {ch : F4 → F} (hr : LevelConverts images r) (hu : InUnit uv.1) (hv : InUnit uv.2) (hlevel : LevelWithin images texels r ch k 0) :
    MultipleWithin k 1 19 (boxSum c' fun t => sampleChannel (place t) images texels (boxSample c images r uv t) ch) := by
  refine boxSum_multipleWithin hk0 hk1 (hc' ▸ rfl) fun t => ?_
  exact (sampleChannel_multipleWithin hk0 hk1 (hplace t) hr (boxSample_ref c images r uv t)
    (boxSample_finite (hc ▸ rfl) hr hu hv t) hlevel (by norm_num)).weaken rfl (by norm_num)

/-! ### The tent filter -/

/-- The tent sum of values within 91 units of `k`: its weights add up to 1. -/
theorem tentSum_multipleWithin {c : Ctx} (hc : c.cfg.num = .reference) {f : TentOff → TentOff → F}
    (hf : ∀ dx dy, MultipleWithin k 1 91 (f dx dy)) : MultipleWithin k 1 93 (tentSum c f) := by
  have hdouble : ∀ i dx dy, MultipleWithin k 2 183 (numMul (c.nth i) (f dx dy) 0x40000000#32) := fun i dx dy =>
    (numMul_const_multipleWithin hk0 hk1 (c := c.nth i) hc (hf dx dy) hasValue_two (by norm_num) (by norm_num [roundUnit])).weaken
      (by norm_num) (by norm_num)
  have hcentre := numMul_const_multipleWithin hk0 hk1 (c := c.nth 6) hc (hf .zero .zero) hasValue_four (by norm_num) (by norm_num [roundUnit])
  have hsum2 := numAdd_multipleWithin hk0 hk1 (c := c.nth 0) hc (hf .neg .neg) (hdouble 1 .zero .neg) (by norm_num [roundUnit])
  have hsum3 := numAdd_multipleWithin hk0 hk1 (c := c.nth 2) hc hsum2 (hf .pos .neg) (by norm_num [roundUnit])
  have hsum4 := numAdd_multipleWithin hk0 hk1 (c := c.nth 3) hc hsum3 (hdouble 4 .neg .zero) (by norm_num [roundUnit])
  have hsum5 := numAdd_multipleWithin hk0 hk1 (c := c.nth 5) hc hsum4 hcentre (by norm_num [roundUnit])
  have hsum6 := numAdd_multipleWithin hk0 hk1 (c := c.nth 7) hc hsum5 (hdouble 8 .pos .zero) (by norm_num [roundUnit])
  have hsum7 := numAdd_multipleWithin hk0 hk1 (c := c.nth 9) hc hsum6 (hf .neg .pos) (by norm_num [roundUnit])
  have hsum8 := numAdd_multipleWithin hk0 hk1 (c := c.nth 10) hc hsum7 (hdouble 11 .zero .pos) (by norm_num [roundUnit])
  have hsum9 := numAdd_multipleWithin hk0 hk1 (c := c.nth 12) hc hsum8 (hf .pos .pos) (by norm_num [roundUnit])
  rw [tentSum_reference hc]
  exact (numMul_const_multipleWithin hk0 hk1 (c := c.nth 13) hc hsum9 hasValue_sixteenth (by norm_num) (by norm_num [roundUnit])).weaken
    (by norm_num) (by norm_num)

/-- One channel of the tent filter of a level that holds box-filtered values of a constant. -/
theorem tentChannel_multipleWithin {c c' : Ctx} {place : TentOff → TentOff → Ctx} (hc : c.cfg = Params.reference)
    (hc' : c'.cfg = Params.reference) (hplace : ∀ dx dy, (place dx dy).cfg = Params.reference) {images : List Image} {texels : Memory}
    {r : LevelRef} {uv : F × F} {ch : F4 → F} (hr : LevelConverts images r) (hu : InUnit uv.1) (hv : InUnit uv.2)
    (hlevel : LevelWithin images texels r ch k 19) :
    MultipleWithin k 1 93 (tentSum c' fun dx dy => sampleChannel (place dx dy) images texels (tentSample c images r uv dx dy) ch) := by
  refine tentSum_multipleWithin hk0 hk1 (hc' ▸ rfl) fun dx dy => ?_
  exact (sampleChannel_multipleWithin hk0 hk1 (hplace dx dy) hr (tentSample_ref c images r uv dx dy)
    (tentSample_finite hc hr hu hv dx dy) hlevel (by norm_num)).weaken rfl (by norm_num)

end

/-! ### Colours -/

/-- Every channel of a colour is within `m` units of that channel of `k`. -/
structure ColourWithin (k : F3) (m : ℚ) (v : F3) : Prop where
  r : MultipleWithin (fRat k.r) 1 m v.r
  g : MultipleWithin (fRat k.g) 1 m v.g
  b : MultipleWithin (fRat k.b) 1 m v.b

theorem EveryTexel.imp {images : List Image} {texels : Memory} {r : LevelRef} {p p' : F3 → Prop} (h : EveryTexel images texels r p)
    (himp : ∀ v, p v → p' v) : EveryTexel images texels r p' := fun x y hx hy => by
  obtain ⟨v, hread, hv⟩ := h x y hx hy
  exact ⟨v, hread, himp v.rgb hv⟩

theorem near_of_multipleWithin {v x : F} (h : MultipleWithin (fRat v) 1 93 x) : Near (1 / 1000) v x := by
  obtain ⟨_, hfinite, hnear⟩ := h
  rw [one_mul] at hnear
  exact ⟨hfinite, hnear.trans (by norm_num [roundUnit])⟩

section
variable {c : Ctx} (hc : c.cfg = Params.reference) {images : List Image} {texels : Memory} {r : LevelRef} {k : F3} {uv : F × F}
  (hr : LevelConverts images r) (hkr : InUnit k.r) (hkg : InUnit k.g) (hkb : InUnit k.b) (hu : InUnit uv.1) (hv : InUnit uv.2)
include hc hr hkr hkg hkb hu hv

theorem boxDownsample13_within (h : EveryTexel images texels r (ColourWithin k 0)) :
    ColourWithin k 19 (boxDownsample13 c images texels r uv) := by
  obtain ⟨_, hr0, hr1⟩ := hkr
  obtain ⟨_, hg0, hg1⟩ := hkg
  obtain ⟨_, hb0, hb1⟩ := hkb
  exact
    { r := boxChannel_multipleWithin hr0 hr1 (c' := c.nth 3) (place := fun t => ((c.nth 2).nth (boxPlace t)).nth 0) hc hc
        (fun _ => hc) hr hu hv (levelWithin_of_everyTexel h fun _ hv => hv.r)
      g := boxChannel_multipleWithin hg0 hg1 (c' := c.nth 4) (place := fun t => ((c.nth 2).nth (boxPlace t)).nth 1) hc hc
        (fun _ => hc) hr hu hv (levelWithin_of_everyTexel h fun _ hv => hv.g)
      b := boxChannel_multipleWithin hb0 hb1 (c' := c.nth 5) (place := fun t => ((c.nth 2).nth (boxPlace t)).nth 2) hc hc
        (fun _ => hc) hr hu hv (levelWithin_of_everyTexel h fun _ hv => hv.b) }

theorem tentUpsample9_within (h : EveryTexel images texels r (ColourWithin k 19)) :
    ColourWithin k 93 (tentUpsample9 c images texels r uv) := by
  obtain ⟨_, hr0, hr1⟩ := hkr
  obtain ⟨_, hg0, hg1⟩ := hkg
  obtain ⟨_, hb0, hb1⟩ := hkb
  exact
    { r := tentChannel_multipleWithin hr0 hr1 (c' := c.nth 3)
        (place := fun dx dy => (((c.nth 2).nth (tentPlace dx)).nth (tentPlace dy)).nth 0) hc hc
        (fun _ _ => hc) hr hu hv (levelWithin_of_everyTexel h fun _ hv => hv.r)
      g := tentChannel_multipleWithin hg0 hg1 (c' := c.nth 4)
        (place := fun dx dy => (((c.nth 2).nth (tentPlace dx)).nth (tentPlace dy)).nth 1) hc hc
        (fun _ _ => hc) hr hu hv (levelWithin_of_everyTexel h fun _ hv => hv.g)
      b := tentChannel_multipleWithin hb0 hb1 (c' := c.nth 5)
        (place := fun dx dy => (((c.nth 2).nth (tentPlace dx)).nth (tentPlace dy)).nth 2) hc hc
        (fun _ _ => hc) hr hu hv (levelWithin_of_everyTexel h fun _ hv => hv.b) }

end

/-- Settles O56: the box filter leaves every texel within 19 units of 2^-18 of the constant, the tent filter of those texels is within 93, less than 1/1000. -/
theorem constantSurvivesBoxThenTent : Obligations.ConstantSurvivesBoxThenTent := by
  intro c images images' texels texels' r r' k uv hc hr hr' hkr hkg hkb hu hv hconst hbox
  have hself : ColourWithin k 0 k := ⟨multipleWithin_self hkr.1, multipleWithin_self hkg.1, multipleWithin_self hkb.1⟩
  have hconst' : EveryTexel images texels r (ColourWithin k 0) := hconst.imp fun v hvk => by rwa [hvk]
  have hbox' : EveryTexel images' texels' r' (ColourWithin k 19) := hbox.imp fun v hvBox => by
    obtain ⟨c', uv', hc', hu', hv', rfl⟩ := hvBox
    exact boxDownsample13_within hc' hr hkr hkg hkb hu' hv' hconst'
  obtain ⟨hnearR, hnearG, hnearB⟩ := tentUpsample9_within hc hr' hkr hkg hkb hu hv hbox'
  exact ⟨near_of_multipleWithin hnearR, near_of_multipleWithin hnearG, near_of_multipleWithin hnearB⟩

end Sys2Proof.Machine

/-! The end points of the combine law, whose three operations are exact there (45_combine.md R105, R106). -/

namespace Sys2Proof.Machine

section
variable {c : Ctx} (hc : c.cfg.num = .reference)
include hc

/-- The difference is exact where a finite value stands for it. -/
theorem numSub_hasValue {a b z : F} {p q : ℚ} (ha : HasValue a p) (hb : HasValue b q) (hz : HasValue z (p - q)) :
    HasValue (numSub c a b) (p - q) := by
  obtain ⟨haFinite, rfl⟩ := ha
  obtain ⟨hbFinite, rfl⟩ := hb
  obtain ⟨hzFinite, hzValue⟩ := hz
  have hnear := numSub_nearest hc haFinite hbFinite (hzValue ▸ not_overflows_fRat hzFinite)
  exact ⟨hnear.1, hnear.exact hzFinite hzValue⟩

/-- The law is its last sum, wherever the scaled difference has a value and the sum is one of the format. -/
theorem combineChannel_hasValue {e n k z : F} {p : ℚ} (hn : fFinite n = true)
    (hscaled : HasValue (numMul (c.nth 1) k (numSub (c.nth 2) e n)) p) (hz : HasValue z (p + fRat n)) :
    HasValue (combineChannel c e n k) (p + fRat n) := by
  rw [combineChannel, evaluated_reference (c := c.nth 3) hc]
  exact numAdd_hasValue (c := c.nth 0) hc hscaled ⟨hn, rfl⟩ hz

variable {e n k : F} (he : fFinite e = true) (hn : fFinite n = true) (hk : fFinite k = true)
include he hn hk

/-- At 0 the difference need not be exact: any finite value of it is multiplied to zero. -/
theorem combineChannel_zero (hk0 : fRat k = 0) (hover : ¬ Overflows (fRat e - fRat n)) :
    fRat (combineChannel c e n k) = fRat n := by
  have hdiff := numSub_nearest (c := c.nth 2) hc he hn hover
  have hscaled := numMul_zero (c := c.nth 1) hc hk hdiff.1 (by rw [hk0, zero_mul])
  exact (combineChannel_hasValue hc hn hscaled ⟨hn, (zero_add _).symm⟩).2.trans (zero_add _)

/-- At 1 the exact difference is kept, and added to `n` it restores `e`. -/
theorem combineChannel_one {z : F} (hk1 : fRat k = 1) (hz : HasValue z (fRat e - fRat n)) :
    fRat (combineChannel c e n k) = fRat e := by
  have hdiff := numSub_hasValue (c := c.nth 2) hc ⟨he, rfl⟩ ⟨hn, rfl⟩ hz
  have hscaled := numMul_hasValue (c := c.nth 1) hc ⟨hk, hk1⟩ hdiff ((one_mul (fRat e - fRat n)).symm ▸ hz)
  rw [one_mul] at hscaled
  exact (combineChannel_hasValue hc hn hscaled ⟨he, (sub_add_cancel _ _).symm⟩).2.trans (sub_add_cancel _ _)

end

/-- Settles O57: at 0 nothing is added to the new contribution, at 1 the exact difference. -/
theorem combineEndPoints : Obligations.CombineEndPoints := by
  intro c e n k hc he hn hk
  exact ⟨combineChannel_zero hc he hn hk, fun hk1 ⟨_, hz⟩ => combineChannel_one hc he hn hk hk1 hz⟩

end Sys2Proof.Machine

/-! Operations on values whose magnitude a power of two bounds, and operations that a zero or a one makes exact (40_numerics.md R69, R72). -/

namespace Sys2Proof.Machine

/-! ### Equal values -/

theorem toNat_mod_two_of_fRat_eq {u v : F} (h : fRat v = fRat u) : v.toNat % 2 = u.toNat % 2 := by
  have hmag : (fMag v : ℚ) / 2 ^ 149 = (fMag u : ℚ) / 2 ^ 149 := by rw [← abs_fRat, ← abs_fRat, h]
  rw [div_left_inj' (by positivity), Nat.cast_inj, fMag_eq_bitsMag, fMag_eq_bitsMag] at hmag
  have hbits := bitsMag_strictMono.injective hmag
  omega

/-- Two finite values that are equal are nearest to the same numbers: they differ in the sign of a zero at most. -/
theorem NearestEven.of_hasValue {q : ℚ} {u v : F} (h : NearestEven q u) (hv : HasValue v (fRat u)) : NearestEven q v := by
  refine ⟨hv.1, fun z hz => ?_⟩
  rw [hv.2, toNat_mod_two_of_fRat_eq hv.2]
  exact h.2 z hz

/-! ### Magnitudes up to a power of two -/

theorem exists_hasValue_two_pow {n : ℕ} (hn : n ≤ 127) : ∃ z, HasValue z (2 ^ n) := by
  obtain ⟨z, hz, _⟩ := exists_hasValue_scaled (n := 2 ^ 24) (e := n + 125) le_rfl (by omega)
  have hvalue : ((2 ^ 24 * 2 ^ (n + 125) : ℕ) : ℚ) / 2 ^ 149 = 2 ^ n := by
    rw [Nat.cast_mul, Nat.cast_pow, Nat.cast_pow, Nat.cast_ofNat, ← pow_add, show 24 + (n + 125) = n + 149 by omega, pow_add]
    exact mul_div_cancel_right₀ _ (by positivity)
  exact ⟨z, hvalue ▸ hz⟩

/-- Rounding passes a finite value and its opposite in neither direction. -/
theorem NearestReal.abs_le_fRat {q : ℝ} {v z : F} (h : NearestReal q v) (hz : fFinite z = true) (hq : |q| ≤ fRat z) :
    |fRat v| ≤ fRat z := by
  obtain ⟨hlow, hhigh⟩ := abs_le.1 hq
  have habove := (h.2 z hz).1
  have hbelow := (h.2 (fFlip z) (fFinite_fFlip hz)).1
  rw [abs_of_nonneg (sub_nonneg.2 hhigh)] at habove
  rw [fRat_fFlip hz, Rat.cast_neg, abs_of_nonpos (sub_nonpos.2 hlow)] at hbelow
  have hreal : |(fRat v : ℝ)| ≤ fRat z :=
    abs_le.2 ⟨by linarith [neg_abs_le ((fRat v : ℝ) - q)], by linarith [le_abs_self ((fRat v : ℝ) - q)]⟩
  exact_mod_cast hreal

/-- A finite value of at most 2^n in magnitude. -/
structure UpTo (n : ℕ) (v : F) : Prop where
  finite : fFinite v = true
  abs_le : |fRat v| ≤ 2 ^ n

theorem NearestReal.upTo {q : ℝ} {v : F} {n : ℕ} (h : NearestReal q v) (hn : n ≤ 127) (hq : |q| ≤ 2 ^ n) : UpTo n v := by
  obtain ⟨z, hz, hvalue⟩ := exists_hasValue_two_pow hn
  refine ⟨h.1, hvalue ▸ h.abs_le_fRat hz ?_⟩
  rw [hvalue]
  exact_mod_cast hq

theorem NearestEven.upTo {q : ℚ} {v : F} {n : ℕ} (h : NearestEven q v) (hn : n ≤ 127) (hq : |q| ≤ 2 ^ n) : UpTo n v :=
  (nearestEven_iff_real.1 h).upTo hn (by exact_mod_cast hq)

theorem UpTo.mono {m n : ℕ} {v : F} (h : UpTo m v) (hmn : m ≤ n) : UpTo n v :=
  ⟨h.finite, h.abs_le.trans (pow_le_pow_right₀ one_le_two hmn)⟩

theorem InUnit.upTo {v : F} (h : InUnit v) : UpTo 0 v :=
  ⟨h.1, by rw [abs_of_nonneg h.2.1, pow_zero]; exact h.2.2⟩

theorem upTo_one : UpTo 0 fOne := ⟨hasValue_one.1, by rw [hasValue_one.2]; norm_num⟩

theorem UpTo.mul_le {i j : ℕ} {a b : F} (ha : UpTo i a) (hb : UpTo j b) : |fRat a * fRat b| ≤ 2 ^ (i + j) := by
  rw [abs_mul, pow_add]
  exact mul_le_mul ha.abs_le hb.abs_le (abs_nonneg _) (by positivity)

theorem UpTo.add_le {n : ℕ} {a b : F} (ha : UpTo n a) (hb : UpTo n b) : |fRat a + fRat b| ≤ 2 ^ (n + 1) := by
  have hsum := abs_add_le (fRat a) (fRat b)
  rw [pow_succ]
  linarith [ha.abs_le, hb.abs_le]

theorem UpTo.sub_le {n : ℕ} {a b : F} (ha : UpTo n a) (hb : UpTo n b) : |fRat a - fRat b| ≤ 2 ^ (n + 1) := by
  have hdiff := abs_sub (fRat a) (fRat b)
  rw [pow_succ]
  linarith [ha.abs_le, hb.abs_le]

section
variable {c : Ctx} (hc : c.cfg.num = .reference) {a b : F} {i j n : ℕ}
include hc

theorem UpTo.mul_nearest (ha : UpTo i a) (hb : UpTo j b) (hij : i + j ≤ 127) :
    NearestEven (fRat a * fRat b) (numMul c a b) :=
  numMul_nearest hc ha.finite hb.finite (not_overflows_of_abs_le_two_pow hij (ha.mul_le hb))

theorem UpTo.add_nearest (ha : UpTo n a) (hb : UpTo n b) (hn : n + 1 ≤ 127) :
    NearestEven (fRat a + fRat b) (numAdd c a b) :=
  ((addExact_roundedOnce a b).numApply hc .add ha.finite hb.finite).1
    (not_overflows_of_abs_le_two_pow hn (ha.add_le hb))

theorem UpTo.sub_nearest (ha : UpTo n a) (hb : UpTo n b) (hn : n + 1 ≤ 127) :
    NearestEven (fRat a - fRat b) (numSub c a b) :=
  numSub_nearest hc ha.finite hb.finite (not_overflows_of_abs_le_two_pow hn (ha.sub_le hb))

/-- Nothing is taken away by a zero. -/
theorem numSub_zero_right {q : ℚ} (ha : HasValue a q) (hb : HasValue b 0) : HasValue (numSub c a b) q := by
  simpa using numSub_hasValue hc ha hb (by simpa using ha)

theorem numAdd_zero_left {q : ℚ} (ha : HasValue a 0) (hb : HasValue b q) : HasValue (numAdd c a b) q := by
  simpa using numAdd_hasValue hc ha hb (by simpa using hb)

theorem numMul_one_right {q : ℚ} (ha : HasValue a q) (hb : HasValue b 1) : HasValue (numMul c a b) q := by
  simpa using numMul_hasValue hc ha hb (by simpa using ha)

end

/-! ### The clamp to [0, 1] -/

theorem fClamp_unit_hasValue (c : Ctx) {x : F} (hx : fFinite x = true) :
    HasValue (fClamp c x 0#32 fOne) (min (max (fRat x) 0) 1) := by
  have hclamp := fClamp_hasValue c hasValue_zero.1 hasValue_one.1 hx (by rw [hasValue_zero.2, hasValue_one.2]; norm_num)
  rwa [hasValue_zero.2, hasValue_one.2] at hclamp

end Sys2Proof.Machine

/-! The ACES curve: a quotient whose denominator stays above its constant term, then a clamp (46_tonemap.md R115). -/

namespace Sys2Proof.Machine

/-- The product `x·(a·x + b)`, its three operations at the places `i`, `j`, `k`. -/
def affineProduct (c : Ctx) (i j k : ℕ) (a b x : F) : F :=
  numMul (c.nth i) x (numAdd (c.nth j) (numMul (c.nth k) a x) b)

/-- The denominator of R115. -/
def acesDenominator (c : Ctx) (x : F) : F := numAdd (c.nth 3) (affineProduct c 4 5 6 acesC acesD x) acesE

theorem acesTonemap_eq {c : Ctx} (hc : c.cfg.num = .reference) (x : F) :
    acesTonemap c x =
      fClamp (c.nth 7) (numDiv (c.nth 8) (affineProduct c 0 1 2 acesA acesB x) (acesDenominator c x)) 0#32 fOne :=
  evaluated_reference (c := c.nth 9) hc _ _ _

theorem upTo_acesA : UpTo 2 acesA := ⟨by decide, by decide +kernel⟩
theorem upTo_acesB : UpTo 2 acesB := ⟨by decide, by decide +kernel⟩
theorem upTo_acesC : UpTo 2 acesC := ⟨by decide, by decide +kernel⟩
theorem upTo_acesD : UpTo 2 acesD := ⟨by decide, by decide +kernel⟩
theorem upTo_acesE : UpTo 2 acesE := ⟨by decide, by decide +kernel⟩

theorem acesE_ge : 1 / 8 ≤ fRat acesE := by decide +kernel

section
variable {c : Ctx} (hc : c.cfg.num = .reference) {x : F} (hx : UpTo 60 x)
include hc hx

theorem affineProduct_nearest {a b : F} (ha : UpTo 2 a) (hb : UpTo 2 b) (i j k : ℕ) :
    ∃ p s : F, NearestEven (fRat a * fRat x) p ∧ NearestEven (fRat p + fRat b) s ∧
      NearestEven (fRat x * fRat s) (affineProduct c i j k a b x) ∧ UpTo 123 (affineProduct c i j k a b x) := by
  have hp := ha.mul_nearest (c := c.nth k) hc hx (by norm_num)
  have hpUpTo := hp.upTo (by norm_num) (ha.mul_le hx)
  have hs := hpUpTo.add_nearest (c := c.nth j) hc (hb.mono (by norm_num)) (by norm_num)
  have hsUpTo := hs.upTo (by norm_num) (hpUpTo.add_le (hb.mono (by norm_num)))
  have hproduct := hx.mul_nearest (c := c.nth i) hc hsUpTo (by norm_num)
  exact ⟨_, _, hp, hs, hproduct, hproduct.upTo (by norm_num) (hx.mul_le hsUpTo)⟩

theorem affineProduct_nonneg {a b : F} (ha : UpTo 2 a) (hb : UpTo 2 b) (hx0 : 0 ≤ fRat x) (ha0 : 0 ≤ fRat a)
    (hb0 : 0 ≤ fRat b) (i j k : ℕ) : 0 ≤ fRat (affineProduct c i j k a b x) := by
  obtain ⟨p, s, hp, hs, hproduct, _⟩ := affineProduct_nearest hc hx ha hb i j k
  have hp0 := hp.nonneg (mul_nonneg ha0 hx0)
  exact hproduct.nonneg (mul_nonneg hx0 (hs.nonneg (add_nonneg hp0 hb0)))

theorem affineProduct_zero {a b : F} (ha : UpTo 2 a) (hb : UpTo 2 b) (hx0 : fRat x = 0) (i j k : ℕ) :
    fRat (affineProduct c i j k a b x) = 0 := by
  obtain ⟨_, s, _, _, hproduct, _⟩ := affineProduct_nearest hc hx ha hb i j k
  rw [hx0, zero_mul] at hproduct
  exact hproduct.exact hasValue_zero.1 hasValue_zero.2

/-- The denominator is not below its constant term, which is a value of the format. -/
theorem acesDenominator_ge (hx0 : 0 ≤ fRat x) :
    fFinite (acesDenominator c x) = true ∧ 1 / 8 ≤ fRat (acesDenominator c x) := by
  obtain ⟨_, _, _, _, _, hUpTo⟩ := affineProduct_nearest hc hx upTo_acesC upTo_acesD 4 5 6
  have hproduct0 := affineProduct_nonneg hc hx upTo_acesC upTo_acesD hx0 (by decide +kernel) (by decide +kernel) 4 5 6
  have hsum := hUpTo.add_nearest (c := c.nth 3) hc (upTo_acesE.mono (by norm_num)) (by norm_num)
  exact ⟨hsum.1, acesE_ge.trans (hsum.ge_of_ge upTo_acesE.finite (le_add_of_nonneg_left hproduct0))⟩

theorem acesQuotient_nearest (hx0 : 0 ≤ fRat x) :
    NearestEven (fRat (affineProduct c 0 1 2 acesA acesB x) / fRat (acesDenominator c x))
      (numDiv (c.nth 8) (affineProduct c 0 1 2 acesA acesB x) (acesDenominator c x)) := by
  obtain ⟨_, _, _, _, _, hnum⟩ := affineProduct_nearest hc hx upTo_acesA upTo_acesB 0 1 2
  obtain ⟨hden, hdenGe⟩ := acesDenominator_ge hc hx hx0
  have hpos : 0 < fRat (acesDenominator c x) := lt_of_lt_of_le (by norm_num) hdenGe
  refine numDiv_nearest (c := c.nth 8) hc hnum.finite hden hpos.ne' (not_overflows_of_abs_le_two_pow (n := 126) (by norm_num) ?_)
  rw [abs_div, abs_of_pos hpos, div_le_iff₀ hpos]
  calc |fRat (affineProduct c 0 1 2 acesA acesB x)| ≤ 2 ^ 123 := hnum.abs_le
    _ = 2 ^ 126 * (1 / 8) := by norm_num
    _ ≤ 2 ^ 126 * fRat (acesDenominator c x) := by gcongr

end

/-- Settles O59: the quotient is finite, its denominator being at least `e`; the clamp does the rest, and keeps a zero. -/
theorem acesStaysInUnit : Obligations.AcesStaysInUnit := by
  intro c x hc hx hx0 hxLe
  have hxUpTo : UpTo 60 x := ⟨hx, (abs_of_nonneg hx0).trans_le hxLe⟩
  have hquotient := acesQuotient_nearest hc hxUpTo hx0
  obtain ⟨hfinite, hvalue⟩ := fClamp_unit_hasValue (c.nth 7) hquotient.1
  rw [acesTonemap_eq hc]
  refine ⟨⟨hfinite, ?_, ?_⟩, fun hzero => ?_⟩
  · rw [hvalue]
    exact le_min (le_max_right _ _) zero_le_one
  · rw [hvalue]
    exact min_le_right _ _
  · rw [affineProduct_zero hc hxUpTo upTo_acesA upTo_acesB hzero, zero_div] at hquotient
    rw [hvalue, hquotient.exact hasValue_zero.1 hasValue_zero.2]
    norm_num

end Sys2Proof.Machine

/-! The GT weights: the smoothstep that rounds between its end points, the three weights, and the piece they select (46_tonemap.md R110, R111; 40_numerics.md R73). -/

namespace Sys2Proof.Machine

/-! ### The cubic of the smoothstep (40_numerics.md R73) -/

theorem hasValue_three : HasValue 0x40400000#32 3 := ⟨by decide, by decide +kernel⟩

/-- The cubic `t·t·(3 - 2t)` of `smoothstep`, as it is computed. -/
def smoothCubic (c : Ctx) (t : F) : F :=
  numMul (c.nth 4) (numMul (c.nth 5) t t) (numSub (c.nth 6) 0x40400000#32 (numMul (c.nth 7) 0x40000000#32 t))

/-- `v` is the cubic of `t` with every operation rounded. -/
def CubicRounds (t : ℚ) (v : F) : Prop :=
  ∃ a b d : F, NearestEven (t * t) a ∧ NearestEven (2 * t) b ∧ NearestEven (3 - fRat b) d ∧ NearestEven (fRat a * fRat d) v

theorem smoothCubic_rounds {c : Ctx} (hc : c.cfg.num = .reference) {t : F} (ht : InUnit t) :
    CubicRounds (fRat t) (smoothCubic c t) := by
  have htUpTo := ht.upTo
  have htwo : UpTo 1 0x40000000#32 := ⟨hasValue_two.1, by rw [hasValue_two.2]; norm_num⟩
  have hthree : UpTo 2 0x40400000#32 := ⟨hasValue_three.1, by rw [hasValue_three.2]; norm_num⟩
  have ha := htUpTo.mul_nearest (c := c.nth 5) hc htUpTo (by norm_num)
  have hb := htwo.mul_nearest (c := c.nth 7) hc htUpTo (by norm_num)
  have haUpTo := ha.upTo (by norm_num) (htUpTo.mul_le htUpTo)
  have hbUpTo := hb.upTo (by norm_num) (htwo.mul_le htUpTo)
  have hd := hthree.sub_nearest (c := c.nth 6) hc (hbUpTo.mono (by norm_num)) (by norm_num)
  have hdUpTo := hd.upTo (by norm_num) (hthree.sub_le (hbUpTo.mono (by norm_num)))
  have hv := haUpTo.mul_nearest (c := c.nth 4) hc hdUpTo (by norm_num)
  rw [hasValue_two.2] at hb
  rw [hasValue_three.2] at hd
  exact ⟨_, _, _, ha, hb, hd, hv⟩

/-- From a half to one a value of the format is a multiple of 2^-24. -/
theorem exists_eq_div_two_pow_24 {t : F} (hlow : 1 / 2 ≤ fRat t) (hhigh : fRat t ≤ 1) :
    ∃ n : ℕ, 2 ^ 23 ≤ n ∧ n ≤ 2 ^ 24 ∧ fRat t = (n : ℚ) / 2 ^ 24 := by
  have habs := abs_fRat t
  rw [abs_of_nonneg (le_trans (by norm_num) hlow)] at habs
  have hmag : 2 ^ (125 + 23) ≤ fMag t := by
    rw [habs, le_div_iff₀ (by positivity)] at hlow
    norm_num at hlow ⊢
    exact_mod_cast hlow
  obtain ⟨n, hn⟩ : 2 ^ 125 ∣ fMag t := by
    rw [fMag_eq_bitsMag] at hmag ⊢
    exact bitsMag_dvd hmag
  have hvalue : fRat t = (n : ℚ) / 2 ^ 24 := by
    rw [habs, hn, Nat.cast_mul, Nat.cast_pow, Nat.cast_ofNat]
    field_simp
  refine ⟨n, by omega, ?_, hvalue⟩
  rw [hvalue, div_le_one (by positivity)] at hhigh
  exact_mod_cast hhigh

/-- In the lower half the rounded square is at most a quarter, and the other factor at most 3. -/
theorem cubic_product_le_of_le_half {t : ℚ} {a b d : F} (ht0 : 0 ≤ t) (ht : t ≤ 1 / 2) (ha : NearestEven (t * t) a)
    (hb : NearestEven (2 * t) b) (hd : NearestEven (3 - fRat b) d) : fRat a * fRat d ≤ 1 := by
  have ha0 := ha.nonneg (mul_nonneg ht0 ht0)
  have hb0 := hb.nonneg (by linarith)
  have hsquare : t * t ≤ 1 / 2 ^ 2 := (mul_le_mul ht ht ht0 (by norm_num)).trans_eq (by norm_num)
  have haLe := hasValue_quarter.2 ▸ ha.le_of_le hasValue_quarter.1 (by rwa [hasValue_quarter.2])
  have hdLe := hasValue_three.2 ▸ hd.le_of_le hasValue_three.1 (by rw [hasValue_three.2]; linarith)
  calc fRat a * fRat d ≤ fRat a * 3 := mul_le_mul_of_nonneg_left hdLe ha0
    _ ≤ 1 / 2 ^ 2 * 3 := mul_le_mul_of_nonneg_right haLe (by norm_num)
    _ ≤ 1 := by norm_num

/-- In the upper half `2t` and `3 - 2t` are exact, and the square rounds up by at most its distance `(1 - t)²` from `2t - 1`, which is a value of the format. -/
theorem cubic_product_le_of_half_le {t a b d : F} (htLow : 1 / 2 ≤ fRat t) (htHigh : fRat t ≤ 1)
    (ha : NearestEven (fRat t * fRat t) a) (hb : NearestEven (2 * fRat t) b) (hd : NearestEven (3 - fRat b) d) :
    fRat a * fRat d ≤ 1 := by
  obtain ⟨n, hnLow, hnHigh, ht⟩ := exists_eq_div_two_pow_24 htLow htHigh
  obtain ⟨z, hz, hzValue⟩ := exists_hasValue_div_two_pow (n := n) (k := 23) hnHigh (by norm_num)
  obtain ⟨y, hy, hyValue⟩ := exists_hasValue_div_two_pow (n := 3 * 2 ^ 23 - n) (k := 23) (by omega) (by norm_num)
  obtain ⟨w, hw, hwValue⟩ := exists_hasValue_div_two_pow (n := 2 * n - 2 ^ 24) (k := 24) (by omega) (by norm_num)
  rw [Nat.cast_sub (by omega)] at hyValue hwValue
  push_cast at hyValue hwValue
  have hbValue : fRat b = 2 * fRat t := hb.exact hz (by rw [hzValue, ht]; ring)
  rw [hbValue] at hd
  have hdValue : fRat d = 3 - 2 * fRat t := hd.exact hy (by rw [hyValue, ht]; ring)
  have hwDist : fRat w - fRat t * fRat t = -(1 - fRat t) ^ 2 := by rw [hwValue, ht]; ring
  have haNear := (ha.2 w hw).1
  rw [hwDist, abs_neg, abs_of_nonneg (sq_nonneg (1 - fRat t))] at haNear
  have haLe : fRat a ≤ fRat t * fRat t + (1 - fRat t) ^ 2 := by linarith [le_abs_self (fRat a - fRat t * fRat t)]
  have hslack : 0 ≤ (1 - fRat t) ^ 2 * (4 * fRat t - 2) := mul_nonneg (sq_nonneg _) (by linarith)
  calc fRat a * fRat d ≤ (fRat t * fRat t + (1 - fRat t) ^ 2) * (3 - 2 * fRat t) := by
        rw [hdValue]
        exact mul_le_mul_of_nonneg_right haLe (by linarith)
    _ = 1 - (1 - fRat t) ^ 2 * (4 * fRat t - 2) := by ring
    _ ≤ 1 := by linarith

/-- The rounded cubic of a value in [0, 1] stays in it. -/
theorem CubicRounds.inUnit {t v : F} (ht : InUnit t) (h : CubicRounds (fRat t) v) : InUnit v := by
  obtain ⟨_, ht0, ht1⟩ := ht
  obtain ⟨a, b, d, ha, hb, hd, hv⟩ := h
  have ha0 := ha.nonneg (mul_nonneg ht0 ht0)
  have hbLe : fRat b ≤ 2 := hasValue_two.2 ▸ hb.le_of_le hasValue_two.1 (by rw [hasValue_two.2]; linarith)
  have hd0 := hd.nonneg (by linarith)
  have hproduct : fRat a * fRat d ≤ 1 := by
    rcases le_total (fRat t) (1 / 2) with hhalf | hhalf
    · exact cubic_product_le_of_le_half ht0 hhalf ha hb hd
    · exact cubic_product_le_of_half_le hhalf ht1 ha hb hd
  exact ⟨hv.1, hv.nonneg (mul_nonneg ha0 hd0), hasValue_one.2 ▸ hv.le_of_le hasValue_one.1 (by rwa [hasValue_one.2])⟩

theorem CubicRounds.zero {v : F} (h : CubicRounds 0 v) : fRat v = 0 := by
  obtain ⟨a, _, d, ha, _, _, hv⟩ := h
  rw [ha.exact hasValue_zero.1 (by rw [hasValue_zero.2, mul_zero]), mul_zero, zero_mul] at hv
  exact hv.exact hasValue_zero.1 hasValue_zero.2

theorem CubicRounds.one {v : F} (h : CubicRounds 1 v) : fRat v = 1 := by
  obtain ⟨a, b, d, ha, hb, hd, hv⟩ := h
  have haValue : fRat a = 1 := by rw [ha.exact hasValue_one.1 (by rw [hasValue_one.2, mul_one]), mul_one]
  have hbValue : fRat b = 2 := by rw [hb.exact hasValue_two.1 (by rw [hasValue_two.2, mul_one]), mul_one]
  rw [hbValue] at hd
  have hdValue : fRat d = 1 := by rw [hd.exact hasValue_one.1 (by rw [hasValue_one.2]; norm_num)]; norm_num
  rw [haValue, hdValue, one_mul] at hv
  exact hv.exact hasValue_one.1 hasValue_one.2

/-! ### The smoothstep from 0 to `m` -/

theorem gtM_ge : 1 / 8 ≤ fRat gtM := by decide +kernel
theorem gtM_le : fRat gtM ≤ 1 / 4 := by decide +kernel
theorem gtM_pos : 0 < fRat gtM := lt_of_lt_of_le (by norm_num) gtM_ge
theorem gtM_finite : fFinite gtM = true := by decide

/-- The `t` of R73 for the edges 0 and `m`. -/
def gtRamp (c : Ctx) (x : F) : F :=
  fClamp (c.nth 0) (numDiv (c.nth 1) (numSub (c.nth 2) x 0#32) (numSub (c.nth 3) gtM 0#32)) 0#32 fOne

theorem fSmoothstep_gtM (c : Ctx) {x : F} (hx : fFinite x = true) :
    fSmoothstep c 0#32 gtM x = smoothCubic c (gtRamp c x) := by
  have hlt : fLt 0#32 gtM = true := fLt_iff.2 (hasValue_zero.2.trans_lt gtM_pos)
  simp only [fSmoothstep, hasValue_zero.1, gtM_finite, hx, hlt, Bool.and_self, if_true]
  rfl

theorem abs_div_gtM_le {x : F} {n : ℕ} (hx : |fRat x| ≤ 2 ^ n) : |fRat x / fRat gtM| ≤ 2 ^ (n + 3) := by
  rw [abs_div, abs_of_pos gtM_pos, div_le_iff₀ gtM_pos, pow_add]
  calc |fRat x| ≤ 2 ^ n := hx
    _ = 2 ^ n * 2 ^ 3 * (1 / 8) := by ring
    _ ≤ 2 ^ n * 2 ^ 3 * fRat gtM := by gcongr; exact gtM_ge

section
variable {c : Ctx} (hc : c.cfg.num = .reference) {x : F} (hx : UpTo 100 x)
include hc hx

/-- The quotient of R73 rounds once: a difference from 0 is exact. -/
theorem gtRamp_rounds :
    ∃ q, NearestEven (fRat x / fRat gtM) q ∧ HasValue (gtRamp c x) (min (max (fRat q) 0) 1) := by
  obtain ⟨hrise, hriseValue⟩ := numSub_zero_right (c := c.nth 2) hc ⟨hx.finite, rfl⟩ hasValue_zero
  obtain ⟨hwidth, hwidthValue⟩ := numSub_zero_right (c := c.nth 3) hc ⟨gtM_finite, rfl⟩ hasValue_zero
  have hquotient := numDiv_nearest (c := c.nth 1) hc hrise hwidth (by rw [hwidthValue]; exact gtM_pos.ne')
    (not_overflows_of_abs_le_two_pow (n := 103) (by norm_num)
      (by rw [hriseValue, hwidthValue]; exact abs_div_gtM_le hx.abs_le))
  have hclamp := fClamp_unit_hasValue (c.nth 0) hquotient.1
  rw [hriseValue, hwidthValue] at hquotient
  exact ⟨_, hquotient, hclamp⟩

theorem gtRamp_inUnit : InUnit (gtRamp c x) := by
  obtain ⟨_, _, hfinite, hvalue⟩ := gtRamp_rounds hc hx
  rw [InUnit, hvalue]
  exact ⟨hfinite, le_min (le_max_right _ _) zero_le_one, min_le_right _ _⟩

theorem gtRamp_of_nonpos (hx0 : fRat x ≤ 0) : fRat (gtRamp c x) = 0 := by
  obtain ⟨q, hq, _, hvalue⟩ := gtRamp_rounds hc hx
  rw [hvalue, max_eq_right (hq.nonpos (div_nonpos_of_nonpos_of_nonneg hx0 gtM_pos.le))]
  norm_num

theorem gtRamp_of_ge (hxm : fRat gtM ≤ fRat x) : fRat (gtRamp c x) = 1 := by
  obtain ⟨q, hq, _, hvalue⟩ := gtRamp_rounds hc hx
  have hqGe : 1 ≤ fRat q :=
    hasValue_one.2 ▸ hq.ge_of_ge hasValue_one.1 (by rw [hasValue_one.2]; exact (one_le_div gtM_pos).2 hxm)
  rw [hvalue, min_eq_right (le_max_of_le_left hqGe)]

theorem gtRamp_of_between (hx0 : 0 < fRat x) (hxm : fRat x < fRat gtM) :
    ∃ q, NearestEven (fRat x / fRat gtM) q ∧ fRat (gtRamp c x) = fRat q := by
  obtain ⟨q, hq, _, hvalue⟩ := gtRamp_rounds hc hx
  have hqLe : fRat q ≤ 1 :=
    hasValue_one.2 ▸ hq.le_of_le hasValue_one.1 (by rw [hasValue_one.2]; exact (div_le_one gtM_pos).2 hxm.le)
  exact ⟨q, hq, by rw [hvalue, max_eq_left (hq.nonneg (div_nonneg hx0.le gtM_pos.le)), min_eq_left hqLe]⟩

/-! ### The toe weight -/

theorem gtW0_rounds :
    ∃ v, CubicRounds (fRat (gtRamp (c.nth 1) x)) v ∧ InUnit v ∧ NearestEven (1 - fRat v) (gtW0 c x) := by
  have hramp := gtRamp_inUnit (c := c.nth 1) hc hx
  have hcubic := smoothCubic_rounds (c := c.nth 1) hc hramp
  have hunit := hcubic.inUnit hramp
  have hdiff := upTo_one.sub_nearest (c := c.nth 0) hc hunit.upTo (by norm_num)
  rw [hasValue_one.2] at hdiff
  refine ⟨_, hcubic, hunit, ?_⟩
  rw [gtW0, fSmoothstep_gtM _ hx.finite]
  exact hdiff

theorem gtW0_inUnit : InUnit (gtW0 c x) := by
  obtain ⟨v, _, ⟨_, hv0, hv1⟩, hnear⟩ := gtW0_rounds hc hx
  exact ⟨hnear.1, hnear.nonneg (sub_nonneg.2 hv1),
    hasValue_one.2 ▸ hnear.le_of_le hasValue_one.1 (by rw [hasValue_one.2]; linarith)⟩

theorem gtW0_of_nonpos (hx0 : fRat x ≤ 0) : HasValue (gtW0 c x) 1 := by
  obtain ⟨v, hcubic, _, hnear⟩ := gtW0_rounds hc hx
  rw [gtRamp_of_nonpos (c := c.nth 1) hc hx hx0] at hcubic
  rw [hcubic.zero, sub_zero] at hnear
  exact ⟨hnear.1, hnear.exact hasValue_one.1 hasValue_one.2⟩

theorem gtW0_of_ge (hxm : fRat gtM ≤ fRat x) : HasValue (gtW0 c x) 0 := by
  obtain ⟨v, hcubic, _, hnear⟩ := gtW0_rounds hc hx
  rw [gtRamp_of_ge (c := c.nth 1) hc hx hxm] at hcubic
  rw [hcubic.one, sub_self] at hnear
  exact ⟨hnear.1, hnear.exact hasValue_zero.1 hasValue_zero.2⟩

end

/-! ### The shoulder weight and the linear weight -/

theorem gtS0_reference : gtS0 Params.reference = 0x3F1EB852#32 := by decide +kernel

theorem gtM_lt_gtS0 : fRat gtM < fRat 0x3F1EB852#32 := by decide +kernel

section
variable {c : Ctx} (hc : c.cfg = Params.reference) {x : F}
include hc

theorem gtW2_eq (hx : fFinite x = true) : gtW2 c x = if fRat x < fRat 0x3F1EB852#32 then 0#32 else fOne := by
  rw [gtW2, hc, gtS0_reference, fStep_finite (c.nth 2) (by decide) hx]

theorem gtW2_of_lt (hx : fFinite x = true) (hlt : fRat x < fRat 0x3F1EB852#32) : HasValue (gtW2 c x) 0 := by
  rw [gtW2_eq hc hx, if_pos hlt]
  exact hasValue_zero

theorem gtW2_of_ge (hx : fFinite x = true) (hge : fRat 0x3F1EB852#32 ≤ fRat x) : HasValue (gtW2 c x) 1 := by
  rw [gtW2_eq hc hx, if_neg (not_lt.2 hge)]
  exact hasValue_one

theorem num_of_reference : c.cfg.num = .reference := by rw [hc]; rfl

/-- Below the shoulder the linear weight is what the toe weight leaves, rounded once. -/
theorem gtW1_nearest (hw0 : InUnit (gtW0 c x)) (hw2 : HasValue (gtW2 c x) 0) :
    NearestEven (1 - fRat (gtW0 c x)) (gtW1 c x) := by
  have hnum := num_of_reference hc
  have hrest := upTo_one.sub_nearest (c := c.nth 4) hnum hw0.upTo (by norm_num)
  rw [hasValue_one.2] at hrest
  exact hrest.of_hasValue (numSub_zero_right (c := c.nth 3) hnum ⟨hrest.1, rfl⟩ hw2)

/-- The values of the three weights of R111. -/
structure GtWeights (c : Ctx) (x : F) (w0 w1 w2 : ℚ) : Prop where
  toe : HasValue (gtW0 c x) w0
  linear : HasValue (gtW1 c x) w1
  shoulder : HasValue (gtW2 c x) w2

variable (hx : UpTo 100 x)
include hx

theorem gtWeights_of_nonpos (hx0 : fRat x ≤ 0) : GtWeights c x 1 0 0 := by
  have hw0 := gtW0_of_nonpos (num_of_reference hc) hx hx0
  have hw2 := gtW2_of_lt hc hx.finite (hx0.trans_lt (gtM_pos.trans gtM_lt_gtS0))
  have hw1 := gtW1_nearest hc (gtW0_inUnit (num_of_reference hc) hx) hw2
  rw [hw0.2, sub_self] at hw1
  exact ⟨hw0, ⟨hw1.1, hw1.exact hasValue_zero.1 hasValue_zero.2⟩, hw2⟩

theorem gtWeights_of_linear (hxm : fRat gtM ≤ fRat x) (hlt : fRat x < fRat 0x3F1EB852#32) : GtWeights c x 0 1 0 := by
  have hw0 := gtW0_of_ge (num_of_reference hc) hx hxm
  have hw2 := gtW2_of_lt hc hx.finite hlt
  have hw1 := gtW1_nearest hc (gtW0_inUnit (num_of_reference hc) hx) hw2
  rw [hw0.2, sub_zero] at hw1
  exact ⟨hw0, ⟨hw1.1, hw1.exact hasValue_one.1 hasValue_one.2⟩, hw2⟩

theorem gtWeights_of_shoulder (hge : fRat 0x3F1EB852#32 ≤ fRat x) : GtWeights c x 0 0 1 := by
  have hnum := num_of_reference hc
  have hw0 := gtW0_of_ge hnum hx (gtM_lt_gtS0.le.trans hge)
  have hw2 := gtW2_of_ge hc hx.finite hge
  have hrest := numSub_zero_right (c := c.nth 4) hnum hasValue_one hw0
  have hw1 := numSub_hasValue (c := c.nth 3) hnum hrest hw2 (by rw [sub_self]; exact hasValue_zero)
  rw [sub_self] at hw1
  exact ⟨hw0, hw1, hw2⟩

end

/-- Settles O58: the ramp is 0 up to 0 and 1 from `m`, where the cubic is exact; between them the cubic stays in [0, 1]. -/
theorem gtWeightsSelectThePiece : Obligations.GtWeightsSelectThePiece := by
  intro c x hc hx hxLe
  have hnum := num_of_reference hc
  have hxUpTo : UpTo 100 x := ⟨hx, hxLe⟩
  refine ⟨by rw [hc, gtS0_reference], fun hx0 => ?_, fun hx0 hxm => ?_, fun hxm hlt => ?_, fun hge => ?_⟩
  · obtain ⟨hw0, hw1, hw2⟩ := gtWeights_of_nonpos hc hxUpTo hx0
    exact ⟨hw0.2, hw1.2, hw2.2⟩
  · obtain ⟨q, hq, hramp⟩ := gtRamp_of_between (c := c.nth 1) hnum hxUpTo hx0 hxm
    obtain ⟨v, hcubic, _, hnear⟩ := gtW0_rounds hnum hxUpTo
    rw [hramp] at hcubic
    obtain ⟨a, b, d, ha, hb, hd, hv⟩ := hcubic
    have hw0 := gtW0_inUnit hnum hxUpTo
    have hw2 := gtW2_of_lt hc hx (hxm.trans gtM_lt_gtS0)
    exact ⟨⟨q, a, b, d, v, hq, ha, hb, hd, hv, hnear⟩, hw0, gtW1_nearest hc hw0 hw2, hw2.2⟩
  · obtain ⟨hw0, hw1, hw2⟩ := gtWeights_of_linear hc hxUpTo hxm hlt
    exact ⟨hw0.2, hw1.2, hw2.2⟩
  · obtain ⟨hw0, hw1, hw2⟩ := gtWeights_of_shoulder hc hxUpTo hge
    exact ⟨hw0.2, hw1.2, hw2.2⟩

end Sys2Proof.Machine

/-! The GT pieces as their formulas round, and the GT curve as the pieces that its weights select (46_tonemap.md R112–R114). -/

namespace Sys2Proof.Machine

/-! ### The toe (R112) -/

theorem gtC_finite : fFinite gtC = true := by decide
theorem gtC_pos : 0 < fRat gtC := by decide +kernel
theorem gtC_le_two : fRat gtC ≤ 2 := by decide +kernel

/-- The exponent is at most 2, so bases up to 2^63 give powers up to 2^126. -/
theorem abs_rpow_gtC_le {q : ℝ} (hq0 : 0 ≤ q) (hq : q ≤ 2 ^ 63) : |q ^ (fRat gtC : ℝ)| ≤ 2 ^ 126 := by
  have hc0 : (0 : ℝ) ≤ fRat gtC := by exact_mod_cast gtC_pos.le
  have hc2 : (fRat gtC : ℝ) ≤ (2 : ℕ) := by exact_mod_cast gtC_le_two
  rw [abs_of_nonneg (Real.rpow_nonneg hq0 _)]
  calc q ^ (fRat gtC : ℝ) ≤ (2 ^ 63) ^ (fRat gtC : ℝ) := Real.rpow_le_rpow hq0 hq hc0
    _ ≤ (2 ^ 63) ^ ((2 : ℕ) : ℝ) := Real.rpow_le_rpow_of_exponent_le (one_le_pow₀ one_le_two) hc2
    _ = 2 ^ 126 := by rw [Real.rpow_natCast]; norm_num

theorem numPow_gtC_nearest {c : Ctx} (hc : c.cfg.num = .reference) {q : F} (hq : UpTo 63 q) (hq0 : 0 ≤ fRat q) :
    NearestReal ((fRat q : ℝ) ^ (fRat gtC : ℝ)) (numPow c q gtC) := by
  rcases hq0.eq_or_lt with hzero | hpos
  · have hpow : (fRat q : ℝ) ^ (fRat gtC : ℝ) = ((0 : ℚ) : ℝ) := by
      rw [← hzero, Rat.cast_zero, Real.zero_rpow (by exact_mod_cast gtC_pos.ne')]
    obtain ⟨hfinite, hvalue⟩ := (powOutsidePositiveBases c q gtC hq.finite gtC_finite).1 hzero.symm gtC_pos
    rw [hpow, ← nearestEven_iff_real]
    exact hvalue ▸ nearestEven_self hfinite
  · have hle : (fRat q : ℝ) ≤ 2 ^ 63 := by exact_mod_cast (le_abs_self _).trans hq.abs_le
    have hbound := (le_abs_self _).trans (abs_rpow_gtC_le (by exact_mod_cast hq0) hle)
    exact (powIsNearest c q gtC hc hq.finite gtC_finite hpos).1 (hbound.trans_lt (by norm_num))

theorem upTo_gtM : UpTo 0 gtM := ⟨gtM_finite, by rw [abs_of_pos gtM_pos, pow_zero]; linarith [gtM_le]⟩

section
variable {c : Ctx} (hc : c.cfg.num = .reference) {x : F} (hx : UpTo 60 x)
include hc hx

theorem gtToe_rounds (hx0 : 0 ≤ fRat x) :
    ∃ q p : F, NearestEven (fRat x / fRat gtM) q ∧ NearestReal ((fRat q : ℝ) ^ (fRat gtC : ℝ)) p ∧
      NearestEven (fRat gtM * fRat p) (gtToe c x) ∧ UpTo 126 (gtToe c x) := by
  have hquotient := abs_div_gtM_le hx.abs_le
  have hq := numDiv_nearest (c := c.nth 8) hc hx.finite gtM_finite gtM_pos.ne'
    (not_overflows_of_abs_le_two_pow (by norm_num) hquotient)
  have hqUpTo := hq.upTo (by norm_num) hquotient
  have hq0 := hq.nonneg (div_nonneg hx0 gtM_pos.le)
  have hp := numPow_gtC_nearest (c := c.nth 7) hc hqUpTo hq0
  have hpUpTo : UpTo 126 (numPow (c.nth 7) (numDiv (c.nth 8) x gtM) gtC) :=
    hp.upTo (by norm_num) (abs_rpow_gtC_le (by exact_mod_cast hq0) (by exact_mod_cast (le_abs_self _).trans hqUpTo.abs_le))
  have hscaled := upTo_gtM.mul_nearest (c := c.nth 6) hc hpUpTo (by norm_num)
  have htoe := hscaled.of_hasValue (numAdd_zero_right (c := c.nth 5) hc ⟨hscaled.1, rfl⟩ (b := gtB) hasValue_zero)
  exact ⟨_, _, hq, hp, htoe, htoe.upTo (by norm_num) (upTo_gtM.mul_le hpUpTo)⟩

theorem gtToe_zero (hx0 : fRat x = 0) : fRat (gtToe c x) = 0 := by
  obtain ⟨q, p, hq, hp, htoe, _⟩ := gtToe_rounds hc hx hx0.ge
  rw [hx0, zero_div] at hq
  rw [hq.exact hasValue_zero.1 hasValue_zero.2, Rat.cast_zero, Real.zero_rpow (by exact_mod_cast gtC_pos.ne'),
    ← Rat.cast_zero, ← nearestEven_iff_real] at hp
  rw [hp.exact hasValue_zero.1 hasValue_zero.2, mul_zero] at htoe
  exact htoe.exact hasValue_zero.1 hasValue_zero.2

/-! ### The linear piece (R112) -/

/-- The slope is 1, so the piece is the rounded difference, added to `m`. -/
theorem gtLinear_rounds :
    ∃ d : F, NearestEven (fRat x - fRat gtM) d ∧ NearestEven (fRat gtM + fRat d) (gtLinear c x) ∧ UpTo 62 (gtLinear c x) := by
  have hmUpTo : UpTo 60 gtM := upTo_gtM.mono (by norm_num)
  have hd := hx.sub_nearest (c := c.nth 16) hc hmUpTo (by norm_num)
  have hdUpTo := hd.upTo (by norm_num) (hx.sub_le hmUpTo)
  have hscaled : HasValue (numMul (c.nth 15) gtA (numSub (c.nth 16) x gtM)) (fRat (numSub (c.nth 16) x gtM)) :=
    numMul_one_left (c := c.nth 15) hc ⟨hd.1, rfl⟩
  have hscaledUpTo : UpTo 61 (numMul (c.nth 15) gtA (numSub (c.nth 16) x gtM)) := ⟨hscaled.1, hscaled.2 ▸ hdUpTo.abs_le⟩
  have hlinear := (hmUpTo.mono (by norm_num)).add_nearest (c := c.nth 14) hc hscaledUpTo (by norm_num)
  have hlinearUpTo := hlinear.upTo (by norm_num) ((hmUpTo.mono (by norm_num)).add_le hscaledUpTo)
  rw [hscaled.2] at hlinear
  exact ⟨_, hd, hlinear, hlinearUpTo⟩

end

/-! ### The shoulder (R112) -/

theorem gtPS1_reference : gtPS1 Params.reference = 0x3EC28F5C#32 := by decide +kernel
theorem gtCP_reference : gtCP Params.reference = 0xC0286BCA#32 := by decide +kernel

theorem upTo_gtS0 : UpTo 0 0x3F1EB852#32 := ⟨by decide, by decide +kernel⟩
theorem upTo_gtCP : UpTo 2 0xC0286BCA#32 := ⟨by decide, by decide +kernel⟩
theorem gtCP_neg : fRat 0xC0286BCA#32 < 0 := by decide +kernel
theorem gtPS1_finite : fFinite 0x3EC28F5C#32 = true := by decide
theorem abs_gtPS1_le : |fRat 0x3EC28F5C#32| ≤ 1 / 2 := by decide +kernel

theorem abs_fRat_lt_two_pow {z : F} (hz : fFinite z = true) : |fRat z| < 2 ^ 128 :=
  (not_le.1 (not_overflows_fRat hz)).trans (by norm_num)

/-- The exponent of the shoulder, `CP` times the distance from `S0`. -/
def gtShoulderExponent (c : Ctx) (x : F) : F :=
  numMul (c.nth 12) 0xC0286BCA#32 (numSub (c.nth 13) x 0x3F1EB852#32)

theorem gtShoulder_eq {c : Ctx} (hc : c.cfg = Params.reference) (x : F) :
    gtShoulder c x =
      numSub (c.nth 9) gtP (numMul (c.nth 10) 0x3EC28F5C#32 (numExp (c.nth 11) (gtShoulderExponent c x))) := by
  rw [gtShoulder, hc, gtPS1_reference, gtCP_reference, gtS0_reference]
  rfl

/-- The distance from `S0` is at least -1, so the exponent is at most 4, far from where `exp` overflows. -/
theorem gtShoulderExponent_rounds {c : Ctx} (hc : c.cfg.num = .reference) {x : F} (hx : UpTo 60 x) (hx0 : 0 ≤ fRat x) :
    ∃ d : F, NearestEven (fRat x - fRat 0x3F1EB852#32) d ∧
      NearestEven (fRat 0xC0286BCA#32 * fRat d) (gtShoulderExponent c x) ∧ fRat (gtShoulderExponent c x) ≤ 4 := by
  have hS0 : UpTo 60 0x3F1EB852#32 := upTo_gtS0.mono (by norm_num)
  have hd := hx.sub_nearest (c := c.nth 13) hc hS0 (by norm_num)
  have hz : NearestEven (fRat 0xC0286BCA#32 * fRat (numSub (c.nth 13) x 0x3F1EB852#32)) (gtShoulderExponent c x) :=
    upTo_gtCP.mul_nearest (c := c.nth 12) hc (hd.upTo (by norm_num) (hx.sub_le hS0)) (by norm_num)
  refine ⟨_, hd, hz, ?_⟩
  generalize numSub (c.nth 13) x 0x3F1EB852#32 = d at hd hz
  have hminus := hasValue_one.neg
  have hS0Le := (le_abs_self _).trans upTo_gtS0.abs_le
  have hdGe : -1 ≤ fRat d := hminus.2 ▸ hd.ge_of_ge hminus.1 (by rw [hminus.2]; linarith)
  have hproduct : fRat 0xC0286BCA#32 * fRat d ≤ 4 :=
    calc fRat 0xC0286BCA#32 * fRat d ≤ fRat 0xC0286BCA#32 * -1 := mul_le_mul_of_nonpos_left hdGe gtCP_neg.le
      _ ≤ 4 := by linarith [(abs_le.1 upTo_gtCP.abs_le).1]
  exact hasValue_four.2 ▸ hz.le_of_le hasValue_four.1 (by rwa [hasValue_four.2])

/-- Half of any finite value at most, so neither the scaled value nor its distance from 1 overflows. -/
theorem gtShoulder_difference_rounds {c : Ctx} (hc : c.cfg.num = .reference) {e : F} (he : fFinite e = true) (i j : ℕ) :
    ∃ f : F, NearestEven (fRat 0x3EC28F5C#32 * fRat e) f ∧
      NearestEven (1 - fRat f) (numSub (c.nth i) gtP (numMul (c.nth j) 0x3EC28F5C#32 e)) := by
  have hscaled : |fRat 0x3EC28F5C#32 * fRat e| ≤ 2 ^ 127 := by
    rw [abs_mul]
    exact (mul_le_mul abs_gtPS1_le (abs_fRat_lt_two_pow he).le (abs_nonneg _) (by norm_num)).trans_eq (by norm_num)
  have hf := numMul_nearest (c := c.nth j) hc gtPS1_finite he (not_overflows_of_abs_le_two_pow le_rfl hscaled)
  have hfLe := (hf.upTo le_rfl hscaled).abs_le
  have hP : HasValue gtP 1 := hasValue_one
  have hdiff := abs_sub 1 (fRat (numMul (c.nth j) 0x3EC28F5C#32 e))
  have hbound : |(1 : ℚ)| + 2 ^ 127 < 2 ^ 128 - 2 ^ 103 := by norm_num
  have hnear := numSub_nearest (c := c.nth i) hc hP.1 hf.1 (by rw [hP.2, Overflows, not_le]; linarith)
  rw [hP.2] at hnear
  exact ⟨_, hf, hnear⟩

theorem gtShoulder_rounds {c : Ctx} (hc : c.cfg = Params.reference) {x : F} (hx : UpTo 60 x) (hx0 : 0 ≤ fRat x) :
    ∃ (k : Ctx) (d z f : F), k.cfg = c.cfg ∧ NearestEven (fRat x - fRat 0x3F1EB852#32) d ∧
      NearestEven (fRat 0xC0286BCA#32 * fRat d) z ∧ fFinite (numExp k z) = true ∧
      NearestEven (fRat 0x3EC28F5C#32 * fRat (numExp k z)) f ∧ NearestEven (1 - fRat f) (gtShoulder c x) := by
  have hnum := num_of_reference hc
  obtain ⟨d, hd, hz, hzLe⟩ := gtShoulderExponent_rounds hnum hx hx0
  obtain ⟨_, hexp, _⟩ := expIsNearest (c.nth 11) _ hnum hz.1
  have hexpFinite := hexp (hzLe.trans (by norm_num))
  obtain ⟨f, hf, hshoulder⟩ := gtShoulder_difference_rounds hnum hexpFinite 9 10
  rw [← gtShoulder_eq hc] at hshoulder
  exact ⟨c.nth 11, d, _, f, rfl, hd, hz, hexpFinite, hf, hshoulder⟩

theorem gtShoulder_finite {c : Ctx} (hc : c.cfg = Params.reference) {x : F} (hx : UpTo 60 x) (hx0 : 0 ≤ fRat x) :
    fFinite (gtShoulder c x) = true := by
  obtain ⟨_, _, _, _, _, _, _, _, _, hnear⟩ := gtShoulder_rounds hc hx hx0
  exact hnear.1

/-! ### The curve (R113, R114) -/

theorem gtTonemap_eq {c : Ctx} (hc : c.cfg.num = .reference) (x : F) : gtTonemap c x =
    numAdd (c.nth 17)
      (numAdd (c.nth 18) (numMul (c.nth 19) (gtToe c x) (gtW0 c x)) (numMul (c.nth 20) (gtLinear c x) (gtW1 c x)))
      (numMul (c.nth 21) (gtShoulder c x) (gtW2 c x)) :=
  evaluated_reference (c := c.nth 22) hc _ _ _

section
variable {c : Ctx} (hc : c.cfg.num = .reference) {x : F} (htoe : fFinite (gtToe c x) = true)
  (hlinear : fFinite (gtLinear c x) = true) (hshoulder : fFinite (gtShoulder c x) = true)
include hc htoe hlinear hshoulder

theorem gtTonemap_of_toe_weights (hw : GtWeights c x 1 0 0) : HasValue (gtTonemap c x) (fRat (gtToe c x)) := by
  have ht := numMul_one_right (c := c.nth 19) hc ⟨htoe, rfl⟩ hw.toe
  have hl := numMul_zero (c := c.nth 20) hc hlinear hw.linear.1 (by rw [hw.linear.2, mul_zero])
  have hs := numMul_zero (c := c.nth 21) hc hshoulder hw.shoulder.1 (by rw [hw.shoulder.2, mul_zero])
  rw [gtTonemap_eq hc]
  exact numAdd_zero_right (c := c.nth 17) hc (numAdd_zero_right (c := c.nth 18) hc ht hl) hs

theorem gtTonemap_of_linear_weights (hw : GtWeights c x 0 1 0) : HasValue (gtTonemap c x) (fRat (gtLinear c x)) := by
  have ht := numMul_zero (c := c.nth 19) hc htoe hw.toe.1 (by rw [hw.toe.2, mul_zero])
  have hl := numMul_one_right (c := c.nth 20) hc ⟨hlinear, rfl⟩ hw.linear
  have hs := numMul_zero (c := c.nth 21) hc hshoulder hw.shoulder.1 (by rw [hw.shoulder.2, mul_zero])
  rw [gtTonemap_eq hc]
  exact numAdd_zero_right (c := c.nth 17) hc (numAdd_zero_left (c := c.nth 18) hc ht hl) hs

theorem gtTonemap_of_shoulder_weights (hw : GtWeights c x 0 0 1) : HasValue (gtTonemap c x) (fRat (gtShoulder c x)) := by
  have ht := numMul_zero (c := c.nth 19) hc htoe hw.toe.1 (by rw [hw.toe.2, mul_zero])
  have hl := numMul_zero (c := c.nth 20) hc hlinear hw.linear.1 (by rw [hw.linear.2, mul_zero])
  have hs := numMul_one_right (c := c.nth 21) hc ⟨hshoulder, rfl⟩ hw.shoulder
  rw [gtTonemap_eq hc]
  exact numAdd_zero_left (c := c.nth 17) hc (numAdd_zero_left (c := c.nth 18) hc ht hl) hs

end

/-- Without the shoulder the curve is the rounded sum of the two other weighted pieces. -/
theorem gtTonemap_blend_rounds {c : Ctx} (hc : c.cfg.num = .reference) {x : F} (htoe : UpTo 126 (gtToe c x))
    (hlinear : UpTo 126 (gtLinear c x)) (hshoulder : fFinite (gtShoulder c x) = true) (hw0 : UpTo 0 (gtW0 c x))
    (hw1 : UpTo 0 (gtW1 c x)) (hw2 : HasValue (gtW2 c x) 0) :
    ∃ a b : F, NearestEven (fRat (gtToe c x) * fRat (gtW0 c x)) a ∧
      NearestEven (fRat (gtLinear c x) * fRat (gtW1 c x)) b ∧ NearestEven (fRat a + fRat b) (gtTonemap c x) := by
  have ha := htoe.mul_nearest (c := c.nth 19) hc hw0 (by norm_num)
  have hb := hlinear.mul_nearest (c := c.nth 20) hc hw1 (by norm_num)
  have haUpTo := ha.upTo (by norm_num) (htoe.mul_le hw0)
  have hbUpTo := hb.upTo (by norm_num) (hlinear.mul_le hw1)
  have hsum := haUpTo.add_nearest (c := c.nth 18) hc hbUpTo (by norm_num)
  have hs := numMul_zero (c := c.nth 21) hc hshoulder hw2.1 (by rw [hw2.2, mul_zero])
  refine ⟨_, _, ha, hb, ?_⟩
  rw [gtTonemap_eq hc]
  exact hsum.of_hasValue (numAdd_zero_right (c := c.nth 17) hc ⟨hsum.1, rfl⟩ hs)

/-- Settles O60: each piece rounds as its formula does, and a piece of weight 0 or 1 is left out or kept exactly. -/
theorem gtFollowsItsPieces : Obligations.GtFollowsItsPieces := by
  intro c x hc hx hx0 hxLe
  have hnum := num_of_reference hc
  have hx60 : UpTo 60 x := ⟨hx, (abs_of_nonneg hx0).trans_le hxLe⟩
  have hx100 : UpTo 100 x := hx60.mono (by norm_num)
  obtain ⟨q, p, hq, hp, htoe, htoeUpTo⟩ := gtToe_rounds hnum hx60 hx0
  obtain ⟨d, hd, hlinear, hlinearUpTo⟩ := gtLinear_rounds hnum hx60
  have hshoulder := gtShoulder_finite hc hx60 hx0
  refine ⟨⟨q, p, hq, hp, htoe⟩, ⟨d, hd, hlinear⟩, gtShoulder_rounds hc hx60 hx0, fun hzero => ?_, fun hpos hxm => ?_,
    fun hxm hlt => ?_, fun hge => ?_⟩
  · have hcurve := gtTonemap_of_toe_weights hnum htoe.1 hlinear.1 hshoulder (gtWeights_of_nonpos hc hx100 hzero.le)
    rw [hcurve.2, gtToe_zero hnum hx60 hzero]
  · have hw0 := gtW0_inUnit hnum hx100
    have hw2 := gtW2_of_lt hc hx (hxm.trans gtM_lt_gtS0)
    have hw1 := gtW1_nearest hc hw0 hw2
    have hrest : |1 - fRat (gtW0 c x)| ≤ 2 ^ 0 := by
      rw [abs_of_nonneg (sub_nonneg.2 hw0.2.2), pow_zero]
      linarith [hw0.2.1]
    exact gtTonemap_blend_rounds hnum htoeUpTo (hlinearUpTo.mono (by norm_num)) hshoulder hw0.upTo
      (hw1.upTo (by norm_num) hrest) hw2
  · exact gtTonemap_of_linear_weights hnum htoe.1 hlinear.1 hshoulder (gtWeights_of_linear hc hx100 hxm hlt)
  · exact gtTonemap_of_shoulder_weights hnum htoe.1 hlinear.1 hshoulder (gtWeights_of_shoulder hc hx100 hge)

end Sys2Proof.Machine

/-! The dispatch faults: the first check that fails, in the order slots, target level, read set, target in the read set, registers, gives the fault, and the invocations' faults have codes of their own (60_exceptions.md R133–R139, R142). -/

namespace Sys2Proof.Machine

/-! ### Slots (60_exceptions.md R136) -/

/-- The error of a result that is one. -/
def errorOf {ε α : Type} : Except ε α → Option ε
  | .error e => some e
  | .ok _ => none

theorem errorOf_eq_none {ε α : Type} {x : Except ε α} : errorOf x = none ↔ ∃ a, x = .ok a := by
  cases x <;> simp [errorOf]

/-- The fault of a slot that does not exist or is unbound. -/
def slotFault (s : State) : BindTable × Nat → Option FaultRecord
  | (.input, n) => errorOf (inputSlot s n)
  | (.bloom, n) => errorOf (bloomSlot s n)
  | (.output, n) => errorOf (outputSlot s n)

theorem slotFault_eq_none {s : State} {q : BindTable × Nat} : slotFault s q = none ↔ SlotBound s q := by
  obtain ⟨table, n⟩ := q
  cases table with
  | input => exact errorOf_eq_none.trans (exists_congr fun _ => inputSlot_ok)
  | bloom => exact errorOf_eq_none.trans (exists_congr fun _ => bloomSlot_ok)
  | output => exact errorOf_eq_none.trans (exists_congr fun _ => outputSlot_ok)

theorem slotFault_eq_some {s : State} {q : BindTable × Nat} {f : FaultRecord} (h : slotFault s q = some f) :
    f = .badIndex q.1 q.2 := by
  obtain ⟨table, n⟩ := q
  cases table with
  | input | bloom | output =>
    simp only [slotFault, inputSlot, bloomSlot, outputSlot] at h
    split at h
    · cases h
    · cases h; rfl

theorem slotFault_of_not_bound {s : State} {q : BindTable × Nat} (h : ¬ SlotBound s q) :
    slotFault s q = some (.badIndex q.1 q.2) := by
  obtain ⟨f, hf⟩ := Option.ne_none_iff_exists'.1 (mt slotFault_eq_none.1 h)
  rw [hf, slotFault_eq_some hf]

/-- A plan's error is the fault of the first slot the mode uses that has one. -/
theorem errorOf_planOf (i : Instr) (s : State) : errorOf (planOf i s) = (usedSlots i).findSome? (slotFault s) := by
  cases i with
  | prefilter lod input output bloom | downsample lod input output bloom | upsampleFirst lod input output bloom =>
    simp only [planOf, planPrefilter, planDownsample, planUpsampleFirst, usedSlots, List.findSome?_cons,
      List.findSome?_nil, slotFault]
    cases inputSlot s input <;> cases outputSlot s output <;> rfl
  | upsample lod input output bloom | apply lod input output bloom =>
    simp only [planOf, planUpsample, planApply, usedSlots, List.findSome?_cons, List.findSome?_nil, slotFault]
    cases inputSlot s input <;> cases bloomSlot s bloom <;> cases outputSlot s output <;> rfl

theorem planOf_error {i : Instr} {s : State} {f : FaultRecord} :
    planOf i s = .error f ↔ (usedSlots i).findSome? (slotFault s) = some f := by
  rw [← errorOf_planOf]
  cases planOf i s <;> simp [errorOf]

/-- A fault of a plan names a slot the mode uses, which is not bound. -/
theorem planOf_error_badIndex {i : Instr} {s : State} {f : FaultRecord} (h : planOf i s = .error f) :
    ∃ q ∈ usedSlots i, ¬ SlotBound s q ∧ f = .badIndex q.1 q.2 := by
  obtain ⟨q, hq, hf⟩ := List.exists_of_findSome?_eq_some (planOf_error.1 h)
  refine ⟨q, hq, fun hbound => ?_, slotFault_eq_some hf⟩
  rw [slotFault_eq_none.2 hbound] at hf
  cases hf

/-! ### Levels, target and registers (60_exceptions.md R137–R139) -/

/-- The checks after the slots: the first that fails of the target level, the read set, the target's absence from it, and the registers (60_exceptions.md R142). -/
theorem preflight_eq_or (s : State) (reads : List LevelRef) (regs : List ParamReg) (target : LevelRef) :
    preflight s reads regs target = (checkLevel s.images .out target).or ((reads.findSome? (checkLevel s.images .read)).or
      ((checkAlias reads target).or (regs.findSome? (checkReg s.regs)))) := by
  unfold preflight
  cases checkLevel s.images .out target <;> cases reads.findSome? (checkLevel s.images .read) <;>
    cases checkAlias reads target <;> rfl

theorem checkLevel_some {images : List Image} {role : LevelRole} {r : LevelRef} {f : FaultRecord} :
    checkLevel images role r = some f ↔ ¬ (texSize images r).isSome = true ∧ f = .badLevel role r.image r.level := by
  unfold checkLevel
  split
  · simp_all
  · rw [Option.some.injEq, eq_comm]; simp_all

theorem checkAlias_some {reads : List LevelRef} {target : LevelRef} {f : FaultRecord} :
    checkAlias reads target = some f ↔ target ∈ reads ∧ f = .aliased target.image target.level := by
  unfold checkAlias; split <;> simp_all [eq_comm]

theorem checkReg_some {g : ParamRegs} {r : ParamReg} {f : FaultRecord} :
    checkReg g r = some f ↔ readReg g r = none ∧ f = .uninitParam (regNumber r) := by
  unfold checkReg
  cases readReg g r with
  | some v => simp
  | none => simp [eq_comm]

/-- Which fault the checks after the slots raise: an absent level, the target where it is read, or an unwritten register. -/
theorem preflight_some {s : State} {reads : List LevelRef} {regs : List ParamReg} {target : LevelRef} {f : FaultRecord}
    (h : preflight s reads regs target = some f) :
    (∃ (role : LevelRole) (r : LevelRef), f = .badLevel role r.image r.level) ∨
    (target ∈ reads ∧ f = .aliased target.image target.level) ∨
    ∃ r ∈ regs, readReg s.regs r = none ∧ f = .uninitParam (regNumber r) := by
  simp only [preflight_eq_or, Option.or_eq_some_iff] at h
  obtain hout | ⟨_, hread | ⟨_, halias | ⟨_, hreg⟩⟩⟩ := h
  · exact .inl ⟨.out, target, (checkLevel_some.1 hout).2⟩
  · obtain ⟨r, _, hr⟩ := List.exists_of_findSome?_eq_some hread
    exact .inl ⟨.read, r, (checkLevel_some.1 hr).2⟩
  · exact .inr (.inl (checkAlias_some.1 halias))
  · obtain ⟨r, hr, hf⟩ := List.exists_of_findSome?_eq_some hreg
    exact .inr (.inr ⟨r, hr, checkReg_some.1 hf⟩)

/-! ### How a dispatch faults -/

theorem invoke_faults_code {p : Pass} {e : Invocation} {f : FaultRecord} (h : invoke p e = .faults f) : 6 ≤ f.code := by
  obtain ⟨_, h'⟩ | ⟨_, _, h'⟩ | ⟨_, a, _, h'⟩ := invoke_cases p e
  · rw [h'] at h; cases h
  · obtain ⟨_, _, hs⟩ | ⟨_, hs⟩ := imageStore_cases e (p.color e)
    · rw [h', hs] at h; cases h
    · rw [h', hs] at h; cases h; exact Nat.le_succ 6
  · rw [h'] at h; cases h; exact Nat.le_refl 6

/-- A grid that ends in a fault reports one that an invocation raised. -/
theorem runGrid_faulted {p : Pass} {s : State} {f : FaultRecord} (h : (runGrid p s).status = .fault f) :
    (∃ q ∈ gridPoints s.gridX s.gridY, invoke p (invocationAt s p.target q) = .faults f) ∧
      runGrid p s = raiseInvocationFault f p.target s := by
  obtain ⟨_, hrun⟩ | ⟨g, hraised, hrun⟩ := runGrid_cases p s
  · rw [hrun, finishDispatch_status] at h; cases h
  · rw [hrun, raiseInvocationFault_status] at h; cases h; exact ⟨hraised, hrun⟩

theorem runGrid_faulted_code {p : Pass} {s : State} {f : FaultRecord} (h : (runGrid p s).status = .fault f) : 6 ≤ f.code := by
  obtain ⟨⟨_, _, hf⟩, _⟩ := runGrid_faulted h
  exact invoke_faults_code hf

theorem exec_slotFault {i : Instr} {s : State} {f : FaultRecord} (ha : s.Admits)
    (h : (usedSlots i).findSome? (slotFault s) = some f) : exec i s = .next (faultedAtStart (encode i) f s) := by
  have hplan : planOf i (startDispatch (encode i) s) = .error f := planOf_error.2 h
  rw [exec_admitted ha, runStarted, hplan]
  rfl

theorem exec_preflightFault {i : Instr} {s : State} {src blm : Nat} {target : LevelRef} {f : FaultRecord} (ha : s.Admits)
    (hslots : Resolved i s src blm target) (h : preflight s (readSet i src blm) (regsRead i) target = some f) :
    exec i s = .next (faultedAtStart (encode i) f s) := by
  have hpre : preflight (startDispatch (encode i) s) (readSet i src blm) (regsRead i) target = some f := h
  rw [exec_resolved ha hslots, runPass, passOf_reads, passOf_regs, passOf_target, hpre]
  rfl

/-- A dispatch that ends in a fault: of a slot, of a check after the slots, or of an invocation. -/
theorem exec_faulted_cases {i : Instr} {s t : State} {f : FaultRecord} (h : exec i s = .next t) (hf : t.status = .fault f) :
    (t = faultedAtStart (encode i) f s ∧ ((∃ q ∈ usedSlots i, ¬ SlotBound s q ∧ f = .badIndex q.1 q.2) ∨
      ∃ src blm target, Resolved i s src blm target ∧ preflight s (readSet i src blm) (regsRead i) target = some f)) ∨
    6 ≤ f.code := by
  obtain ⟨_, ⟨g, hplan, rfl⟩ | ⟨p, hplan, ⟨g, hpre, rfl⟩ | ⟨_, rfl⟩⟩⟩ := exec_next_cases h
  · cases hf
    obtain ⟨q, hq, hunbound, hf⟩ := planOf_error_badIndex hplan
    exact .inl ⟨rfl, .inl ⟨q, hq, hunbound, hf⟩⟩
  · cases hf
    obtain ⟨src, blm, target, hslots, rfl⟩ := planOf_ok hplan
    rw [passOf_reads, passOf_regs, passOf_target] at hpre
    exact .inl ⟨rfl, .inr ⟨src, blm, target, ⟨hslots.input, hslots.bloom, hslots.output⟩, hpre⟩⟩
  · exact .inr (runGrid_faulted_code hf)

/-- Settles O18: the plan's error is that of the first slot without a binding, and no later fault names a slot. -/
theorem firstBadSlotFaults : Obligations.FirstBadSlotFaults := by
  refine fun i s ha => ⟨fun pre q post hused hpre hq => ?_, fun hbound t hexec table index hf => ?_⟩
  · have hfirst : (usedSlots i).findSome? (slotFault s) = some (.badIndex q.1 q.2) :=
      List.findSome?_eq_some_iff.2
        ⟨pre, q, post, hused, slotFault_of_not_bound hq, fun p hp => slotFault_eq_none.2 (hpre p hp)⟩
    exact ⟨_, exec_slotFault ha hfirst, rfl⟩
  · obtain ⟨_, ⟨q, hq, hunbound, _⟩ | ⟨_, _, _, _, hpre⟩⟩ | hcode := exec_faulted_cases hexec hf
    · exact hunbound (hbound q hq)
    · obtain ⟨_, _, h⟩ | ⟨_, h⟩ | ⟨_, _, _, h⟩ := preflight_some hpre <;> cases h
    · exact absurd hcode (show ¬ 6 ≤ 2 by decide)

/-- With every level present only the target's absence from the read set and the registers are left to check. -/
theorem preflight_of_present {i : Instr} {s : State} {src blm : Nat} {target : LevelRef} (hpresent : LevelPresent s target)
    (hreads : ∀ r ∈ readSet i src blm, LevelPresent s r) :
    preflight s (readSet i src blm) (regsRead i) target =
      (checkAlias (readSet i src blm) target).or ((regsRead i).findSome? (checkReg s.regs)) := by
  have hread : (readSet i src blm).findSome? (checkLevel s.images .read) = none :=
    List.findSome?_eq_none_iff.2 fun r hr => checkLevel_none.2 (hreads r hr)
  rw [preflight_eq_or, checkLevel_none.2 hpresent, hread, Option.none_or, Option.none_or]

/-- Settles O19: the target's level is checked first, then the read set in its order. -/
theorem firstAbsentLevelFaults : Obligations.FirstAbsentLevelFaults := by
  refine fun i s src blm target ha hslots => ⟨fun habsent => ?_, fun hpresent pre r post hset hpre hr => ?_⟩
  · have hout : checkLevel s.images .out target = some (.badLevel .out target.image target.level) :=
      checkLevel_some.2 ⟨habsent, rfl⟩
    refine ⟨_, exec_preflightFault ha hslots ?_, rfl⟩
    rw [preflight_eq_or, hout, Option.some_or]
  · have hread : (readSet i src blm).findSome? (checkLevel s.images .read) = some (.badLevel .read r.image r.level) :=
      List.findSome?_eq_some_iff.2
        ⟨pre, r, post, hset, checkLevel_some.2 ⟨hr, rfl⟩, fun p hp => checkLevel_none.2 (hpre p hp)⟩
    refine ⟨_, exec_preflightFault ha hslots ?_, rfl⟩
    rw [preflight_eq_or, checkLevel_none.2 hpresent, hread, Option.none_or, Option.some_or]

/-- Settles O20: whether the target is read is checked next, and only that check raises F_ALIAS. -/
theorem aliasedTargetFaults : Obligations.AliasedTargetFaults := by
  refine fun i s src blm target ha hslots hpresent hreads => ⟨fun hmem => ?_, fun hapart t hexec im lv hf => ?_⟩
  · refine ⟨_, exec_preflightFault ha hslots ?_, rfl⟩
    rw [preflight_of_present hpresent hreads, checkAlias_some.2 ⟨hmem, rfl⟩, Option.some_or]
  · obtain rfl := exec_resolved_next hslots hexec
    obtain ⟨g, hpre, hrun⟩ | ⟨_, hrun⟩ := runPass_cases (passOf i src blm target) (startDispatch (encode i) s)
    · rw [hrun] at hf
      cases hf
      obtain ⟨_, _, h⟩ | ⟨hmem, _⟩ | ⟨_, _, _, h⟩ := preflight_some hpre
      · cases h
      · rw [passOf_target, passOf_reads] at hmem
        exact hapart hmem
      · cases h
    · rw [hrun] at hf
      exact absurd (runGrid_faulted_code hf) (show ¬ 6 ≤ 4 by decide)

/-- Settles O21: the registers are checked last, in number order; once all are written the invocations run. -/
theorem firstUnwrittenRegisterFaults : Obligations.FirstUnwrittenRegisterFaults := by
  refine fun i s src blm target ha hslots hpresent hreads hapart =>
    ⟨fun pre r post hregs hpre hr => ?_, fun hregs t hexec f hf => ?_⟩
  · have hreg : (regsRead i).findSome? (checkReg s.regs) = some (.uninitParam (regNumber r)) :=
      List.findSome?_eq_some_iff.2
        ⟨pre, r, post, hregs, checkReg_some.2 ⟨hr, rfl⟩, fun p hp => checkReg_none.2 (hpre p hp)⟩
    refine ⟨_, exec_preflightFault ha hslots ?_, rfl⟩
    rw [preflight_of_present hpresent hreads, checkAlias_none.2 hapart, hreg, Option.none_or]
  · have hchecks : ChecksPass i s src blm target := ⟨hpresent, hreads, hapart, hregs⟩
    obtain rfl := exec_resolved_next hslots hexec
    rw [runPass_of_checksPass (hchecks.startDispatch _)] at hf
    exact runGrid_faulted_code hf

/-- Settles O22: a fault of such a code is raised before any invocation runs. -/
theorem dispatchFaultsArePrecise : Obligations.DispatchFaultsArePrecise := by
  intro i s t f hexec hf hcode
  obtain ⟨ht, _⟩ | hinvocation := exec_faulted_cases hexec hf
  · exact ht
  · omega

end Sys2Proof.Machine

/-! The invocation faults: which invocations raise one, what the dispatch reports, and what it leaves (60_exceptions.md R134, R140, R141, R143). -/

namespace Sys2Proof.Machine

/-! ### The fault of an invocation -/

/-- The unwritten texels of an invocation are those of its samples' footprints. -/
theorem mem_unwritten {p : Pass} {e : Invocation} {a : TexelAddr} :
    a ∈ p.unwritten e ↔ ∃ q ∈ p.samples e, a ∈ footprint e.start.images q ∧ memRead e.start.texels a = none := by
  simp [Pass.unwritten, unwrittenIn]

theorem unwritten_eq_nil {p : Pass} {e : Invocation} :
    p.unwritten e = [] ↔
      ∀ q ∈ p.samples e, ∀ a ∈ footprint e.start.images q, (memRead e.start.texels a).isSome = true := by
  simp only [List.eq_nil_iff_forall_not_mem, mem_unwritten, not_exists, not_and, ← ne_eq, Option.ne_none_iff_isSome]
  exact ⟨fun h q hq a ha => h a q hq ha, fun h a q hq ha => h q hq a ha⟩

/-- A guard that lets a position outside the target through is REFERENCE, which does not test `y` (41_decoder.md R86, R87). -/
theorem guardPasses_outside {mode : GuardMode} {w h x y : Nat} (hguard : guardPasses mode w h x y = true)
    (hout : ¬ (x < w ∧ y < h)) : mode = .reference ∧ x < w ∧ h ≤ y := by
  cases mode with
  | correct =>
    rw [guardPasses, Bool.and_eq_true, decide_eq_true_eq, decide_eq_true_eq] at hguard
    exact absurd hguard hout
  | reference =>
    rw [guardPasses, Bool.and_self, decide_eq_true_eq] at hguard
    exact ⟨rfl, hguard, Nat.not_lt.1 fun hy => hout ⟨hguard, hy⟩⟩

theorem raisesFault_of_invoke {p : Pass} {s : State} {x y : Nat} {f : FaultRecord}
    (h : invoke p (invocationAt s p.target (x, y)) = .faults f) : RaisesFault p s x y f := by
  obtain ⟨_, h'⟩ | ⟨hguard, hnil, h'⟩ | ⟨hguard, a, ha, h'⟩ := invoke_cases p (invocationAt s p.target (x, y))
  · rw [h'] at h; cases h
  · obtain ⟨_, _, hstore⟩ | ⟨hout, hstore⟩ := imageStore_cases (invocationAt s p.target (x, y))
      (p.color (invocationAt s p.target (x, y)))
    · rw [h', hstore] at h; cases h
    · rw [h', hstore] at h
      cases h
      obtain ⟨hmode, hx, hy⟩ := guardPasses_outside hguard hout
      exact ⟨hguard, .inr ⟨unwritten_eq_nil.1 hnil, hmode, hx, hy, rfl⟩⟩
  · rw [h'] at h
    cases h
    obtain ⟨q, hq, ha, hnone⟩ := mem_unwritten.1 ha
    exact ⟨hguard, .inl ⟨q, hq, a, ha, hnone, rfl⟩⟩

/-- An invocation that raises some fault ends in one, though of several unwritten texels it may report another. -/
theorem RaisesFault.invoke {p : Pass} {s : State} {x y : Nat} {f : FaultRecord} (h : RaisesFault p s x y f) :
    ∃ g, invoke p (invocationAt s p.target (x, y)) = .faults g := by
  obtain ⟨hguard, hfault⟩ := h
  obtain ⟨hskip, _⟩ | ⟨_, hnil, h'⟩ | ⟨_, a, _, h'⟩ := invoke_cases p (invocationAt s p.target (x, y))
  · cases hguard.symm.trans hskip
  · obtain ⟨q, hq, a, ha, hnone, _⟩ | ⟨_, _, _, hy, _⟩ := hfault
    · have hmem := mem_unwritten.2 ⟨q, hq, ha, hnone⟩
      rw [hnil] at hmem
      cases hmem
    · obtain ⟨_, hin, _⟩ | ⟨_, hstore⟩ := imageStore_cases (invocationAt s p.target (x, y))
        (p.color (invocationAt s p.target (x, y)))
      · exact absurd hin (Nat.not_lt.2 hy)
      · exact ⟨_, h'.trans hstore⟩
  · exact ⟨_, h'⟩

/-- Started, a dispatch runs each invocation as from the state before. -/
theorem invoke_passOf_startDispatch (i : Instr) (src blm : Nat) (target : LevelRef) (w : Word) (s : State) (q : Nat × Nat) :
    invoke (passOf i src blm target) (invocationAt (startDispatch w s) target q) =
      invoke (passOf i src blm target) (invocationAt s target q) :=
  (sameInputs_startDispatch (readSet i src blm) w s).invoke target target q

/-- Settles O23: the checks pass, so the invocations run, and the grid faults exactly when one of them does. -/
theorem invocationFaultIsReported : Obligations.InvocationFaultIsReported := by
  intro i s t src blm target hslots hchecks hexec
  obtain rfl := exec_resolved_next hslots hexec
  rw [runPass_of_checksPass (hchecks.startDispatch _)]
  refine ⟨fun f hf => ?_, fun ⟨x, y, f, hx, hy, hraises⟩ => ?_⟩
  · obtain ⟨⟨⟨x, y⟩, hq, hinvoke⟩, _⟩ := runGrid_faulted hf
    obtain ⟨hx, hy⟩ := mem_gridPoints.1 hq
    rw [passOf_target, invoke_passOf_startDispatch] at hinvoke
    refine ⟨x, y, hx, hy, raisesFault_of_invoke ?_⟩
    rw [passOf_target, hinvoke]
  · obtain ⟨g, hg⟩ := hraises.invoke
    rw [passOf_target, ← invoke_passOf_startDispatch i src blm target (encode i)] at hg
    obtain ⟨hnone, _⟩ | ⟨g', _, hrun⟩ := runGrid_cases (passOf i src blm target) (startDispatch (encode i) s)
    · rw [passOf_target] at hnone
      exact absurd hg (hnone (x, y) (mem_gridPoints.2 ⟨hx, hy⟩) g)
    · exact ⟨g', by rw [hrun, raiseInvocationFault_status]⟩

/-! ### What a dispatch that faulted leaves -/

/-- The grid presented is kept. -/
theorem exec_grid {i : Instr} {s t : State} (h : exec i s = .next t) : t.gridX = s.gridX ∧ t.gridY = s.gridY := by
  obtain ⟨_, ⟨f, _, rfl⟩ | ⟨p, _, ⟨f, _, rfl⟩ | ⟨_, rfl⟩⟩⟩ := exec_next_cases h
  · exact ⟨rfl, rfl⟩
  · exact ⟨rfl, rfl⟩
  · obtain ⟨_, hrun⟩ | ⟨f, _, hrun⟩ := runGrid_cases p (startDispatch (encode i) s)
    · rw [hrun]; exact ⟨rfl, rfl⟩
    · rw [hrun]; exact ⟨rfl, rfl⟩

/-- A pass that ends in a fault leaves every texel outside its target level, and every address outside the level's size. -/
theorem runPass_faulted_texels {p : Pass} {s : State} {f : FaultRecord} (h : (runPass p s).status = .fault f) {a : TexelAddr}
    (ha : ¬ (a.ref = p.target ∧ a.x < (levelSize s.images p.target).1 ∧ a.y < (levelSize s.images p.target).2)) :
    memRead (runPass p s).texels a = memRead s.texels a := by
  obtain ⟨g, _, hrun⟩ | ⟨_, hrun⟩ := runPass_cases p s
  · rw [hrun, raiseFault_texels]
  · rw [hrun] at h
    rw [hrun, (runGrid_faulted h).2, raiseInvocationFault_texels]
    refine memRead_drawLevel_other s p.target ?_
    simpa only [not_and_or, not_lt] using ha

/-- Settles O24: the index does not advance, the configuration is kept, and only the target level is drawn. -/
theorem invocationFaultSpoilsTargetOnly : Obligations.InvocationFaultSpoilsTargetOnly := by
  intro i s t f src blm target hslots hexec hf
  have hindex : t.k = s.k := (exec_end hexec).index_of_not_done (by rw [hf]; nofun)
  obtain ⟨hregs, hin, hbl, hout, hdesc⟩ := exec_frame hexec
  obtain ⟨hprogram, hcfg, himages⟩ := exec_sameSetup hexec
  obtain ⟨hgridX, hgridY⟩ := exec_grid hexec
  refine ⟨hindex, hdesc, hregs, hin, hbl, hout, himages, hcfg, hprogram, hgridX, hgridY, fun a ha => ?_⟩
  obtain rfl := exec_resolved_next hslots hexec
  exact runPass_faulted_texels hf (by rw [passOf_target]; exact ha)

end Sys2Proof.Machine

/-! The five modes: the read set each samples, and the texels a pass that is ready writes (47_modes.md R118–R124). -/

namespace Sys2Proof.Machine

/-! ### The read set (47_modes.md R119) -/

theorem exists_boxSample (c : Ctx) (images : List Image) (r : LevelRef) (uv : F × F) :
    ∃ q ∈ boxSamples c images r uv, q.ref = r :=
  ⟨boxSample c images r uv .A, List.mem_map.2 ⟨.A, by decide, rfl⟩, boxSample_ref c images r uv .A⟩

theorem exists_blendSample_tent (tent existing : LevelRef) (e : Invocation) :
    ∃ q ∈ blendSamples tent existing e, q.ref = tent :=
  ⟨tentSample (e.bodyCtx.nth 0) e.start.images tent e.uv .zero .zero,
    List.mem_append_left _ (List.mem_map.2 ⟨(.zero, .zero), by decide, rfl⟩), tentSample_ref _ _ tent _ _ _⟩

theorem exists_blendSample_existing (tent existing : LevelRef) (e : Invocation) :
    ∃ q ∈ blendSamples tent existing e, q.ref = existing :=
  ⟨⟨existing, e.uv.1, e.uv.2⟩, List.mem_append_right _ (List.mem_singleton.2 rfl), rfl⟩

/-- A mode samples every level of its read set. -/
theorem exists_passOf_sample {i : Instr} {src blm : Nat} {target r : LevelRef} (e : Invocation) (hr : r ∈ readSet i src blm) :
    ∃ q ∈ (passOf i src blm target).samples e, q.ref = r := by
  cases i with
  | prefilter | downsample =>
    rw [List.mem_singleton.1 hr]
    exact exists_boxSample _ _ _ _
  | upsampleFirst | upsample | apply =>
    obtain rfl | hr := List.mem_cons.1 hr
    · exact exists_blendSample_tent _ _ e
    · rw [List.mem_singleton.1 hr]
      exact exists_blendSample_existing _ _ e

/-- Settles O30: a resolved dispatch runs the mode's pass, which is the row of the table, and its samples are of the read set. -/
theorem modesReadTheirTable : Obligations.ModesReadTheirTable := fun i src blm target =>
  ⟨fun _ ha hslots => exec_resolved ha hslots, passOf_reads i src blm target, passOf_regs i src blm target,
    passOf_target i src blm target, fun e => ⟨fun _ hq => passOf_samples_ref hq, fun _ hr => exists_passOf_sample e hr⟩⟩

/-! ### A ready pass -/

/-- A pass that is ready raises no invocation fault. -/
theorem PassReady.not_raisesFault {p : Pass} {s : State} (h : PassReady p s) {x y : Nat} (hx : x < s.gridX) (hy : y < s.gridY)
    (f : FaultRecord) : ¬ RaisesFault p s x y f := by
  rintro ⟨hguard, ⟨q, hq, a, ha, hnone, _⟩ | ⟨_, hmode, hxw, hyh, _⟩⟩
  · have hsome := h.written x y hx hy hguard q hq a ha
    rw [hnone] at hsome
    cases hsome
  · exact absurd (h.inside hmode x y hx hy hxw) (Nat.not_lt.2 hyh)

section
variable {i : Instr} {s : State} {src blm : Nat} {target : LevelRef}

theorem PassReady.checksPass (h : PassReady (passOf i src blm target) s) : ChecksPass i s src blm target where
  present := by simpa only [passOf_target] using h.target
  reads := by simpa only [passOf_reads] using h.reads
  apart := by simpa only [passOf_target, passOf_reads] using h.apart
  regs := by simpa only [passOf_regs] using h.regs

/-- Once started, a ready dispatch's grid completes with its stores made. -/
theorem PassReady.runGrid (h : PassReady (passOf i src blm target) s) (w : Word) :
    runGrid (passOf i src blm target) (startDispatch w s) =
      finishDispatch ((gridResults (passOf i src blm target) (startDispatch w s)).foldl (storeResult target) s.texels)
        (startDispatch w s) := by
  obtain ⟨_, hrun⟩ | ⟨f, ⟨⟨x, y⟩, hq, hf⟩, _⟩ := runGrid_cases (passOf i src blm target) (startDispatch w s)
  · rw [hrun, passOf_target]
    rfl
  · obtain ⟨hx, hy⟩ := mem_gridPoints.1 hq
    rw [passOf_target, invoke_passOf_startDispatch] at hf
    exact absurd (raisesFault_of_invoke (by rw [passOf_target, hf])) (h.not_raisesFault hx hy f)

/-- A grid stores at positions of it that lie inside the target level, and nowhere else. -/
theorem memRead_gridStores_other {p : Pass} {a : TexelAddr} (ha : ¬ (a.ref = p.target ∧ a.x < s.gridX ∧ a.y < s.gridY ∧
    a.x < (levelSize s.images p.target).1 ∧ a.y < (levelSize s.images p.target).2)) (m : Memory) :
    memRead ((gridResults p s).foldl (storeResult p.target) m) a = memRead m a := by
  refine memRead_storeFold_other _ m a fun ⟨q, r⟩ hq v hv haddr => ha ?_
  obtain ⟨hgrid, hr⟩ := mem_gridResults.1 hq
  obtain ⟨hx, hy, _⟩ := invoke_stores (hr.symm.trans hv)
  obtain ⟨hgx, hgy⟩ := mem_gridPoints.1 hgrid
  rw [haddr]
  exact ⟨rfl, hgx, hgy, hx, hy⟩

/-- What those stores leave at a position of the grid inside the target level. -/
theorem PassReady.stored (h : PassReady (passOf i src blm target) s) (w : Word) {x y : Nat} (hgx : x < s.gridX)
    (hgy : y < s.gridY) (hx : x < (levelSize s.images target).1) (hy : y < (levelSize s.images target).2) :
    memRead ((gridResults (passOf i src blm target) (startDispatch w s)).foldl (storeResult target) s.texels)
        (storeAddr target x y) =
      some (storedTexel s.cfg ((passOf i src blm target).color (invocationAt s target (x, y)))) := by
  have hrun := h.runGrid w
  have hdone : (Machine.runGrid (passOf i src blm target) (startDispatch w s)).status = .done := by
    rw [hrun, finishDispatch_status]
  have hstore := runGrid_stored hdone hgx hgy (by rw [passOf_target]; exact hx) (by rw [passOf_target]; exact hy)
  rw [hrun, finishDispatch_texels, (sameInputs_startDispatch _ w s).color, passOf_target] at hstore
  exact hstore

/-- A dispatch whose slots resolve to a pass that is ready completes, and the pass's colour is what it writes. -/
theorem PassReady.exec_done (hslots : Resolved i s src blm target) (h : PassReady (passOf i src blm target) s) :
    ∃ t, exec i s = .next t ∧
      PassDone (encode i) target (fun x y => (passOf i src blm target).color (invocationAt s target (x, y))) s t := by
  have hexec := exec_resolved h.admitted hslots
  rw [runPass_of_checksPass (h.checksPass.startDispatch _), h.runGrid] at hexec
  exact ⟨_, hexec,
    { status := rfl, index := rfl, draws := rfl, desc := rfl
      stored := fun _ _ => h.stored (encode i)
      others := fun a ha => by
        have hother := memRead_gridStores_other (p := passOf i src blm target) (s := startDispatch (encode i) s) (a := a)
          (by rw [passOf_target]; exact ha) s.texels
        rw [passOf_target] at hother
        exact hother
      cfg := rfl, regs := rfl, gridX := rfl, gridY := rfl, inBind := rfl, blBind := rfl, outBind := rfl
      images := rfl, program := rfl }⟩

end

/-! ### The modes (47_modes.md R120–R124) -/

theorem regValue_of_readReg {g : ParamRegs} {r : ParamReg} {v : F} (h : readReg g r = some v) : regValue g r = v := by
  rw [regValue, h, Option.getD_some]

/-- Settles O25: PREFILTER's body with its registers read. -/
theorem prefilterWritesThresholdedBox : Obligations.PrefilterWritesThresholdedBox := by
  intro lod input output bloom src target s tc0 tc1 tc2 tc3 hin hout h0 h1 h2 h3 hready
  obtain ⟨t, hexec, hdone⟩ := PassReady.exec_done (i := .prefilter lod input output bloom) (blm := 0)
    ⟨hin, nofun, hout⟩ hready
  simp only [passOf, passPrefilter, bodyPrefilter, invocationAt_start, regValue_of_readReg h0, regValue_of_readReg h1,
    regValue_of_readReg h2, regValue_of_readReg h3] at hdone
  exact ⟨t, hexec, hdone⟩

/-- Settles O26: DOWNSAMPLE's body. -/
theorem downsampleWritesBox : Obligations.DownsampleWritesBox := by
  intro lod input output bloom src target s hin hout hready
  exact PassReady.exec_done (i := .downsample lod input output bloom) (blm := 0) ⟨hin, nofun, hout⟩ hready

/-- Settles O27: UPSAMPLE_FIRST's body with its register read. -/
theorem upsampleFirstWritesBlend : Obligations.UpsampleFirstWritesBlend := by
  intro lod input output bloom src target s c hin hout hc hready
  obtain ⟨t, hexec, hdone⟩ := PassReady.exec_done (i := .upsampleFirst lod input output bloom) (blm := 0)
    ⟨hin, nofun, hout⟩ hready
  simp only [passOf, passUpsampleFirst, bodyUpsampleFirst, invocationAt_start, regValue_of_readReg hc] at hdone
  exact ⟨t, hexec, hdone⟩

/-- Settles O28: UPSAMPLE's body with its register read. -/
theorem upsampleWritesBlend : Obligations.UpsampleWritesBlend := by
  intro lod input output bloom src blm target s c hin hbl hout hc hready
  obtain ⟨t, hexec, hdone⟩ := PassReady.exec_done (i := .upsample lod input output bloom)
    ⟨hin, fun _ => hbl, hout⟩ hready
  simp only [passOf, passUpsample, bodyUpsample, invocationAt_start, regValue_of_readReg hc] at hdone
  exact ⟨t, hexec, hdone⟩

/-- Settles O29: APPLY's body with its registers read. -/
theorem applyWritesTonemappedBlend : Obligations.ApplyWritesTonemappedBlend := by
  intro lod input output bloom src blm target s n c hin hbl hout hn hc hready
  obtain ⟨t, hexec, hdone⟩ := PassReady.exec_done (i := .apply lod input output bloom)
    ⟨hin, fun _ => hbl, hout⟩ hready
  simp only [passOf, passApply, bodyApply, invocationAt_start, regValue_of_readReg hn, regValue_of_readReg hc] at hdone
  exact ⟨t, hexec, hdone⟩

end Sys2Proof.Machine

/-! Reserved words, refusals and the initial state (60_exceptions.md R135; 70_reset_and_hazards.md R157, R160, R167), and the example words (95_test_vectors.md). -/

namespace Sys2Proof.Machine

/-- The mode field is the word's top four bits (41_decoder.md R81). -/
theorem shiftRight_28_toNat (w : Word) : (w >>> 28).toNat = (decodeFields w).mode := by
  have hw := w.isLt
  simp only [BitVec.toNat_ushiftRight, Nat.shiftRight_eq_div_pow, decodeFields, bitField]
  omega

theorem decode_reserved {w : Word} (h : 5 ≤ (decodeFields w).mode) :
    decode w = .error (.reservedMode (decodeFields w).mode) :=
  ofFields_eq_reserved.2 h

/-- Settles O8: the word decodes to no instruction, and an admitting STATUS lets the fault be raised. -/
theorem reservedModeFaults : Obligations.ReservedModeFaults := by
  intro s w gx gy rest hprog ha hmode
  rw [shiftRight_28_toNat] at hmode ⊢
  rw [step_cons hprog]
  simp [perform, stepDispatch, decode_reserved hmode, dispatchReserved, admits_iff_refusesIn.1 ha, faultedAtStart,
    raiseFault, startDispatch, presentGrid]

/-! ### BUSY (70_reset_and_hazards.md R167) -/

theorem hostWrite_status (a : HostAction) (s : State) : (hostWrite a s).status = s.status := by
  cases a <;> rfl

/-- No host action leaves BUSY: a dispatch has ended, and a configuration write keeps STATUS. -/
theorem perform_not_busy {a : HostAction} {s t : State} (hs : s.status ≠ .busy) (h : perform a s = .next t) :
    t.status ≠ .busy := by
  cases a with
  | dispatch w gx gy =>
    have hend : DispatchEnd s.k t := stepDispatch_end h
    obtain hdone | ⟨f, hf⟩ := hend.settled
    · rw [hdone]; nofun
    · rw [hf]; nofun
  | setReg | bindIn | bindBl | bindOut =>
    rw [perform_eq_cfgWrite rfl] at h
    obtain ⟨_, rfl⟩ := cfgWrite_next h
    rw [hostWrite_status]
    exact hs

/-- Settles O11: a STATUS that refuses refuses every action, and BUSY is not left by one. -/
theorem refusedWhileBusyOrFaulted : Obligations.RefusedWhileBusyOrFaulted := by
  refine ⟨fun s a rest hprog => ⟨fun hbusy => ?_, fun f hf => step_afterFault hf hprog⟩, fun s t hs hstep => ?_⟩
  · rw [step_cons hprog]
    exact perform_refused (by simp [hbusy])
  · cases hprog : s.program with
    | nil => rw [step_nil hprog] at hstep; cases hstep; exact hs
    | cons a rest => rw [step_cons hprog] at hstep; exact perform_not_busy (s := { s with program := rest }) hs hstep

/-! ### The initial state -/

/-- No slot of an unbound table is bound. -/
theorem replicate_none_ne_bound {α : Type} {n m : Nat} {v : α} :
    (Vector.replicate n (none : Option α))[m]? ≠ some (some v) := by
  simp [Vector.getElem?_replicate]

theorem not_slotBound_initial (images : List Image) (texels : Memory) (q : BindTable × Nat) :
    ¬ SlotBound (State.initial images texels) q := by
  obtain ⟨table, n⟩ := q
  cases table with
  | input | bloom | output => exact fun ⟨_, h⟩ => replicate_none_ne_bound h

/-- Settles O15: registers and tables are empty, for any images and texels. -/
theorem initialState : Obligations.InitialState := fun images texels =>
  ⟨rfl, rfl, rfl, fun r => by cases r <;> rfl, rfl, not_slotBound_initial images texels⟩

/-- Settles O5, by decoding each word. -/
theorem exampleWordsDecode : Obligations.ExampleWordsDecode := by
  unfold Obligations.ExampleWordsDecode
  decide

end Sys2Proof.Machine
